-- ==== Sys2Proof/Word.lean ====
section
/-! DEFINITION. The block's data widths (spec/00_scope.md R8): an 8-bit byte and the 32-bit word of the
register port, every value unsigned. -/

namespace Sys2Proof

/-- A byte, values 0..255 (R8). -/
abbrev Byte := BitVec 8

/-- One word of the host register port, and a command word (R18, R48, R61). -/
abbrev Word := BitVec 32

/-- The two packet kinds a control byte selects (R65, bit `K`). -/
inductive PacketKind where
  /-- `K = 0`: literal pixels follow (R90). -/
  | raw
  /-- `K = 1`: one pixel follows, repeated (R91). -/
  | run
  deriving DecidableEq, Repr

end Sys2Proof
end

