-- ==== Sys2Proof/Syntax.lean ====
section
/-! DEFINITION. The abstract syntax: one constructor for each row of spec/opcode_table.json, seven command
rows and two packet kinds. A command carries the operands that stand in its word (R61, R64); every other
operand is a register. A packet carries the low seven bits of its control byte (R65); its payload stays in the
source, from where the packet's engine step reads it (R89). -/

namespace Sys2Proof

/-- The instructions of the block. -/
inductive Instr where
  /-- Deserialize the next 18 source bytes into HDR (R80). -/
  | hdrParse
  /-- Write the 18 bytes of HDR to the sink (R81). -/
  | hdrSerialize
  /-- Validate HDR and configure the engine from it (R82). -/
  | hdrCheck
  /-- Construct in HDR the header for the configured image (R86); `rle` is `w[8]`, `vflip` is `w[9]`. -/
  | hdrBuild (rle vflip : Bool)
  /-- Decode a packet stream from the source into PBUF (R88). -/
  | rleDecode
  /-- Encode PBUF into a packet stream written to the sink (R100). -/
  | rleEncode
  /-- Any command word `w` that is not legal (R109); the whole word is kept, since DETAIL is computed from it. -/
  | illegal (w : Word)
  /-- A raw packet of `n + 1` literal pixels (R90). -/
  | rawPacket (n : BitVec 7)
  /-- A run packet: one pixel, `n + 1` times (R91). -/
  | runPacket (n : BitVec 7)
  deriving DecidableEq, Repr

end Sys2Proof
end

