-- ==== Sys2Proof/Decode.lean ====
section
/-! DEFINITION. The decoder and the encoder of the two code spaces of spec/30_encoding.md: the 32-bit command
word written to CMD (R61 to R63) and the packet control byte (R65, R66, R70). Both decoders are total: every
control byte is a legal packet (R70), and every command word that is not legal is the ILLEGAL command (R63). -/

namespace Sys2Proof

/-! ### The command word -/

/-- OP, `w[7:0]` (R61). -/
def opField (w : Word) : Byte := w.extractLsb' 0 8

/-- The flag bits RLE and VFLIP together, `w[9:8]` (R61). -/
def flagField (w : Word) : BitVec 2 := w.extractLsb' 8 2

/-- The reserved bits, `w[31:10]` (R61). -/
def reservedField (w : Word) : BitVec 22 := w.extractLsb' 10 22

/-- `w[7:0] in {0x01, ..., 0x06}` (R62, R63). -/
def definedOpcode (op : Byte) : Bool := 1 ≤ op.toNat && op.toNat ≤ 6

/-- `legal(w)` of R63. -/
def legalWord (w : Word) : Bool :=
  definedOpcode (opField w) && reservedField w == 0 && (opField w == 0x04 || flagField w == 0)

/-- The command of a legal word, by its opcode (R62); a word with any other opcode is ILLEGAL. -/
def commandOf (w : Word) : Instr :=
  match (opField w).toNat with
  | 0x01 => .hdrParse
  | 0x02 => .hdrSerialize
  | 0x03 => .hdrCheck
  | 0x04 => .hdrBuild (w.getLsbD 8) (w.getLsbD 9)
  | 0x05 => .rleDecode
  | 0x06 => .rleEncode
  | _ => .illegal w

/-- `legal(w) ? command(w[7:0], w[8], w[9]) : ILLEGAL(w)` (R110, R63). -/
def decodeCommand (w : Word) : Instr :=
  if legalWord w then commandOf w else .illegal w

/-! ### The packet control byte -/

/-- The kind bit `c[7]` (R65). -/
def controlKind (c : Byte) : PacketKind := if c.getLsbD 7 then .run else .raw

/-- The count field `c[6:0]`, the pixel count minus one (R65). -/
def controlCount (c : Byte) : BitVec 7 := c.extractLsb' 0 7

/-- The pixel count `n(c) = c[6:0] + 1` of a count field, 1..128 (R66). -/
def pixelCount (n : BitVec 7) : Nat := n.toNat + 1

/-- The packet a control byte begins: every byte is legal (R70). -/
def decodeControl (c : Byte) : Instr :=
  match controlKind c with
  | .raw => .rawPacket (controlCount c)
  | .run => .runPacket (controlCount c)

/-- The payload bytes that follow a packet's control byte in a stream of `C`-byte pixels (R67). -/
def payloadLength (k : PacketKind) (n : BitVec 7) (C : Nat) : Nat :=
  match k with
  | .raw => pixelCount n * C
  | .run => C

/-- `pktlen(c, C)` of R67: the length in bytes of the whole packet that control byte `c` begins. -/
def packetLength (c : Byte) (C : Nat) : Nat :=
  1 + payloadLength (controlKind c) (controlCount c) C

/-! ### Both code spaces, and the encoder -/

/-- An encoded instruction: the word the host writes to CMD, or the control byte in a packet stream (R60). -/
inductive Encoded where
  | command (w : Word)
  | control (c : Byte)
  deriving DecidableEq, Repr

/-- The instruction an encoded form stands for. -/
def decode : Encoded → Instr
  | .command w => decodeCommand w
  | .control c => decodeControl c

/-- The opcode byte of a command (R62); of ILLEGAL, the byte its word carries. The packet kinds have none. -/
def opcodeOf : Instr → Option Byte
  | .hdrParse => some 0x01
  | .hdrSerialize => some 0x02
  | .hdrCheck => some 0x03
  | .hdrBuild _ _ => some 0x04
  | .rleDecode => some 0x05
  | .rleEncode => some 0x06
  | .illegal w => some (opField w)
  | .rawPacket _ => none
  | .runPacket _ => none

/-- The encoding of an instruction: the words of R75 for the commands, `0nnnnnnn` and `1nnnnnnn` for the packet
kinds (R90, R91). -/
def encode : Instr → Encoded
  | .hdrParse => .command 0x00000001
  | .hdrSerialize => .command 0x00000002
  | .hdrCheck => .command 0x00000003
  | .hdrBuild rle vflip =>
    .command (0x00000004 ||| (if rle then 0x00000100 else 0) ||| (if vflip then 0x00000200 else 0))
  | .rleDecode => .command 0x00000005
  | .rleEncode => .command 0x00000006
  | .illegal w => .command w
  | .rawPacket n => .control (0#1 ++ n)
  | .runPacket n => .control (1#1 ++ n)

/-- The instruction the decoder reads from a table row's word: the packet rows have 8 bits, the command rows
32; no encoding is longer. -/
def decodeTableWord (nbits w : Nat) : Option Instr :=
  if nbits = 8 then some (decodeControl (BitVec.ofNat 8 w))
  else if nbits ≤ 32 then some (decodeCommand (BitVec.ofNat 32 w))
  else none

end Sys2Proof
end

