-- ==== Sys2Proof/Config.lean ====
section
/-! DEFINITION. What is fixed for the block (spec/00_scope.md R7), and the one free value of the model.
The OPEN parameters of R7 (`PBUF_BYTES`, `SINK_LIMIT`, the launch source and its terminal) are launch data:
they stand in `Machine.Params`, a part of the state that no step writes (log entry 1). -/

namespace Sys2Proof.Config

/-- FREE VALUE. The unconstrained draw of R94: the byte that pixel-buffer address `a` holds after draw number
`k` (a decode that failed, or a reset in the middle of a decode). It has no body, so nothing can be proved of
it; `k` is the state's `draws` counter, so that every draw is a fresh one (log entry 8). -/
opaque freeByte : (k a : Nat) → Byte

/-- "fixed 18-byte record" (R7, R71). -/
abbrev headerBytes : Nat := 18

/-- The most pixels one packet carries, and the encoder's longest run and longest raw packet (R7). -/
abbrev maxPacket : Nat := 128

end Sys2Proof.Config
end

