-- ==== Sys2Proof/Machine/HostTypes.lean ====
section
/-! DEFINITION. The host's side of the block as data: the register names of spec/10_state.md R18, the accesses a
host can make (R40, R44, R48), the host-script lines of spec/30_encoding.md R74, the reasons of the FAULT mark
(R35, R132, R133), and whose turn it is (R6, R132, R136). -/

namespace Sys2Proof.Machine

/-- The named registers of the register map (R18), in the order of their offsets. -/
inductive Reg where
  | cmd | status | cfgWidth | cfgHeight | cfgChannels | hdrInfo | pixCount | pktCount
  | inCountLo | inCountHi | outCountLo | outCountHi | pbufCapLo | pbufCapHi
  | hdrIdlen | hdrCmapType | hdrImgType | hdrCmapSpecLo | hdrCmapSpecHi | hdrXOrigin | hdrYOrigin
  | hdrWidth | hdrHeight | hdrBpp | hdrDesc
  deriving DecidableEq, Repr

/-- One access by a host. A register access carries its width in bits and its offset, so that the accesses R133
excludes can be made (and set FAULT). -/
inductive HostAction where
  /-- Read `width` bits at register offset `offset` (R18, R48). -/
  | regRead (width offset : Nat)
  /-- Write `v` as a `width`-bit access at register offset `offset` (R18, R48). -/
  | regWrite (width offset : Nat) (v : Word)
  /-- Read one byte of PBUF at address `a` (R40). -/
  | bufRead (a : Nat)
  /-- Write one byte of PBUF at address `a` (R40). -/
  | bufWrite (a : Nat) (v : Byte)
  /-- `HostTake(k)` (R44). -/
  | take (k : Nat)
  /-- `HostPut(s)` (R44). -/
  | put (s : List Byte)
  deriving DecidableEq, Repr

/-- What an access gives back to the host that made it. -/
inductive HostResult where
  | nothing
  | word (v : Word)
  | bytes (s : List Byte)
  deriving DecidableEq, Repr

/-- Why FAULT was set (R35, R132, R133). -/
inductive Hazard where
  /-- A read of a register other than STATUS while BUSY = 1 (R132). -/
  | busyRegRead
  /-- A write to any register, CMD included, while BUSY = 1 (R132, R19). -/
  | busyRegWrite
  /-- A PBUF access through the host buffer port while BUSY = 1 (R132, R40). -/
  | busyBuffer
  /-- `HostTake` while BUSY = 1 (R132, R44). -/
  | busyTake
  /-- `HostPut` while BUSY = 1 (R132, R44). -/
  | busyPut
  /-- An access by a second host while BUSY = 1 (R132, R124). -/
  | busySecondHost
  /-- A register access of a width other than 32 bits (R133, R48). -/
  | wrongWidth
  /-- A register access at an offset that is not a multiple of 4 (R133, R48). -/
  | misaligned
  /-- A register access at offset 0x100 or more (R133, R48). -/
  | outsideWindow
  /-- A host buffer access at `a >= PBUF_BYTES` (R133, R40). -/
  | outsideBuffer
  deriving DecidableEq, Repr

/-- One line of a host script (R74). A label is a number that names the line. `access` is a host access that no
named register expresses (another width or offset, R133); R74's lines need it never. -/
inductive ScriptLine where
  | wr (r : Reg) (v : Word)
  | rd (r : Reg)
  | pbw (addr : Nat) (bytes : List Byte)
  | pbr (addr n : Nat)
  | take (k : Nat)
  | put (bytes : List Byte)
  | bnz (mask : Word) (l : Nat)
  | jmp (l : Nat)
  | halt
  | label (l : Nat)
  | access (a : HostAction)
  deriving DecidableEq, Repr

/-- Who acts next: data that the environment chooses (R6; "The model interleaves host actions with engine
steps", R132; `Reset()` is "possible at any time", R127). -/
inductive Turn where
  /-- One engine step, if a command is in progress. -/
  | engine
  /-- One host action: the next line of the host script. -/
  | host
  /-- An access by a second host (R124), second to the host of the script whichever of them issued the command in
  progress (log entry 12). -/
  | otherHost (a : HostAction)
  /-- The platform's `Reset()` (R127). -/
  | reset
  deriving DecidableEq, Repr

end Sys2Proof.Machine
end

