-- ==== Sys2Proof/Machine/State.lean ====
section
/-! DEFINITION. The machine's state as plain data: the whole state of spec/10_state.md R12 (registers, HDR, PBUF,
ENG, `SRC_POS`, `SINK_OUT`, FAULT), the launch data that R7 leaves open, the host script of R74, and the model's
own two fields (`turns`, `draws`). Its reset values are those of spec/70_reset_and_hazards.md R127. -/

namespace Sys2Proof.Machine

/-- What the source answers once its byte list is used up (R42): `END` or `FAIL`. -/
inductive Terminal where
  /-- `END`: the source is exhausted. -/
  | exhausted
  /-- `FAIL`: the source has failed. -/
  | failed
  deriving DecidableEq, Repr

/-- The OPEN parameters of R7, given with the launch and never written by a step (log entry 1). -/
structure Params where
  /-- `PBUF_BYTES`, a natural number >= 1. -/
  pbufBytes : Nat
  /-- `SINK_LIMIT`; `none` is infinity. -/
  sinkLimit : Option Nat
  /-- The launch source's byte list. -/
  src : List Byte
  /-- The launch source's terminal. -/
  term : Terminal
  deriving DecidableEq, Repr

/-- The five colour-map bytes of a header record, `HDR.cmap[0..4]` (R29). -/
structure CMap where
  c0 : Byte
  c1 : Byte
  c2 : Byte
  c3 : Byte
  c4 : Byte
  deriving DecidableEq, Repr

/-- The header field register file `HDR`, each field at its declared width (R29). -/
structure Header where
  idlen : Byte
  cmaptype : Byte
  imgtype : Byte
  cmap : CMap
  xorg : BitVec 16
  yorg : BitVec 16
  width : BitVec 16
  height : BitVec 16
  bpp : Byte
  desc : Byte
  deriving DecidableEq, Repr

/-- Every HDR field 0, the reset value (R29, R127). -/
def Header.zero : Header :=
  ⟨0, 0, 0, ⟨0, 0, 0, 0, 0⟩, 0, 0, 0, 0, 0, 0⟩

/-- `ENG.op` (R31): `IDLE`, or the command in progress. A one-step command is `ready` until its step; RLE_DECODE
and RLE_ENCODE are `ready` until their setup step and then `decoding` or `encoding` until their end step
(R136; log entry 4). -/
inductive EngOp where
  | idle
  /-- Issued; its first engine step is still to come. -/
  | ready (i : Instr)
  /-- RLE_DECODE after its setup step. -/
  | decoding
  /-- RLE_ENCODE after its setup step. -/
  | encoding
  deriving DecidableEq, Repr

/-- The engine's internal state `ENG` (R31). -/
structure Eng where
  op : EngOp
  /-- The next pixel index of the running RLE command. -/
  pcur : Nat
  /-- The packet staging buffer: the payload bytes it holds, oldest first. -/
  stage : List Byte
  /-- The header staging buffer: the header bytes it holds, oldest first. -/
  hstage : List Byte
  deriving DecidableEq, Repr

/-- ENG after reset: idle, with empty buffers (R31, R127). -/
def Eng.reset : Eng := ⟨.idle, 0, [], []⟩

/-- A byte memory: the cells that hold something else than what an unlisted address reads as, addresses strictly
rising. -/
abbrev Memory := List Host.Cell

/-- The host script's own state (R74). -/
structure HostState where
  /-- The lines of the script. -/
  script : List ScriptLine
  /-- The index of the next line. -/
  pc : Nat
  /-- How many byte accesses of the current `PBW` or `PBR` line are done. -/
  sub : Nat
  /-- The script's `last`. -/
  last : Word
  /-- The bytes the latest `PBR` or `TAKE` line gave the host. -/
  got : List Byte
  deriving DecidableEq, Repr

/-- The host at launch: no script yet, `last = 0` (R74). -/
def HostState.launch : HostState := ⟨[], 0, 0, 0, []⟩

/-- The whole state. -/
structure State where
  /-- Launch data (R7). -/
  params : Params
  /-- STATUS, the whole word (R20). -/
  status : Word
  /-- CFG_WIDTH `W` (R14). -/
  cfgWidth : BitVec 16
  /-- CFG_HEIGHT `H` (R15). -/
  cfgHeight : BitVec 16
  /-- CFG_CHANNELS `C` (R16). -/
  cfgChannels : BitVec 3
  /-- HDRINFO, its used bits (R22). -/
  hdrInfo : BitVec 7
  /-- PIX_COUNT (R24). -/
  pixCount : BitVec 32
  /-- PKT_COUNT (R25). -/
  pktCount : BitVec 32
  /-- IN_COUNT (R26). -/
  inCount : BitVec 64
  /-- OUT_COUNT (R27). -/
  outCount : BitVec 64
  /-- HDR (R29). -/
  hdr : Header
  /-- PBUF (R36). -/
  pbuf : Memory
  /-- ENG (R31). -/
  eng : Eng
  /-- `SRC_POS` (R34). -/
  srcPos : Nat
  /-- `SINK_OUT` (R34). -/
  sinkOut : List Byte
  /-- FAULT (R35): `none` while clear, else the reason it was first set for. -/
  faultMark : Option Hazard
  /-- The host script (R74). -/
  host : HostState
  /-- The turns the environment has chosen, the next one first (log entry 3). -/
  turns : List Turn
  /-- How many free draws of PBUF contents have been made (the model's own counter, log entry 8). -/
  draws : Nat
  deriving DecidableEq, Repr

/-- The launch state for any parameters and any PBUF contents: every register and ENG as R127 resets them,
`SRC_POS = 0`, `SINK_OUT = []`, FAULT clear (R34, R127). -/
def State.launch (p : Params) (pbuf : Memory) : State where
  params := p
  status := 0
  cfgWidth := 0
  cfgHeight := 0
  cfgChannels := 0
  hdrInfo := 0
  pixCount := 0
  pktCount := 0
  inCount := 0
  outCount := 0
  hdr := Header.zero
  pbuf := pbuf
  eng := Eng.reset
  srcPos := 0
  sinkOut := []
  faultMark := none
  host := HostState.launch
  turns := []
  draws := 0

/-- The parameters of `State.reset`: DESIGN CHOICE, unsafe (R7 leaves them open; log entry 1). A buffer that holds
every image a configuration can name (R7), a sink that never fails, an empty source that is exhausted. -/
def Params.reset : Params where
  pbufBytes := 17179344900
  sinkLimit := none
  src := []
  term := .exhausted

/-- The machine right after reset at launch (R127). -/
def State.reset : State := State.launch Params.reset []

/-- Why the machine stops with a fault. The block itself has no such stop (spec/60_exceptions.md: an error is a
next state, R112, and a host hazard sets the state's FAULT mark, R35). -/
inductive Fault where
  /-- Raised by a `BNZ` that is taken or a `JMP` of a host script whose label names no line of the script: R74
  gives such a script no meaning. Safe: the model stops. -/
  | undefinedLabel (l : Nat)
  deriving DecidableEq, Repr

/-- Why the machine refuses an instruction. -/
inductive Refusal where
  /-- Raised by an arm of `exec` whose instruction has no meaning yet; no arm raises it. Safe: the model stops. -/
  | notModelled (mnemonic : String)
  deriving DecidableEq, Repr

end Sys2Proof.Machine
end

