-- ==== Sys2Proof/Machine/Flags.lean ====
section
/-! DEFINITION. The status words bit by bit: STATUS (spec/10_state.md R20), HDRINFO (R22), the error codes and
DETAIL bits (spec/60_exceptions.md R113, R114), and the DETAIL computations of the checks (R17, R82, R109). -/

namespace Sys2Proof.Machine

/-! ### STATUS (R20) -/

/-- BUSY, bit 0. -/
def Status.busy (w : Word) : Bool := w.getLsbD 0

/-- DONE, bit 1. -/
def Status.done (w : Word) : Bool := w.getLsbD 1

/-- ERR, bit 2. -/
def Status.err (w : Word) : Bool := w.getLsbD 2

/-- ERRCODE, bits [7:4]. -/
def Status.errCode (w : Word) : BitVec 4 := w.extractLsb' 4 4

/-- DETAIL, bits [15:8]. -/
def Status.detail (w : Word) : Byte := w.extractLsb' 8 8

/-- LASTOP, bits [23:16]. -/
def Status.lastOp (w : Word) : Byte := w.extractLsb' 16 8

/-- The STATUS word of given fields; bits 3 and [31:24] are reserved and 0 (R20). -/
def Status.pack (lastOp detail : Byte) (code : BitVec 4) (err done busy : Bool) : Word :=
  0#8 ++ lastOp ++ detail ++ code ++ 0#1 ++ BitVec.ofBool err ++ BitVec.ofBool done ++ BitVec.ofBool busy

/-- STATUS at the issue of a command with opcode byte `op`: `0x00000001 | (op << 16)` (R110). -/
def Status.issued (op : Byte) : Word := Status.pack op 0 0 false false true

/-- STATUS `w` after `complete()`: BUSY 0, DONE 1, ERR 0; ERRCODE and DETAIL stay 0 (R111). -/
def Status.completed (w : Word) : Word := Status.pack (Status.lastOp w) 0 0 false true false

/-- STATUS `w` after `raise E(d)` with code `c`: BUSY 0, DONE 1, ERR 1, ERRCODE and DETAIL set (R112). -/
def Status.raised (w : Word) (c : BitVec 4) (d : Byte) : Word :=
  Status.pack (Status.lastOp w) d c true true false

/-! ### The errors (R113, R114) -/

/-- The errors a command can raise (R113). -/
inductive ErrorKind where
  | sourceUnavailable
  | sinkUnavailable
  | headerError
  | unsupportedTypeCode
  | truncatedPayload
  | overrun
  | illegalCommand
  | badConfig
  deriving DecidableEq, Repr

/-- `code(E)`: the ERRCODE of an error (R113). -/
def ErrorKind.code : ErrorKind → BitVec 4
  | .sourceUnavailable => 1
  | .sinkUnavailable => 2
  | .headerError => 3
  | .unsupportedTypeCode => 4
  | .truncatedPayload => 5
  | .overrun => 6
  | .illegalCommand => 7
  | .badConfig => 8

/-! ### The DETAIL computations -/

/-- `cfg_detail` without the capacity bit, from `W`, `H`, `C` (R17, R86). -/
def sizeDetail (W H C : Nat) : Byte :=
  (if W = 0 then 0x01 else 0) ||| (if H = 0 then 0x02 else 0) |||
    (if C = 1 ∨ C = 3 ∨ C = 4 then 0 else 0x04)

/-- `cfg_detail` (R17): with the capacity bit, computed on naturals. -/
def configDetail (W H C capacity : Nat) : Byte :=
  sizeDetail W H C ||| (if W * H * C > capacity then 0x08 else 0)

/-- `bpp in {8, 24, 32}` (R82). -/
def legalBpp (bpp : Byte) : Bool := bpp == 8 || bpp == 24 || bpp == 32

/-- `imgtype in {2, 3, 10, 11}` (R82, R72). -/
def legalType (t : Byte) : Bool := t == 2 || t == 3 || t == 10 || t == 11

/-- The type codes whose payload is an RLE packet stream (R72). -/
def rleType (t : Byte) : Bool := t == 10 || t == 11

/-- `d` of HDR_CHECK: one bit for every check that fails (R82, R114). -/
def headerDetail (h : Header) : Byte :=
  (if h.width = 0 then 0x02 else 0) ||| (if h.height = 0 then 0x04 else 0) |||
    (if legalBpp h.bpp then 0 else 0x08) ||| (if legalType h.imgtype then 0 else 0x10)

/-- `d` of ILLEGAL: RESERVED_OPCODE, RESERVED_BITS, FLAGS_NOT_ALLOWED (R109, R114). -/
def illegalDetail (w : Word) : Byte :=
  (if definedOpcode (opField w) then 0 else 0x01) ||| (if reservedField w = 0 then 0 else 0x02) |||
    (if opField w ≠ 0x04 ∧ flagField w ≠ 0 then 0x04 else 0)

/-! ### HDRINFO (R22) -/

/-- VALID, bit 0. -/
def HdrInfo.valid (v : BitVec 7) : Bool := v.getLsbD 0

/-- RLE, bit 1. -/
def HdrInfo.rle (v : BitVec 7) : Bool := v.getLsbD 1

/-- VFLIP_NEEDED, bit 2. -/
def HdrInfo.vflipNeeded (v : BitVec 7) : Bool := v.getLsbD 2

/-- HFLIP_NEEDED, bit 3. -/
def HdrInfo.hflipNeeded (v : BitVec 7) : Bool := v.getLsbD 3

/-- CHANNELS, bits [6:4]. -/
def HdrInfo.channels (v : BitVec 7) : BitVec 3 := v.extractLsb' 4 3

/-- The HDRINFO value `commit_check()` writes for a header that passed every check (R83). -/
def HdrInfo.checked (h : Header) : BitVec 7 :=
  0x01 ||| (if rleType h.imgtype then 0x02 else 0) ||| (if h.desc.getLsbD 5 then 0 else 0x04) |||
    (if h.desc.getLsbD 4 then 0x08 else 0) ||| (BitVec.ofNat 7 (h.bpp.toNat / 8) <<< 4)

/-- The HDRINFO value HDR_BUILD writes (R86). -/
def HdrInfo.built (rle vflip : Bool) (C : Nat) : BitVec 7 :=
  0x01 ||| (if rle then 0x02 else 0) ||| (if vflip then 0x04 else 0) ||| (BitVec.ofNat 7 C <<< 4)

end Sys2Proof.Machine
end

