-- ==== Sys2Proof/Machine/Memory.lean ====
section
/-! DEFINITION. `MemRead` and `MemWrite` of spec/00_scope.md R9 over the pixel buffer (spec/20_memory.md R36,
R50): one byte, and sequences of bytes at rising addresses; and the canonical form of a memory. -/

namespace Sys2Proof.Machine

/-- What an address of PBUF that the memory does not list reads as: DESIGN CHOICE, unsafe (R127 leaves the
contents at power-on unspecified; log entry 2). -/
def Memory.unlisted : Byte := 0

/-- The canonical form of a memory: addresses strictly rising, and no cell equal to what an unlisted address
reads as. -/
abbrev Memory.wf (m : Memory) : Prop :=
  m.Pairwise (fun c d => c.1 < d.1) ∧ ∀ c ∈ m, c.2 ≠ Memory.unlisted

/-- The byte at address `a`. -/
def Memory.read : Memory → Nat → Byte
  | [], _ => Memory.unlisted
  | c :: m, a => if c.1 = a then c.2 else Memory.read m a

/-- The cell list of one byte `b` at address `a`: empty where an unlisted address reads as `b`. -/
def Memory.cell (a : Nat) (b : Byte) : Memory := if b = Memory.unlisted then [] else [(a, b)]

/-- Put byte `b` at address `a`, keeping the canonical form. -/
def Memory.write : Memory → Nat → Byte → Memory
  | [], a, b => Memory.cell a b
  | c :: m, a, b =>
    if c.1 < a then c :: Memory.write m a b
    else if c.1 = a then Memory.cell a b ++ m
    else Memory.cell a b ++ c :: m

/-- `MemRead(a, n)` (R9). -/
def Memory.readBytes (m : Memory) (a n : Nat) : List Byte :=
  (List.range n).map fun j => m.read (a + j)

/-- `MemWrite(a, len s, s)` (R9). -/
def Memory.writeBytes (m : Memory) (a : Nat) : List Byte → Memory
  | [] => m
  | b :: s => Memory.writeBytes (m.write a b) (a + 1) s

end Sys2Proof.Machine
end

