-- ==== Sys2Proof/Machine/Operands.lean ====
section
/-! DEFINITION. The operands of the commands: the configuration registers as numbers (spec/10_state.md R13 to
R17, spec/30_encoding.md R64), pixels of PBUF (spec/20_memory.md R37, R38), and the header record's bytes and
16-bit fields (R45, R71, spec/40_header_codec.md R77, R78). Registers are read at every engine step, which gives
the values at issue, since no register the engine reads can change while a command runs (R64; log entry 5). -/

namespace Sys2Proof.Machine

/-! ### The configuration (R13 to R17) -/

/-- `W` (R14). -/
def State.width (s : State) : Nat := s.cfgWidth.toNat

/-- `H` (R15). -/
def State.height (s : State) : Nat := s.cfgHeight.toNat

/-- `C` (R16). -/
def State.channels (s : State) : Nat := s.cfgChannels.toNat

/-- `N = W*H`, the pixel count of the configuration (R11, R36). -/
def State.pixels (s : State) : Nat := s.width * s.height

/-- `N*C`, the bytes of the configured image, at addresses `0 .. N*C-1` (R36). -/
def State.imageBytes (s : State) : Nat := s.pixels * s.channels

/-- `cfg_detail` (R17). -/
def State.cfgDetail (s : State) : Byte :=
  configDetail s.width s.height s.channels s.params.pbufBytes

/-- `cfg_detail & 0x07`, which HDR_BUILD tests (R86). -/
def State.buildDetail (s : State) : Byte := s.cfgDetail &&& 0x07

/-- BUSY (R20). -/
def State.busy (s : State) : Bool := Status.busy s.status

/-! ### Pixels (R37, R38) -/

/-- A pixel: its bytes in channel order B, G, R, A (R11, R37). -/
abbrev Pixel := List Byte

/-- `Px(i)` of a memory of `C`-byte pixels (R38). -/
def Memory.px (m : Memory) (C i : Nat) : Pixel := m.readBytes (i * C) C

/-- `Px(i)` of the current configuration (R38). -/
def State.px (s : State) (i : Nat) : Pixel := s.pbuf.px s.channels i

/-- The index of the pixel at column `x`, row `y` of an image `W` pixels wide (R37). -/
def pixelIndex (W x y : Nat) : Nat := x + y * W

/-! ### The header record (R45, R71, R77, R78) -/

/-- `le16(b0, b1) = b0 + 256*b1` (R8, R45). -/
def le16 (b0 b1 : Byte) : BitVec 16 := b1 ++ b0

/-- `le16bytes(v) = [v[7:0], v[15:8]]` (R8, R45). -/
def le16bytes (v : BitVec 16) : List Byte := [v.extractLsb' 0 8, v.extractLsb' 8 8]

/-- The byte at offset `o` of a record. -/
def byteAt (r : List Byte) (o : Nat) : Byte := r.getD o 0

/-- `fields(r)` for an 18-byte record `r` (R77). -/
def Header.fields (r : List Byte) : Header where
  idlen := byteAt r 0
  cmaptype := byteAt r 1
  imgtype := byteAt r 2
  cmap := ⟨byteAt r 3, byteAt r 4, byteAt r 5, byteAt r 6, byteAt r 7⟩
  xorg := le16 (byteAt r 8) (byteAt r 9)
  yorg := le16 (byteAt r 10) (byteAt r 11)
  width := le16 (byteAt r 12) (byteAt r 13)
  height := le16 (byteAt r 14) (byteAt r 15)
  bpp := byteAt r 16
  desc := byteAt r 17

/-- `bytes(h)` (R78). -/
def Header.bytes (h : Header) : List Byte :=
  [h.idlen, h.cmaptype, h.imgtype] ++ [h.cmap.c0, h.cmap.c1, h.cmap.c2, h.cmap.c3, h.cmap.c4] ++
    le16bytes h.xorg ++ le16bytes h.yorg ++ le16bytes h.width ++ le16bytes h.height ++ [h.bpp, h.desc]

/-- The image type code HDR_BUILD writes (R86). -/
def builtType (C : Nat) (rle : Bool) : Byte :=
  if C = 1 then (if rle then 11 else 3) else (if rle then 10 else 2)

/-- The descriptor HDR_BUILD writes: bottom-left or top-left origin (R86). -/
def builtDesc (vflip : Bool) : Byte := if vflip then 0x00 else 0x20

/-- The header HDR_BUILD constructs for a `W` by `H` image of `C` channels (R86). -/
def Header.built (rle vflip : Bool) (W H : BitVec 16) (C : Nat) : Header where
  idlen := 0
  cmaptype := 0
  imgtype := builtType C rle
  cmap := ⟨0, 0, 0, 0, 0⟩
  xorg := 0
  yorg := 0
  width := W
  height := H
  bpp := BitVec.ofNat 8 (8 * C)
  desc := builtDesc vflip

end Sys2Proof.Machine
end

