-- ==== Sys2Proof/Machine/Ops.lean ====
section
/-! DEFINITION. The shared operations the meanings are made of: the source and the sink (spec/20_memory.md R42,
R43), command issue, `complete()` and `raise` (spec/60_exceptions.md R110 to R112), the staging buffers
(spec/10_state.md R31), the free draw of PBUF contents (spec/41_rle_decode.md R94), reset
(spec/70_reset_and_hazards.md R127, R128) and the FAULT mark (R35). -/

namespace Sys2Proof.Machine

/-- What every meaning answers. -/
abbrev Result := Host.Outcome State Fault Refusal

/-! ### The source (R42) -/

/-- What `SrcRead()` gives: a byte, or the terminal. -/
inductive SrcItem where
  | byte (b : Byte)
  | ended (t : Terminal)
  deriving DecidableEq, Repr

/-- `SrcRead()` (R42). -/
def srcRead (s : State) : SrcItem × State :=
  match s.params.src[s.srcPos]? with
  | some b => (.byte b, { s with srcPos := s.srcPos + 1, inCount := s.inCount + 1 })
  | none => (.ended s.params.term, s)

/-- The bytes the source still holds. -/
def State.remaining (s : State) : List Byte := s.params.src.drop s.srcPos

/-- The two staging buffers of ENG (R31). -/
inductive StageBuffer where
  /-- `ENG.stage`, a packet's payload. -/
  | packet
  /-- `ENG.hstage`, a header record. -/
  | header
  deriving DecidableEq, Repr

/-- Append bytes to a staging buffer. -/
def Eng.push (e : Eng) (buf : StageBuffer) (bs : List Byte) : Eng :=
  match buf with
  | .packet => { e with stage := e.stage ++ bs }
  | .header => { e with hstage := e.hstage ++ bs }

/-- Empty both staging buffers (R31; log entry 6). -/
def Eng.unstage (e : Eng) : Eng := { e with stage := [], hstage := [] }

/-- Read `k` source bytes into a staging buffer, stopping at the first `END` or `FAIL`, which it answers
(the byte loops of R80 and R89). -/
def stageRead (buf : StageBuffer) : Nat → State → Option Terminal × State
  | 0, s => (none, s)
  | k + 1, s =>
    match srcRead s with
    | (.byte b, s1) => stageRead buf k { s1 with eng := s1.eng.push buf [b] }
    | (.ended t, s1) => (some t, s1)

/-! ### The sink (R43) -/

/-- Whether the sink accepts one more byte: `len(SINK_OUT) < SINK_LIMIT` (R43). -/
def State.sinkOpen (s : State) : Bool :=
  match s.params.sinkLimit with
  | none => true
  | some limit => s.sinkOut.length < limit

/-- `SinkWrite(b)`: whether it answered `OK`, and the state after it (R43). -/
def sinkWrite (b : Byte) (s : State) : Bool × State :=
  if s.sinkOpen then (true, { s with sinkOut := s.sinkOut ++ [b], outCount := s.outCount + 1 }) else (false, s)

/-- `SinkWrite` of each byte in order, stopping at the first `FAIL` (the byte loops of R81 and R101). -/
def sinkWriteAll : List Byte → State → Bool × State
  | [], s => (true, s)
  | b :: bs, s =>
    match sinkWrite b s with
    | (true, s1) => sinkWriteAll bs s1
    | (false, s1) => (false, s1)

/-- How many of `k` bytes the sink accepts (R43, R44). -/
def State.sinkRoom (s : State) (k : Nat) : Nat :=
  match s.params.sinkLimit with
  | none => k
  | some limit => min k (limit - s.sinkOut.length)

/-! ### Issue and end of a command (R110 to R112) -/

/-- Command issue: the host writes the word `w` to CMD while BUSY = 0 (R110). It clears DONE, ERR, ERRCODE, DETAIL
and the counters, which is all the return from an error there is (R118). -/
def issue (w : Word) (s : State) : State :=
  { s with
    status := Status.issued (opField w)
    pixCount := 0
    pktCount := 0
    inCount := 0
    outCount := 0
    eng := { s.eng with op := .ready (decodeCommand w) } }

/-- `complete()`: the successful end of a command (R111). -/
def complete (s : State) : State :=
  { s with status := Status.completed s.status, eng := { s.eng with op := .idle } }

/-- `raise E(d)`: the failing end of a command, the block's only exception entry (R112, R117). -/
def raise (e : ErrorKind) (d : Byte) (s : State) : State :=
  { s with status := Status.raised s.status e.code d, eng := { s.eng with op := .idle } }

/-- The error of a source that has ended where a byte is needed: `SOURCE_UNAVAILABLE(0x00)` at `FAIL`, and at
`END` the error the reading command names (R80, R89). -/
def sourceError (t : Terminal) (atEnd : ErrorKind) (d : Byte) : ErrorKind × Byte :=
  match t with
  | .exhausted => (atEnd, d)
  | .failed => (.sourceUnavailable, 0x00)

/-! ### Unspecified buffer contents (R94) -/

/-- Draw the image area `0 .. N*C-1` of PBUF anew: every byte of it is a free value afterwards, every other byte
keeps its value (R94; log entry 8). -/
def drawImage (s : State) : State :=
  { s with
    pbuf := s.pbuf.writeBytes 0 ((List.range s.imageBytes).map (Config.freeByte s.draws))
    draws := s.draws + 1 }

/-! ### Reset and the FAULT mark -/

/-- What a reset does to PBUF: nothing (R127), but that the image area of a decode it abandons after the setup
step is unspecified (R128; spec/93_implementation_defined.md; log entry 9). -/
def abandonDecode (s : State) : State :=
  match s.eng.op with
  | .decoding => drawImage s
  | .idle => s
  | .ready _ => s
  | .encoding => s

/-- `Reset()` (R127, R128): registers, HDR and ENG take their reset values; the source, the sink and FAULT keep theirs.
DESIGN CHOICE (log entry 20): R127 and R74 do not say what becomes of the host script; it stays where it was. -/
def resetBlock (s : State) : State :=
  { abandonDecode s with
    status := 0
    cfgWidth := 0
    cfgHeight := 0
    cfgChannels := 0
    hdrInfo := 0
    pixCount := 0
    pktCount := 0
    inCount := 0
    outCount := 0
    hdr := Header.zero
    eng := Eng.reset }

/-- Set FAULT for a reason; once set it is never cleared, and it keeps its first reason (R35; log entry 7). -/
def setFault (h : Hazard) (s : State) : State :=
  { s with faultMark := s.faultMark.or (some h) }

end Sys2Proof.Machine
end

