-- ==== Sys2Proof/Machine/HeaderCodec.lean ====
section
/-! DEFINITION. The header codec commands of spec/40_header_codec.md: HDR_PARSE (R80), HDR_SERIALIZE (R81),
HDR_CHECK (R82, R83) and HDR_BUILD (R86). Each is the one engine step the command takes after its issue (R136). -/

namespace Sys2Proof.Machine

/-- HDR_PARSE (R80): stage 18 source bytes, then write all ten fields of HDR at once and clear HDRINFO. An `END` or
`FAIL` before the 18th byte leaves HDR and HDRINFO unchanged. -/
def execHdrParse (s : State) : Result :=
  match stageRead .header Config.headerBytes { s with eng := s.eng.unstage } with
  | (none, s1) =>
    .next (complete { s1 with hdr := Header.fields s1.eng.hstage, hdrInfo := 0, eng := s1.eng.unstage })
  | (some t, s1) =>
    let e := sourceError t .headerError 0x01
    .next (raise e.1 e.2 { s1 with eng := s1.eng.unstage })

/-- HDR_SERIALIZE (R81): write the 18 bytes of HDR to the sink. -/
def execHdrSerialize (s : State) : Result :=
  match sinkWriteAll s.hdr.bytes s with
  | (true, s1) => .next (complete s1)
  | (false, s1) => .next (raise .sinkUnavailable 0x00 s1)

/-- `commit_check()` (R83). -/
def commitCheck (s : State) : State :=
  { s with
    cfgWidth := s.hdr.width
    cfgHeight := s.hdr.height
    cfgChannels := BitVec.ofNat 3 (s.hdr.bpp.toNat / 8)
    hdrInfo := HdrInfo.checked s.hdr }

/-- HDR_CHECK (R82). -/
def execHdrCheck (s : State) : Result :=
  let d := headerDetail s.hdr
  if d &&& 0x0E ≠ 0 then .next (raise .headerError d { s with hdrInfo := 0 })
  else if d &&& 0x10 ≠ 0 then .next (raise .unsupportedTypeCode d { s with hdrInfo := 0 })
  else .next (complete (commitCheck s))

/-- HDR_BUILD (R86). -/
def execHdrBuild (rle vflip : Bool) (s : State) : Result :=
  let d := s.buildDetail
  if d ≠ 0 then .next (raise .badConfig d s)
  else
    .next (complete { s with
      hdr := Header.built rle vflip s.cfgWidth s.cfgHeight s.channels
      hdrInfo := HdrInfo.built rle vflip s.channels })

end Sys2Proof.Machine
end

