-- ==== Sys2Proof/Machine/IllegalCommand.lean ====
section
/-! DEFINITION. The reserved command words of spec/43_illegal_command.md (R109). -/

namespace Sys2Proof.Machine

/-- ILLEGAL (R109): `ILLEGAL_COMMAND` always, with the DETAIL of the word. -/
def execIllegal (w : Word) (s : State) : Result :=
  .next (raise .illegalCommand (illegalDetail w) s)

end Sys2Proof.Machine
end

