-- ==== Sys2Proof/Machine/RleDecode.lean ====
section
/-! DEFINITION. The RLE decoder of spec/41_rle_decode.md: the packet step shared by both packet kinds (R89), the
two kinds (R90, R91), and the command RLE_DECODE (R88), which takes a setup step, one step per packet and an end
step (R136). -/

namespace Sys2Proof.Machine

/-- A decode that fails: `raise`, with the image area of PBUF unspecified from then on (R89, R94, R112). -/
def failDecode (e : ErrorKind) (d : Byte) (s : State) : State :=
  raise e d (drawImage { s with eng := s.eng.unstage })

/-- The commit of a packet of `n` pixels whose decoded bytes are `bytes` (the last part of R89). -/
def commitPacket (n : Nat) (bytes : List Byte) (s : State) : State :=
  { s with
    pbuf := s.pbuf.writeBytes (s.eng.pcur * s.channels) bytes
    eng := { s.eng.unstage with pcur := s.eng.pcur + n }
    pixCount := BitVec.ofNat 32 (s.eng.pcur + n)
    pktCount := s.pktCount + 1 }

/-- `decode_packet()` after its control byte (R89): the overrun check (R92), the payload of `m` bytes into the
staging buffer, and the commit of what `expand` makes of the staged bytes. -/
def packetStep (n m : Nat) (expand : List Byte → List Byte) (s : State) : Result :=
  if s.pixels < s.eng.pcur + n then .next (failDecode .overrun 0x00 s)
  else
    match stageRead .packet m { s with eng := s.eng.unstage } with
    | (none, s1) => .next (commitPacket n (expand s1.eng.stage) s1)
    | (some t, s1) =>
      let e := sourceError t .truncatedPayload 0x02
      .next (failDecode e.1 e.2 s1)

/-- `repeat(s, n)`: `s` concatenated `n` times (R89). -/
def repeatBytes (s : List Byte) (n : Nat) : List Byte := (List.replicate n s).flatten

/-- RAW_PACKET (R90): `n + 1` literal pixels. -/
def execRawPacket (n : BitVec 7) (s : State) : Result :=
  packetStep (pixelCount n) (payloadLength .raw n s.channels) id s

/-- RUN_PACKET (R91): one pixel, `n + 1` times. -/
def execRunPacket (n : BitVec 7) (s : State) : Result :=
  packetStep (pixelCount n) (payloadLength .run n s.channels) (repeatBytes · (pixelCount n)) s

/-- `decode_packet()` (R89): take the control byte and run the packet it begins. -/
def decodePacket (s : State) : Result :=
  match srcRead s with
  | (.byte c, s1) =>
    match controlKind c with
    | .raw => execRawPacket (controlCount c) s1
    | .run => execRunPacket (controlCount c) s1
  | (.ended t, s1) =>
    let e := sourceError t .truncatedPayload 0x01
    .next (failDecode e.1 e.2 s1)

/-- The setup step of RLE_DECODE and RLE_ENCODE: the configuration check, then `ENG.pcur <- 0` (R88, R100, R17). -/
def rleSetup (op : EngOp) (s : State) : Result :=
  let d := s.cfgDetail
  if d ≠ 0 then .next (raise .badConfig d s)
  else .next { s with eng := { s.eng with op := op, pcur := 0 } }

/-- One engine step of RLE_DECODE (R88, R136): the setup step, or, once decoding, a packet step while pixels are
missing and the end step when none is. -/
def execRleDecode (s : State) : Result :=
  match s.eng.op with
  | .decoding => if s.eng.pcur < s.pixels then decodePacket s else .next (complete s)
  | .idle => rleSetup .decoding s
  | .ready _ => rleSetup .decoding s
  | .encoding => rleSetup .decoding s

end Sys2Proof.Machine
end

