-- ==== Sys2Proof/Machine/RleEncode.lean ====
section
/-! DEFINITION. The RLE encoder of spec/42_rle_encode.md: run detection (R102 to R105), the packet step (R101), and
the command RLE_ENCODE (R100), which takes a setup step, one step per packet and an end step (R136). Run detection
is written over any pixel sequence `px`, so that the machine and the function `enc` of R106 share it. -/

namespace Sys2Proof.Machine

/-- The loop of `runlen(p)` at run length `L` with `k` turns left at most (R103). -/
def runFrom (px : Nat → Pixel) (N p : Nat) : (k L : Nat) → Nat
  | 0, L => L
  | k + 1, L => if p + L < N ∧ px (p + L) = px p then runFrom px N p k (L + 1) else L

/-- `runlen(p)` (R103): the run closes at 128 pixels, at the sequence's end, or at a pixel that differs. -/
def runLength (px : Nat → Pixel) (N p : Nat) : Nat := runFrom px N p (Config.maxPacket - 2) 2

/-- The loop of `rawlen(p)` at raw length `k` with `j` turns left at most (R104). -/
def rawFrom (px : Nat → Pixel) (N p : Nat) : (j k : Nat) → Nat
  | 0, k => k
  | j + 1, k =>
    if p + k < N then
      if p + k + 1 < N ∧ px (p + k) = px (p + k + 1) then k else rawFrom px N p j (k + 1)
    else k

/-- `rawlen(p)` (R104): the raw packet closes before a pixel that begins a duplicate pair, at 128 literals, or at
the end. -/
def rawLength (px : Nat → Pixel) (N p : Nat) : Nat := rawFrom px N p (Config.maxPacket - 1) 1

/-- Whether a run packet starts at pixel `p` (R102). -/
def startsRun (px : Nat → Pixel) (N p : Nat) : Bool := p + 1 < N && px p == px (p + 1)

/-- The pixels `p .. p+k-1`, concatenated. -/
def pixelRange (px : Nat → Pixel) (p k : Nat) : List Byte := ((List.range k).map fun j => px (p + j)).flatten

/-- The packet the encoder chooses at pixel `p`: its pixel count and its bytes (R101, R69). -/
def choosePacket (px : Nat → Pixel) (N p : Nat) : Nat × List Byte :=
  if startsRun px N p then
    (runLength px N p, BitVec.ofNat 8 (runLength px N p + 127) :: px p)
  else
    (rawLength px N p, BitVec.ofNat 8 (rawLength px N p - 1) :: pixelRange px p (rawLength px N p))

/-- `encode_packet()` (R101): write the packet chosen at `ENG.pcur` and advance. -/
def encodePacket (s : State) : Result :=
  let pkt := choosePacket s.px s.pixels s.eng.pcur
  match sinkWriteAll pkt.2 s with
  | (true, s1) =>
    .next { s1 with
      eng := { s1.eng with pcur := s.eng.pcur + pkt.1 }
      pixCount := BitVec.ofNat 32 (s.eng.pcur + pkt.1)
      pktCount := s1.pktCount + 1 }
  | (false, s1) => .next (raise .sinkUnavailable 0x00 s1)

/-- One engine step of RLE_ENCODE (R100, R136): the setup step, or, once encoding, a packet step while pixels are
left and the end step when none is. -/
def execRleEncode (s : State) : Result :=
  match s.eng.op with
  | .encoding => if s.eng.pcur < s.pixels then encodePacket s else .next (complete s)
  | .idle => rleSetup .encoding s
  | .ready _ => rleSetup .encoding s
  | .decoding => rleSetup .encoding s

end Sys2Proof.Machine
end

