-- ==== Sys2Proof/Machine/Dispatch.lean ====
section
/-! DEFINITION. The one dispatch from an instruction to its meaning: one arm per constructor of Instr. -/

namespace Sys2Proof.Machine

/-- The meaning of an instruction: one engine step of a command in progress, or, for a packet kind, the packet's
engine step once its control byte is taken (spec/00_scope.md R6, R136; log entry 14). -/
def exec (i : Instr) (s : State) : Host.Outcome State Fault Refusal :=
  match i with
  | .hdrParse => Sys2Proof.Machine.execHdrParse s
  | .hdrSerialize => Sys2Proof.Machine.execHdrSerialize s
  | .hdrCheck => Sys2Proof.Machine.execHdrCheck s
  | .hdrBuild rle vflip => Sys2Proof.Machine.execHdrBuild rle vflip s
  | .rleDecode => Sys2Proof.Machine.execRleDecode s
  | .rleEncode => Sys2Proof.Machine.execRleEncode s
  | .illegal w => Sys2Proof.Machine.execIllegal w s
  | .rawPacket n => Sys2Proof.Machine.execRawPacket n s
  | .runPacket n => Sys2Proof.Machine.execRunPacket n s

end Sys2Proof.Machine
end

