-- ==== Sys2Proof/Machine/HostPort.lean ====
section
/-! DEFINITION. The host's accesses: the register port (spec/10_state.md R18, spec/20_memory.md R48), the buffer
port (R40), the source and the sink in the host's hands (R44), and the hazards that set FAULT instead
(spec/70_reset_and_hazards.md R132, R133). -/

namespace Sys2Proof.Machine

/-! ### The register map (R18) -/

/-- The offset of a register (R18). -/
def Reg.offset : Reg → Nat
  | .cmd => 0x00
  | .status => 0x04
  | .cfgWidth => 0x08
  | .cfgHeight => 0x0C
  | .cfgChannels => 0x10
  | .hdrInfo => 0x14
  | .pixCount => 0x18
  | .pktCount => 0x1C
  | .inCountLo => 0x20
  | .inCountHi => 0x24
  | .outCountLo => 0x28
  | .outCountHi => 0x2C
  | .pbufCapLo => 0x30
  | .pbufCapHi => 0x34
  | .hdrIdlen => 0x40
  | .hdrCmapType => 0x44
  | .hdrImgType => 0x48
  | .hdrCmapSpecLo => 0x4C
  | .hdrCmapSpecHi => 0x50
  | .hdrXOrigin => 0x54
  | .hdrYOrigin => 0x58
  | .hdrWidth => 0x5C
  | .hdrHeight => 0x60
  | .hdrBpp => 0x64
  | .hdrDesc => 0x68

/-- The registers of the map (R18). -/
def Reg.all : List Reg :=
  [.cmd, .status, .cfgWidth, .cfgHeight, .cfgChannels, .hdrInfo, .pixCount, .pktCount, .inCountLo, .inCountHi,
    .outCountLo, .outCountHi, .pbufCapLo, .pbufCapHi, .hdrIdlen, .hdrCmapType, .hdrImgType, .hdrCmapSpecLo,
    .hdrCmapSpecHi, .hdrXOrigin, .hdrYOrigin, .hdrWidth, .hdrHeight, .hdrBpp, .hdrDesc]

/-- The register at an offset; the reserved offsets have none (R18). -/
def Reg.at (offset : Nat) : Option Reg := Reg.all.find? fun r => r.offset == offset

/-- `PBUF_CAP`: `PBUF_BYTES`, saturated at `2^64 - 1` (R28). -/
def State.pbufCap (s : State) : BitVec 64 := BitVec.ofNat 64 (min s.params.pbufBytes (2 ^ 64 - 1))

/-- The word a read of a register gives (R14 to R30); CMD reads 0 (R18). -/
def readReg (r : Reg) (s : State) : Word :=
  match r with
  | .cmd => 0
  | .status => s.status
  | .cfgWidth => s.cfgWidth.setWidth 32
  | .cfgHeight => s.cfgHeight.setWidth 32
  | .cfgChannels => s.cfgChannels.setWidth 32
  | .hdrInfo => s.hdrInfo.setWidth 32
  | .pixCount => s.pixCount
  | .pktCount => s.pktCount
  | .inCountLo => s.inCount.extractLsb' 0 32
  | .inCountHi => s.inCount.extractLsb' 32 32
  | .outCountLo => s.outCount.extractLsb' 0 32
  | .outCountHi => s.outCount.extractLsb' 32 32
  | .pbufCapLo => s.pbufCap.extractLsb' 0 32
  | .pbufCapHi => s.pbufCap.extractLsb' 32 32
  | .hdrIdlen => s.hdr.idlen.setWidth 32
  | .hdrCmapType => s.hdr.cmaptype.setWidth 32
  | .hdrImgType => s.hdr.imgtype.setWidth 32
  | .hdrCmapSpecLo => s.hdr.cmap.c3 ++ s.hdr.cmap.c2 ++ s.hdr.cmap.c1 ++ s.hdr.cmap.c0
  | .hdrCmapSpecHi => s.hdr.cmap.c4.setWidth 32
  | .hdrXOrigin => s.hdr.xorg.setWidth 32
  | .hdrYOrigin => s.hdr.yorg.setWidth 32
  | .hdrWidth => s.hdr.width.setWidth 32
  | .hdrHeight => s.hdr.height.setWidth 32
  | .hdrBpp => s.hdr.bpp.setWidth 32
  | .hdrDesc => s.hdr.desc.setWidth 32

/-- A host write to an HDR_* register: the field takes its value, and HDRINFO is cleared (R23, R29). -/
def setHdr (h : Header) (s : State) : State := { s with hdr := h, hdrInfo := 0 }

/-- A write of a word to a register while BUSY = 0: CMD issues a command (R19), a read-only register ignores it,
a read-write register stores its used bits (R18). -/
def writeReg (r : Reg) (v : Word) (s : State) : State :=
  match r with
  | .cmd => issue v s
  | .status => s
  | .cfgWidth => { s with cfgWidth := v.setWidth 16 }
  | .cfgHeight => { s with cfgHeight := v.setWidth 16 }
  | .cfgChannels => { s with cfgChannels := v.setWidth 3 }
  | .hdrInfo => s
  | .pixCount => s
  | .pktCount => s
  | .inCountLo => s
  | .inCountHi => s
  | .outCountLo => s
  | .outCountHi => s
  | .pbufCapLo => s
  | .pbufCapHi => s
  | .hdrIdlen => setHdr { s.hdr with idlen := v.setWidth 8 } s
  | .hdrCmapType => setHdr { s.hdr with cmaptype := v.setWidth 8 } s
  | .hdrImgType => setHdr { s.hdr with imgtype := v.setWidth 8 } s
  | .hdrCmapSpecLo =>
    setHdr { s.hdr with
      cmap := ⟨v.extractLsb' 0 8, v.extractLsb' 8 8, v.extractLsb' 16 8, v.extractLsb' 24 8, s.hdr.cmap.c4⟩ } s
  | .hdrCmapSpecHi => setHdr { s.hdr with cmap := { s.hdr.cmap with c4 := v.setWidth 8 } } s
  | .hdrXOrigin => setHdr { s.hdr with xorg := v.setWidth 16 } s
  | .hdrYOrigin => setHdr { s.hdr with yorg := v.setWidth 16 } s
  | .hdrWidth => setHdr { s.hdr with width := v.setWidth 16 } s
  | .hdrHeight => setHdr { s.hdr with height := v.setWidth 16 } s
  | .hdrBpp => setHdr { s.hdr with bpp := v.setWidth 8 } s
  | .hdrDesc => setHdr { s.hdr with desc := v.setWidth 8 } s

/-- A read at an offset of the window: a reserved offset reads 0 (R18, R133). -/
def readOffset (offset : Nat) (s : State) : Word :=
  match Reg.at offset with
  | some r => readReg r s
  | none => 0

/-- A write at an offset of the window: a reserved offset ignores it (R18, R133). -/
def writeOffset (offset : Nat) (v : Word) (s : State) : State :=
  match Reg.at offset with
  | some r => writeReg r v s
  | none => s

/-! ### Hazards (R132, R133) -/

/-- The access hazard of a register access (R133, R48). DESIGN CHOICE (log entry 7): R133 gives no order among its
conditions, and an access that meets several of them is recorded under the width, else under the alignment, else
under the window. -/
def portHazard (width offset : Nat) : Option Hazard :=
  if width ≠ 32 then some .wrongWidth
  else if offset % 4 ≠ 0 then some .misaligned
  else if 0x100 ≤ offset then some .outsideWindow
  else none

/-- The access hazard, "busy or not" (R133). -/
def accessHazard (a : HostAction) (s : State) : Option Hazard :=
  match a with
  | .regRead width offset => portHazard width offset
  | .regWrite width offset _ => portHazard width offset
  | .bufRead a => if a < s.params.pbufBytes then none else some .outsideBuffer
  | .bufWrite a _ => if a < s.params.pbufBytes then none else some .outsideBuffer
  | .take _ => none
  | .put _ => none

/-- The busy hazard of an access made while BUSY = 1: everything but a read of STATUS (R132). -/
def busyHazard (a : HostAction) : Option Hazard :=
  match a with
  | .regRead _ offset => if offset = Reg.offset .status then none else some .busyRegRead
  | .regWrite _ _ _ => some .busyRegWrite
  | .bufRead _ => some .busyBuffer
  | .bufWrite _ _ => some .busyBuffer
  | .take _ => some .busyTake
  | .put _ => some .busyPut

/-- The hazard of an access by the first host, if any (R132, R133). DESIGN CHOICE (log entry 7): R35 gives no order
among reasons, and an access that is both hazards is recorded under the access hazard. -/
def hazardOf (a : HostAction) (s : State) : Option Hazard :=
  match accessHazard a s with
  | some h => some h
  | none => if s.busy then busyHazard a else none

/-! ### Accesses -/

/-- `HostTake(k)` (R44): the bytes taken, and the state after it. -/
def hostTake (k : Nat) (s : State) : List Byte × State :=
  (s.remaining.take k, { s with srcPos := s.srcPos + (s.remaining.take k).length })

/-- `HostPut(bs)` (R44): each byte subject to `SINK_LIMIT`; the bytes beyond it are dropped (log entry 19). -/
def hostPut (bs : List Byte) (s : State) : State :=
  { s with sinkOut := s.sinkOut ++ bs.take (s.sinkRoom bs.length) }

/-- An access that is no hazard. -/
def access (a : HostAction) (s : State) : HostResult × State :=
  match a with
  | .regRead _ offset => (.word (readOffset offset s), s)
  | .regWrite _ offset v => (.nothing, writeOffset offset v s)
  | .bufRead a => (.bytes [s.pbuf.read a], s)
  | .bufWrite a v => (.nothing, { s with pbuf := s.pbuf.write a v })
  | .take k => (.bytes (hostTake k s).1, (hostTake k s).2)
  | .put bs => (.nothing, hostPut bs s)

/-- One host action: a hazard sets FAULT and has no other effect (R132, R133); any other access has its effect. -/
def hostAccess (a : HostAction) (s : State) : HostResult × State :=
  match hazardOf a s with
  | some h => (.nothing, setFault h s)
  | none => access a s

/-- An access by a second host: a hazard while BUSY = 1 whatever it is (R132), otherwise an access like the first
host's, since the hosts are serialized outside the block (R124, R121; log entry 12). DESIGN CHOICE (log entry 7): R35
and R132 give no order among reasons, and a second host's access while BUSY = 1 that is an access hazard too (R133)
is recorded as `busySecondHost`. DESIGN CHOICE (log entry 12): R124 and R132 do not say which of two hosts is the second
while a command runs; it is always this one, never the host of the script, whichever of them issued the command. -/
def otherHostAccess (a : HostAction) (s : State) : State :=
  if s.busy then setFault .busySecondHost s else (hostAccess a s).2

end Sys2Proof.Machine
end

