-- ==== Sys2Proof/Machine/Script.lean ====
section
/-! DEFINITION. The host script of spec/30_encoding.md R74 and R75: one host turn runs one host action, or one of
the script's own control-flow lines. -/

namespace Sys2Proof.Machine

/-- The script is at its next line, with no byte of it done. -/
def HostState.advance (h : HostState) : HostState := { h with pc := h.pc + 1, sub := 0 }

/-- The index of the line that label `l` names (R74). -/
def findLabel (script : List ScriptLine) (l : Nat) : Option Nat :=
  script.findIdx? (· == .label l)

/-- `continue at label` (R74). -/
def jumpTo (l : Nat) (s : State) : Result :=
  match findLabel s.host.script l with
  | some k => .next { s with host := { s.host with pc := k, sub := 0 } }
  | none => .fault (.undefinedLabel l)

/-- What an access gave the script: a register's value is its `last` (R74), bytes are those the line has obtained so
far (`first`: the access is the line's first). -/
def HostState.receive (h : HostState) (r : HostResult) (first : Bool) : HostState :=
  match r with
  | .nothing => h
  | .word v => { h with last := v }
  | .bytes bs => { h with got := (if first then [] else h.got) ++ bs }

/-- A line that is one host action. -/
def runAction (a : HostAction) (s : State) : Result :=
  let r := hostAccess a s
  .next { r.2 with host := (s.host.receive r.1 true).advance }

/-- A line of `n` byte accesses, the next of which is `a`: one of them a turn (R74). -/
def runByte (a : HostAction) (n : Nat) (s : State) : Result :=
  let r := hostAccess a s
  let h := s.host.receive r.1 (s.host.sub == 0)
  .next { r.2 with host := if s.host.sub + 1 < n then { h with sub := h.sub + 1 } else h.advance }

/-- A line that has no effect but to move on. -/
def skipLine (s : State) : Result := .next { s with host := s.host.advance }

/-- One turn of the script at a line (R74). -/
def runLine (line : ScriptLine) (s : State) : Result :=
  match line with
  | .wr r v => runAction (.regWrite 32 r.offset v) s
  | .rd r => runAction (.regRead 32 r.offset) s
  | .pbw addr bytes =>
    match bytes[s.host.sub]? with
    | some b => runByte (.bufWrite (addr + s.host.sub) b) bytes.length s
    | none => skipLine s
  | .pbr addr n => if s.host.sub < n then runByte (.bufRead (addr + s.host.sub)) n s else skipLine s
  | .take k => runAction (.take k) s
  | .put bytes => runAction (.put bytes) s
  | .bnz mask l => if s.host.last &&& mask ≠ 0 then jumpTo l s else skipLine s
  | .jmp l => jumpTo l s
  | .halt => .next s
  | .label _ => skipLine s
  | .access a => runAction a s

/-- A host turn: the line at the script's position; a script that has ended does nothing (R74). -/
def hostStep (s : State) : Result :=
  match s.host.script[s.host.pc]? with
  | some line => runLine line s
  | none => .next s

/-- Whether the script has ended (R74): at `HALT`, or after its last line. -/
def State.scriptEnded (s : State) : Bool :=
  match s.host.script[s.host.pc]? with
  | some line => line == .halt
  | none => true

/-! ### Well-formed scripts, and the pseudo-instructions (R75) -/

/-- The labels a line jumps to. -/
def ScriptLine.targets : ScriptLine → List Nat
  | .bnz _ l => [l]
  | .jmp l => [l]
  | .wr _ _ => []
  | .rd _ => []
  | .pbw _ _ => []
  | .pbr _ _ => []
  | .take _ => []
  | .put _ => []
  | .halt => []
  | .label _ => []
  | .access _ => []

/-- The labels of a script. -/
def scriptLabels (script : List ScriptLine) : List Nat :=
  script.filterMap fun line => match line with
    | .label l => some l
    | .bnz _ _ => none
    | .jmp _ => none
    | .wr _ _ => none
    | .rd _ => none
    | .pbw _ _ => none
    | .pbr _ _ => none
    | .take _ => none
    | .put _ => none
    | .halt => none
    | .access _ => none

/-- A script whose labels are all different and whose jumps all name one. -/
def scriptWf (script : List ScriptLine) : Bool :=
  (scriptLabels script).Nodup && script.all fun line => line.targets.all ((scriptLabels script).contains ·)

/-- The pseudo-instruction of a command: the write of its word to CMD (R75). -/
def Script.command (w : Word) : List ScriptLine := [.wr .cmd w]

/-- `WAITIDLE`, with `l` as its fresh label (R75). -/
def Script.waitIdle (l : Nat) : List ScriptLine := [.label l, .rd .status, .bnz 0x1 l]

/-- `CFG w, h, c` (R75). -/
def Script.cfg (w h c : Word) : List ScriptLine := [.wr .cfgWidth w, .wr .cfgHeight h, .wr .cfgChannels c]

end Sys2Proof.Machine
end

