-- ==== Sys2Proof/Machine/Turns.lean ====
section
/-! DEFINITION. The turns of the whole machine (spec/00_scope.md R6): an engine step of the command in progress, a turn of
the host script, an access by a second host, or a reset; and the states in which the next turn runs a given word of
the opcode table. -/

namespace Sys2Proof.Machine

/-- An engine step: the instruction in progress runs; an idle engine does nothing (R6, R126, R136;
log entry 3). -/
def engineStep (s : State) : Result :=
  match s.eng.op with
  | .idle => .next s
  | .ready i => exec i s
  | .decoding => exec .rleDecode s
  | .encoding => exec .rleEncode s

/-- One turn of the machine. -/
def takeTurn (t : Turn) (s : State) : Result :=
  match t with
  | .engine => engineStep s
  | .host => hostStep s
  | .otherHost a => .next (otherHostAccess a s)
  | .reset => .next (resetBlock s)

/-- Whose turn it is when the environment has chosen none: the engine's while BUSY = 1, else the host's (log
entry 3). -/
def defaultTurn (s : State) : Turn := if s.busy then .engine else .host

/-- The turn the next step takes: the first of `turns`, or the default turn. -/
def nextTurn (s : State) : Turn :=
  match s.turns with
  | [] => defaultTurn s
  | t :: _ => t

/-- The payload bytes that follow a control byte placed for the next step: as many zeros as the longest packet has
(R67). -/
def zeroPayload : List Byte := List.replicate 512 0

/-- A state in which the next step is the packet step of the packet that control byte `c` begins: RLE_DECODE is in
progress with room for 128 pixels of one byte, and the source's next byte is `c` (log entry 13). -/
def State.withControlByte (s : State) (c : Byte) : State :=
  { s with
    params := { s.params with
      pbufBytes := max s.params.pbufBytes 128
      src := s.params.src.take s.srcPos ++ c :: zeroPayload }
    srcPos := (s.params.src.take s.srcPos).length
    status := Status.issued 0x05
    cfgWidth := 128
    cfgHeight := 1
    cfgChannels := 1
    eng := { s.eng with op := .decoding, pcur := 0 }
    turns := .engine :: s.turns }

/-- A state in which the next step is the first engine step of the command `w`: the host has just written `w` to
CMD (R110; log entry 13). -/
def State.withCommand (s : State) (w : Word) : State :=
  { issue w s with turns := .engine :: s.turns }

end Sys2Proof.Machine
end

