-- ==== Sys2Proof/Machine/Step.lean ====
section
/-! DEFINITION. One step of the whole machine, and the placing of an instruction for it. -/

namespace Sys2Proof.Machine

/-- One step: the next turn is taken, and is no longer among the turns to come. -/
def step (s : State) : Host.Outcome State Fault Refusal :=
  takeTurn (nextTurn s) { s with turns := s.turns.tail }

/-- The state in which the next step fetches and runs the instruction of `nbits` bits `w` (log entries 13, 18). -/
def State.withFetchWord (s : State) (nbits w : Nat) : State :=
  if nbits = 8 then s.withControlByte (BitVec.ofNat 8 w) else s.withCommand (BitVec.ofNat 32 w)

end Sys2Proof.Machine
end

