-- ==== Sys2Proof/Machine/Stream.lean ====
section
/-! DEFINITION. The packet streams as functions on lists: `dec` (spec/41_rle_decode.md R97), `enc`
(spec/42_rle_encode.md R106), packet listings (spec/30_encoding.md R76) and the canonical streams (R108). The
machine's steps use none of them; statements compare the two. -/

namespace Sys2Proof.Machine

/-- What `dec` answers: the decoded bytes and the bytes used, or the error with its DETAIL (R97). -/
inductive DecResult where
  | ok (q : List Byte) (used : Nat)
  | err (e : ErrorKind) (d : Byte)
  deriving DecidableEq, Repr

/-- Prepend one packet's decoded bytes and length to the result for the rest of the stream (R97). -/
def DecResult.after (p : List Byte) (used : Nat) : DecResult → DecResult
  | .ok q u => .ok (p ++ q) (used + u)
  | .err e d => .err e d

/-- The bytes a packet of control byte `c` decodes to, from its payload (R90, R91). -/
def expandPayload (c : Byte) (payload : List Byte) : List Byte :=
  match controlKind c with
  | .raw => payload
  | .run => repeatBytes payload (pixelCount (controlCount c))

/-- The error of a stream with terminal `t` that ends where a byte is needed, with the DETAIL of `END` (R97). -/
def streamEnd (t : Terminal) (d : Byte) : DecResult :=
  .err (sourceError t .truncatedPayload d).1 (sourceError t .truncatedPayload d).2

/-- The recursion of R97 with `fuel` packets at most. -/
def decFuel (t : Terminal) (C : Nat) : (fuel : Nat) → List Byte → (r : Nat) → DecResult
  | _, _, 0 => .ok [] 0
  | 0, _, _ + 1 => .ok [] 0
  | _ + 1, [], _ + 1 => streamEnd t 0x01
  | fuel + 1, c :: s, r + 1 =>
    let n := pixelCount (controlCount c)
    let m := payloadLength (controlKind c) (controlCount c) C
    if r + 1 < n then .err .overrun 0x00
    else if s.length < m then streamEnd t 0x02
    else (decFuel t C fuel (s.drop m) (r + 1 - n)).after (expandPayload c (s.take m)) (1 + m)

/-- `dec(s, N, C)` for a source whose bytes from `SRC_POS` on are `s` and whose terminal is `t` (R97). Every packet
has at least one pixel, so `N` packets are enough. -/
def dec (t : Terminal) (s : List Byte) (N C : Nat) : DecResult := decFuel t C N s N

/-- What a decode has counted when it ends, in success or in failure: the pixels and packets committed (R24, R25, R94)
and the source bytes taken (R26, R92, R96). -/
structure DecCounts where
  pixels : Nat
  packets : Nat
  taken : Nat
  deriving DecidableEq, Repr

/-- The counts of the recursion of R97 with `fuel` packets at most: a missing control byte takes nothing, an overrun its
control byte (R92), a payload cut short all bytes left (R96), and a packet that commits all of its own. -/
def decCountsFuel (C : Nat) : (fuel : Nat) → List Byte → (r : Nat) → DecCounts
  | _, _, 0 => ⟨0, 0, 0⟩
  | 0, _, _ + 1 => ⟨0, 0, 0⟩
  | _ + 1, [], _ + 1 => ⟨0, 0, 0⟩
  | fuel + 1, c :: s, r + 1 =>
    let n := pixelCount (controlCount c)
    let m := payloadLength (controlKind c) (controlCount c) C
    if r + 1 < n then ⟨0, 0, 1⟩
    else if s.length < m then ⟨0, 0, 1 + s.length⟩
    else
      let rest := decCountsFuel C fuel (s.drop m) (r + 1 - n)
      ⟨n + rest.pixels, 1 + rest.packets, 1 + m + rest.taken⟩

/-- The counts of `dec(s, N, C)`, whatever the source's terminal. -/
def decCounts (s : List Byte) (N C : Nat) : DecCounts := decCountsFuel C N s N

/-- Pixel `i` of a pixel list. -/
def pixelOf (P : List Pixel) (i : Nat) : Pixel := P.getD i []

/-- The packets of the recursion of R106 with `fuel` of them at most: each with its pixel count and its bytes. -/
def encPacketsFuel : (fuel : Nat) → List Pixel → List (Nat × List Byte)
  | _, [] => []
  | 0, _ :: _ => []
  | fuel + 1, v :: P =>
    let pkt := choosePacket (pixelOf (v :: P)) (v :: P).length 0
    pkt :: encPacketsFuel fuel ((v :: P).drop pkt.1)

/-- The packets of `enc(P)`, in order. Every packet has at least one pixel, so `len(P)` packets are enough. -/
def encPackets (P : List Pixel) : List (Nat × List Byte) := encPacketsFuel P.length P

/-- The bytes of packets, in order. -/
def bytesOf (ps : List (Nat × List Byte)) : List Byte := (ps.map (·.2)).flatten

/-- The pixels that packets stand for. -/
def pixelsOf (ps : List (Nat × List Byte)) : Nat := (ps.map (·.1)).sum

/-- `enc(P)` (R106). -/
def enc (P : List Pixel) : List Byte := bytesOf (encPackets P)

/-- The pixel list `[Px(0), ..., Px(N-1)]` of the configured image (R106). -/
def State.image (s : State) : List Pixel := (List.range s.pixels).map s.px

/-- A packet of a listing (R76): `RAW k: <pixel> ...` or `RUN L: <pixel>`. -/
inductive Packet where
  | raw (ps : List Pixel)
  | run (L : Nat) (v : Pixel)
  deriving DecidableEq, Repr

/-- The pixels a packet stands for. -/
def Packet.pixels : Packet → List Pixel
  | .raw ps => ps
  | .run L v => List.replicate L v

/-- The bytes of a packet (R76, R69). -/
def Packet.bytes : Packet → List Byte
  | .raw ps => BitVec.ofNat 8 (ps.length - 1) :: ps.flatten
  | .run L v => BitVec.ofNat 8 (L + 127) :: v

/-- A packet of 1 to 128 pixels of `C` bytes each (R60, R65). -/
def Packet.wf (C : Nat) (p : Packet) : Prop :=
  1 ≤ p.pixels.length ∧ p.pixels.length ≤ Config.maxPacket ∧ ∀ v ∈ p.pixels, v.length = C

/-- The first pixel of a packet. -/
def Packet.first (p : Packet) : Option Pixel := p.pixels.head?

/-- Conditions (i) and (ii) of R108, on one packet. -/
def Packet.canonical : Packet → Prop
  | .raw ps => ps.IsChain (· ≠ ·)
  | .run L _ => 2 ≤ L

/-- Conditions (iii), (iv) and (v) of R108, on a packet and the one that follows it. -/
def Packet.mayPrecede : Packet → Packet → Prop
  | .raw ps, .raw _ => ps.length = Config.maxPacket
  | .run L v, q => L < Config.maxPacket → q.first ≠ some v
  | .raw _, .run _ _ => True

/-- The last pixel of a raw packet differs from the first pixel of the next packet (R108 (iii)). -/
def Packet.lastDiffers : Packet → Packet → Prop
  | .raw ps, q => ps.getLast? ≠ q.first
  | .run _ _, _ => True

/-- The canonical streams, as packet lists (R108). -/
def canonicalPackets (ps : List Packet) : Prop :=
  (∀ p ∈ ps, p.canonical) ∧ ps.IsChain fun p q => p.mayPrecede q ∧ p.lastDiffers q

/-- The bytes of a packet list (R47). -/
def packetBytes (ps : List Packet) : List Byte := (ps.map Packet.bytes).flatten

/-- The pixels of a packet list (R47). -/
def packetPixels (ps : List Packet) : List Pixel := (ps.map Packet.pixels).flatten

end Sys2Proof.Machine
end

