-- ==== Sys2Proof/WellFormed.lean ====
section
/-! DEFINITION. Which terms of the syntax are instructions: all of them, but for an ILLEGAL whose word is a
legal command word (R63, R109). -/

namespace Sys2Proof

/-- The well-formedness check. -/
def Instr.wf : Instr → Bool
  | .hdrParse => true
  | .hdrSerialize => true
  | .hdrCheck => true
  | .hdrBuild _ _ => true
  | .rleDecode => true
  | .rleEncode => true
  | .illegal w => !legalWord w
  | .rawPacket _ => true
  | .runPacket _ => true

/-- The rows of the table that are commands, issued by a write to CMD; the other two are packet kinds (R60). -/
def Instr.isCommand : Instr → Bool
  | .hdrParse => true
  | .hdrSerialize => true
  | .hdrCheck => true
  | .hdrBuild _ _ => true
  | .rleDecode => true
  | .rleEncode => true
  | .illegal _ => true
  | .rawPacket _ => false
  | .runPacket _ => false

end Sys2Proof
end

