-- ==== Sys2Proof/Safety.lean ====
section
/-! DEFINITION. What claims are stated in: safe states (spec/10_state.md R35), the invariant of the machine (R21,
R22, R31, R33, R36), how a command ends (spec/60_exceptions.md R111, R112), and what a step leaves alone. -/

namespace Sys2Proof.Machine

/-- A state in which no host has broken an obligation: "a state with `FAULT` set is never a good final state"
(R35). -/
def State.safe (s : State) : Prop := s.faultMark = none

/-! ### The invariant -/

/-- The rules of STATUS (R20, R21, R113, R114): the reserved bits are 0, BUSY excludes DONE and ERR, ERR implies
DONE and an error code of the table, no ERR means no code and no detail, DETAIL has five bits. -/
structure StatusOk (w : Word) : Prop where
  reserved : w.getLsbD 3 = false ∧ w.extractLsb' 24 8 = 0#8
  busy : Status.busy w = true → Status.done w = false ∧ Status.err w = false
  err : Status.err w = true →
    Status.done w = true ∧ Status.errCode w ≠ 0#4 ∧ (Status.errCode w).toNat ≤ 8
  clear : Status.err w = false → Status.errCode w = 0#4 ∧ Status.detail w = 0#8
  detail : (Status.detail w).extractLsb' 5 3 = 0#3

/-- What holds while `ENG.op` has a given value (R24 to R27, R31 to R33, R110): a command about to take its first
step is a well-formed command whose opcode is LASTOP, with every counter 0; an RLE command past its setup step
has a legal configuration, a cursor inside the image, PIX_COUNT equal to it, at most one packet per pixel, and no
more stream bytes than its packets can have. -/
def OpInv (s : State) : Prop :=
  match s.eng.op with
  | .idle => True
  | .ready i =>
    i.isCommand = true ∧ i.wf = true ∧ opcodeOf i = some (Status.lastOp s.status) ∧
      s.pixCount = 0 ∧ s.pktCount = 0 ∧ s.inCount = 0 ∧ s.outCount = 0
  | .decoding =>
    Status.lastOp s.status = 0x05#8 ∧ s.cfgDetail = 0 ∧ s.eng.pcur ≤ s.pixels ∧
      s.pixCount.toNat = s.eng.pcur ∧ s.pktCount.toNat ≤ s.eng.pcur ∧
      s.inCount.toNat ≤ s.eng.pcur * s.channels + s.pktCount.toNat ∧ s.outCount = 0
  | .encoding =>
    Status.lastOp s.status = 0x06#8 ∧ s.cfgDetail = 0 ∧ s.eng.pcur ≤ s.pixels ∧
      s.pixCount.toNat = s.eng.pcur ∧ s.pktCount.toNat ≤ s.eng.pcur ∧
      s.outCount.toNat ≤ s.eng.pcur * s.channels + s.pktCount.toNat ∧ s.inCount = 0

/-- The sink never holds more bytes than `SINK_LIMIT` (R43). -/
def SinkWithin (s : State) : Prop :=
  match s.params.sinkLimit with
  | none => True
  | some limit => s.sinkOut.length ≤ limit

/-- The invariant of the machine. -/
structure Invariant (s : State) : Prop where
  /-- `PBUF_BYTES >= 1` (R7). -/
  capacity : 1 ≤ s.params.pbufBytes
  /-- PBUF is in canonical form. -/
  pbufForm : s.pbuf.wf
  /-- PBUF has addresses `0 .. PBUF_BYTES-1` only (R36). -/
  pbufInside : ∀ c ∈ s.pbuf, c.1 < s.params.pbufBytes
  /-- `SRC_POS` is inside the source, or at its end (R34, R42). -/
  source : s.srcPos ≤ s.params.src.length
  sink : SinkWithin s
  status : StatusOk s.status
  /-- BUSY is 1 exactly while a command is in progress (R20, R31). -/
  busyOp : s.busy = true ↔ s.eng.op ≠ .idle
  op : OpInv s
  /-- The staging buffers are empty between steps (R31). -/
  staging : s.eng.stage = [] ∧ s.eng.hstage = []
  /-- HDRINFO is 0, or describes an HDR that passes every check of HDR_CHECK (R22, R87). -/
  info : s.hdrInfo = 0 ∨ (headerDetail s.hdr = 0 ∧ s.hdrInfo = HdrInfo.checked s.hdr)

/-! ### How a command ends -/

/-- From `s` to `t` the command in progress has ended successfully (R111). -/
structure EndsOk (s t : State) : Prop where
  status : t.status = Status.pack (Status.lastOp s.status) 0 0 false true false
  op : t.eng.op = .idle

/-- From `s` to `t` the command in progress has ended with ERRCODE `code` and DETAIL `d` (R112). -/
structure EndsErr (code : BitVec 4) (d : Byte) (s t : State) : Prop where
  status : t.status = Status.pack (Status.lastOp s.status) d code true true false
  op : t.eng.op = .idle

/-- A run of a command from `s` to `t` with `engineSteps` engine steps: every state before `t` is busy, and nothing
resets the block. What the hosts do meanwhile (a `WAITIDLE` poll of STATUS, or an access that sets FAULT) is
free. -/
inductive CommandRun : (engineSteps : Nat) → State → State → Prop where
  | start (s : State) : CommandRun 0 s s
  | engine {e : Nat} {s t u : State} : CommandRun e s t → t.busy = true → nextTurn t = .engine → step t = .next u →
      CommandRun (e + 1) s u
  | host {e : Nat} {s t u : State} : CommandRun e s t → t.busy = true → nextTurn t ≠ .engine → nextTurn t ≠ .reset →
      step t = .next u → CommandRun e s u

/-- The turns the environment has chosen let the command in progress end: none of them is a reset, and the host's lines
among them have their labels. Once they are taken, the engine acts while BUSY = 1 (the default turn, log entry 3). -/
def TurnsLetEnd (s : State) : Prop :=
  Turn.reset ∉ s.turns ∧ (Turn.host ∈ s.turns → scriptWf s.host.script = true)

/-! ### What stays the same -/

/-- The configuration registers are unchanged. -/
def SameConfig (s t : State) : Prop :=
  t.cfgWidth = s.cfgWidth ∧ t.cfgHeight = s.cfgHeight ∧ t.cfgChannels = s.cfgChannels

/-- HDR and HDRINFO are unchanged. -/
def SameHeader (s t : State) : Prop := t.hdr = s.hdr ∧ t.hdrInfo = s.hdrInfo

/-- Every byte of PBUF reads as before. -/
def SamePbuf (s t : State) : Prop := ∀ a, t.pbuf.read a = s.pbuf.read a

/-- The source position and IN_COUNT are unchanged. -/
def SameSource (s t : State) : Prop := t.srcPos = s.srcPos ∧ t.inCount = s.inCount

/-- The sink's contents and OUT_COUNT are unchanged. -/
def SameSink (s t : State) : Prop := t.sinkOut = s.sinkOut ∧ t.outCount = s.outCount

/-- PIX_COUNT and PKT_COUNT are unchanged. -/
def SameProgress (s t : State) : Prop := t.pixCount = s.pixCount ∧ t.pktCount = s.pktCount

/-- What no engine step touches: the launch data, FAULT, the host and the turns chosen. -/
def SameSurroundings (s t : State) : Prop :=
  t.params = s.params ∧ t.faultMark = s.faultMark ∧ t.host = s.host ∧ t.turns = s.turns

end Sys2Proof.Machine
end

