-- ==== Sys2Proof/Certificates/Slice0/Obligations.lean ====
section
/-! DEFINITION. The statements for the provers, from the numbered rules of spec/. Each docstring names the rules
it formalises; a clause that rests on a choice of the model names the log entry. -/

open Sys2Proof Sys2Proof.Machine

/-! ## Encodings (spec/30_encoding.md) -/

/-- The decoder reads back every instruction the encoder writes (R61 to R66, R75): all nine rows of the table, each
operand at every value. -/
def Obligations.DecodeOfEncode : Prop :=
  ∀ i : Instr, i.wf = true → decode (encode i) = i

/-- Every command word and every control byte has one meaning: the encoder gives it back, and what it stands for is
a well-formed instruction (R63, R70, R73). -/
def Obligations.EncodeOfDecode : Prop :=
  ∀ e : Encoded, encode (decode e) = e ∧ (decode e).wf = true

/-- The legality rule R63, in arithmetic on the word's number: a legal word is a command with its own opcode, any
other word is ILLEGAL of that word. -/
def Obligations.LegalCommandWords : Prop :=
  ∀ w : Word,
    let legal := (1 ≤ w.toNat % 256 ∧ w.toNat % 256 ≤ 6) ∧ w.toNat / 1024 = 0 ∧
      (w.toNat % 256 = 4 ∨ w.toNat / 256 % 4 = 0)
    (legal → (∀ v, decodeCommand w ≠ .illegal v) ∧ opcodeOf (decodeCommand w) = some (BitVec.ofNat 8 w.toNat)) ∧
      (¬ legal → decodeCommand w = .illegal w)

/-- The words of the opcode map and of the pseudo-instructions decode to their commands (R62, R75), and a few
control bytes to their packets (the table of V-L1-9). -/
def Obligations.SampleWordsDecode : Prop :=
  decodeCommand 0x00000001 = .hdrParse ∧ decodeCommand 0x00000002 = .hdrSerialize ∧
    decodeCommand 0x00000003 = .hdrCheck ∧ decodeCommand 0x00000004 = .hdrBuild false false ∧
    decodeCommand 0x00000104 = .hdrBuild true false ∧ decodeCommand 0x00000204 = .hdrBuild false true ∧
    decodeCommand 0x00000304 = .hdrBuild true true ∧ decodeCommand 0x00000005 = .rleDecode ∧
    decodeCommand 0x00000006 = .rleEncode ∧ decodeCommand 0x00000105 = .illegal 0x00000105 ∧
    decodeControl 0x00 = .rawPacket 0 ∧ decodeControl 0x7F = .rawPacket 127 ∧
    decodeControl 0x80 = .runPacket 0 ∧ decodeControl 0xFF = .runPacket 127

/-- Kind, pixel count and length of the packet each control byte begins (R65, R66, R67). -/
def Obligations.ControlByteCountAndLength : Prop :=
  ∀ (c : Byte) (C : Nat),
    (c.toNat < 128 → ∃ n, decodeControl c = .rawPacket n ∧ pixelCount n = c.toNat + 1 ∧
      packetLength c C = 1 + (c.toNat + 1) * C) ∧
    (128 ≤ c.toNat → ∃ n, decodeControl c = .runPacket n ∧ pixelCount n = c.toNat - 127 ∧
      packetLength c C = 1 + C) ∧
    pixelCount (controlCount c) = c.toNat % 128 + 1

/-! ## A step runs the decoded instruction -/

/-- On the engine's turn the machine runs the command that was issued: the turn is taken, and the step is `exec` of
the command (R110, R136). The clause with no turn chosen and BUSY = 1 adds to the one before it the model's default turn
alone (DESIGN CHOICE, log entry 3). -/
def Obligations.StepRunsIssuedCommand : Prop :=
  ∀ (s : State) (i : Instr) (ts : List Turn), s.eng.op = .ready i →
    (s.turns = .engine :: ts → step s = exec i { s with turns := ts }) ∧
    (s.turns = [] → s.busy = true → step s = exec i s)

/-- While RLE_DECODE has pixels missing, an engine step takes the control byte at `SRC_POS`, counts it, and is `exec`
of the packet that byte decodes to (R88, R89, R32). The clause with no turn chosen and BUSY = 1 adds to the one before it
the model's default turn alone (DESIGN CHOICE, log entry 3). -/
def Obligations.StepRunsPacketAtSource : Prop :=
  ∀ (s : State) (c : Byte) (ts : List Turn), s.eng.op = .decoding → s.eng.pcur < s.pixels →
    s.params.src[s.srcPos]? = some c →
    (s.turns = .engine :: ts →
      step s = exec (decodeControl c)
        { s with turns := ts, srcPos := s.srcPos + 1, inCount := s.inCount + 1 }) ∧
    (s.turns = [] → s.busy = true →
      step s = exec (decodeControl c) { s with srcPos := s.srcPos + 1, inCount := s.inCount + 1 }) ∧
    exec .rleDecode s = exec (decodeControl c) { s with srcPos := s.srcPos + 1, inCount := s.inCount + 1 }

/-- A word of the opcode table placed for the next step runs as the instruction the decoder reads from it (the
model's placement, log entry 13). -/
def Obligations.StepRunsFetchWord : Prop :=
  ∀ (s : State) (nbits w : Nat) (i : Instr), decodeTableWord nbits w = some i →
    ∃ u, step (s.withFetchWord nbits w) = exec i u ∧ u.turns = s.turns ∧ u.faultMark = s.faultMark ∧
      u.sinkOut = s.sinkOut ∧ u.hdr = s.hdr ∧ u.pbuf = s.pbuf

/-! ## Command issue (spec/60_exceptions.md R110) -/

/-- A host write of `w` to CMD while BUSY = 0: STATUS, the cleared counters and the command in progress of R110, and
nothing else. -/
def Obligations.CommandIssue : Prop :=
  ∀ (s : State) (w : Word), s.busy = false →
    ∃ t, hostAccess (.regWrite 32 0x00 w) s = (.nothing, t) ∧
      t.status = 0x00000001 ||| ((w.extractLsb' 0 8).setWidth 32 <<< 16) ∧
      t.pixCount = 0 ∧ t.pktCount = 0 ∧ t.inCount = 0 ∧ t.outCount = 0 ∧
      t.eng.op = .ready (decodeCommand w) ∧ t.eng.pcur = s.eng.pcur ∧
      SameConfig s t ∧ SameHeader s t ∧ t.pbuf = s.pbuf ∧ t.srcPos = s.srcPos ∧ t.sinkOut = s.sinkOut ∧
      SameSurroundings s t

/-! ## The header codec (spec/40_header_codec.md) -/

/-- `fields` and `bytes` are inverse bijections between 18-byte records and headers (R79). -/
def Obligations.FieldsAndBytesAreInverse : Prop :=
  (∀ h : Header, Header.fields h.bytes = h ∧ h.bytes.length = 18) ∧
    ∀ r : List Byte, r.length = 18 → Header.bytes (Header.fields r) = r

/-- HDR_PARSE (R80), the command word 0x00000001: with 18 bytes left, HDR takes the fields of the record of R71 and HDRINFO is cleared; with
fewer, all bytes left are consumed, HDR and HDRINFO stay, and the error is HEADER_ERROR(0x01) at END and
SOURCE_UNAVAILABLE(0x00) at FAIL. Nothing else changes. -/
def Obligations.HdrParseEffect : Prop :=
  decodeCommand 0x00000001 = .hdrParse ∧
  ∀ s : State, ∃ t, exec .hdrParse s = .next t ∧
    SameConfig s t ∧ t.pbuf = s.pbuf ∧ SameSink s t ∧ SameProgress s t ∧ SameSurroundings s t ∧
    t.eng.pcur = s.eng.pcur ∧
    (18 ≤ s.remaining.length →
      let r := s.remaining.take 18
      EndsOk s t ∧ t.srcPos = s.srcPos + 18 ∧ t.inCount = s.inCount + 18 ∧ t.hdrInfo = 0 ∧
      t.hdr.idlen = byteAt r 0 ∧ t.hdr.cmaptype = byteAt r 1 ∧ t.hdr.imgtype = byteAt r 2 ∧
      t.hdr.cmap = ⟨byteAt r 3, byteAt r 4, byteAt r 5, byteAt r 6, byteAt r 7⟩ ∧
      t.hdr.xorg.toNat = (byteAt r 8).toNat + 256 * (byteAt r 9).toNat ∧
      t.hdr.yorg.toNat = (byteAt r 10).toNat + 256 * (byteAt r 11).toNat ∧
      t.hdr.width.toNat = (byteAt r 12).toNat + 256 * (byteAt r 13).toNat ∧
      t.hdr.height.toNat = (byteAt r 14).toNat + 256 * (byteAt r 15).toNat ∧
      t.hdr.bpp = byteAt r 16 ∧ t.hdr.desc = byteAt r 17) ∧
    (s.remaining.length < 18 →
      SameHeader s t ∧ t.srcPos = s.srcPos + s.remaining.length ∧
      t.inCount = s.inCount + BitVec.ofNat 64 s.remaining.length ∧
      (s.params.term = .exhausted → EndsErr 3 0x01 s t) ∧ (s.params.term = .failed → EndsErr 1 0x00 s t))

/-- HDR_SERIALIZE (R81), the command word 0x00000002: the 18 bytes of HDR in the layout of R71 go to the sink; where the sink has room for `k` of
them only, those stay in it and the error is SINK_UNAVAILABLE. Nothing else changes. -/
def Obligations.HdrSerializeEffect : Prop :=
  decodeCommand 0x00000002 = .hdrSerialize ∧
  ∀ s : State, ∃ t, exec .hdrSerialize s = .next t ∧
    SameConfig s t ∧ SameHeader s t ∧ t.pbuf = s.pbuf ∧ SameSource s t ∧ SameProgress s t ∧
    SameSurroundings s t ∧ t.eng.pcur = s.eng.pcur ∧
    let lo := fun v : BitVec 16 => BitVec.ofNat 8 (v.toNat % 256)
    let hi := fun v : BitVec 16 => BitVec.ofNat 8 (v.toNat / 256)
    let h := s.hdr
    let r : List Byte := [h.idlen, h.cmaptype, h.imgtype, h.cmap.c0, h.cmap.c1, h.cmap.c2, h.cmap.c3, h.cmap.c4,
      lo h.xorg, hi h.xorg, lo h.yorg, hi h.yorg, lo h.width, hi h.width, lo h.height, hi h.height, h.bpp, h.desc]
    ((∀ limit, s.params.sinkLimit = some limit → s.sinkOut.length + 18 ≤ limit) →
      EndsOk s t ∧ t.sinkOut = s.sinkOut ++ r ∧ t.outCount = s.outCount + 18) ∧
    (∀ limit, s.params.sinkLimit = some limit → limit < s.sinkOut.length + 18 →
      EndsErr 2 0x00 s t ∧ t.sinkOut = s.sinkOut ++ r.take (limit - s.sinkOut.length) ∧
      t.outCount = s.outCount + BitVec.ofNat 64 (limit - s.sinkOut.length))

/-- HDR_CHECK and `commit_check()` (R82, R83), the command word 0x00000003: the three outcomes, with DETAIL listing every failed check, HDRINFO
cleared on a failure and CFG written on success only. Nothing else changes. -/
def Obligations.HdrCheckEffect : Prop :=
  decodeCommand 0x00000003 = .hdrCheck ∧
  ∀ s : State, ∃ t, exec .hdrCheck s = .next t ∧
    t.hdr = s.hdr ∧ t.pbuf = s.pbuf ∧ SameSource s t ∧ SameSink s t ∧ SameProgress s t ∧ SameSurroundings s t ∧
    t.eng.pcur = s.eng.pcur ∧
    let h := s.hdr
    let sizes := h.width ≠ 0 ∧ h.height ≠ 0 ∧ (h.bpp = 8 ∨ h.bpp = 24 ∨ h.bpp = 32)
    let type := h.imgtype = 2 ∨ h.imgtype = 3 ∨ h.imgtype = 10 ∨ h.imgtype = 11
    let d := BitVec.ofNat 8 ((if h.width = 0 then 2 else 0) + (if h.height = 0 then 4 else 0) +
      (if h.bpp = 8 ∨ h.bpp = 24 ∨ h.bpp = 32 then 0 else 8) +
      (if h.imgtype = 2 ∨ h.imgtype = 3 ∨ h.imgtype = 10 ∨ h.imgtype = 11 then 0 else 16))
    (sizes ∧ type → EndsOk s t ∧
      t.cfgWidth = h.width ∧ t.cfgHeight = h.height ∧ t.cfgChannels.toNat = h.bpp.toNat / 8 ∧
      HdrInfo.valid t.hdrInfo = true ∧ (HdrInfo.rle t.hdrInfo = true ↔ h.imgtype = 10 ∨ h.imgtype = 11) ∧
      HdrInfo.vflipNeeded t.hdrInfo = !h.desc.getLsbD 5 ∧ HdrInfo.hflipNeeded t.hdrInfo = h.desc.getLsbD 4 ∧
      (HdrInfo.channels t.hdrInfo).toNat = h.bpp.toNat / 8) ∧
    (¬ sizes → EndsErr 3 d s t ∧ t.hdrInfo = 0 ∧ SameConfig s t) ∧
    (sizes ∧ ¬ type → EndsErr 4 0x10 s t ∧ t.hdrInfo = 0 ∧ SameConfig s t)

/-- HDR_BUILD (R86), the command word `0x00000004 | RLE<<8 | VFLIP<<9`: for a legal `W`, `H`, `C` it writes every HDR field and HDRINFO; otherwise it raises BAD_CONFIG
and writes neither. Nothing else changes. -/
def Obligations.HdrBuildEffect : Prop :=
  (∀ rle vflip : Bool, decodeCommand (0x00000004 ||| (if rle then 1 <<< 8 else 0) ||| (if vflip then 1 <<< 9 else 0)) =
    .hdrBuild rle vflip) ∧
  ∀ (rle vflip : Bool) (s : State), ∃ t, exec (.hdrBuild rle vflip) s = .next t ∧
    SameConfig s t ∧ t.pbuf = s.pbuf ∧ SameSource s t ∧ SameSink s t ∧ SameProgress s t ∧ SameSurroundings s t ∧
    t.eng.pcur = s.eng.pcur ∧
    let C := s.cfgChannels.toNat
    let legal := s.cfgWidth ≠ 0 ∧ s.cfgHeight ≠ 0 ∧ (C = 1 ∨ C = 3 ∨ C = 4)
    let d := BitVec.ofNat 8 ((if s.cfgWidth = 0 then 1 else 0) + (if s.cfgHeight = 0 then 2 else 0) +
      (if C = 1 ∨ C = 3 ∨ C = 4 then 0 else 4))
    (legal → EndsOk s t ∧
      t.hdr.idlen = 0 ∧ t.hdr.cmaptype = 0 ∧
      t.hdr.imgtype.toNat = (if C = 1 then (if rle then 11 else 3) else (if rle then 10 else 2)) ∧
      t.hdr.cmap = ⟨0, 0, 0, 0, 0⟩ ∧ t.hdr.xorg = 0 ∧ t.hdr.yorg = 0 ∧
      t.hdr.width = s.cfgWidth ∧ t.hdr.height = s.cfgHeight ∧ t.hdr.bpp.toNat = 8 * C ∧
      t.hdr.desc = (if vflip then 0x00 else 0x20) ∧
      HdrInfo.valid t.hdrInfo = true ∧ HdrInfo.rle t.hdrInfo = rle ∧ HdrInfo.vflipNeeded t.hdrInfo = vflip ∧
      HdrInfo.hflipNeeded t.hdrInfo = false ∧ (HdrInfo.channels t.hdrInfo).toNat = C) ∧
    (¬ legal → EndsErr 8 d s t ∧ SameHeader s t)

/-- A header made by HDR_BUILD always passes HDR_CHECK, which writes back the same configuration and the same HDRINFO
(R87). -/
def Obligations.BuiltHeaderPassesCheck : Prop :=
  ∀ (rle vflip : Bool) (s t : State), exec (.hdrBuild rle vflip) s = .next t → Status.err t.status = false →
    ∃ u, exec .hdrCheck (issue 0x00000003 t) = .next u ∧ EndsOk (issue 0x00000003 t) u ∧
      SameConfig t u ∧ u.hdrInfo = t.hdrInfo ∧ u.hdr = t.hdr

/-! ## Reserved command words (spec/43_illegal_command.md) -/

/-- A word that is not legal, written to CMD while BUSY = 0 (R109): the command passes through BUSY = 1 for one step and
ends with ILLEGAL_COMMAND and the DETAIL of R109, LASTOP `w[7:0]`, the counters 0, and nothing else changed. -/
def Obligations.IllegalWordRaises : Prop :=
  ∀ (s : State) (w : Word), s.busy = false → legalWord w = false →
    let op := w.toNat % 256
    let flags := w.toNat / 256 % 4
    let d := BitVec.ofNat 8 ((if 1 ≤ op ∧ op ≤ 6 then 0 else 1) + (if w.toNat / 1024 = 0 then 0 else 2) +
      (if op ≠ 4 ∧ flags ≠ 0 then 4 else 0))
    ∃ t u, hostAccess (.regWrite 32 0x00 w) s = (.nothing, t) ∧ t.busy = true ∧ t.eng.op = .ready (.illegal w) ∧
      exec (.illegal w) t = .next u ∧
      u.status = Status.pack (BitVec.ofNat 8 op) d 7 true true false ∧ u.eng.op = .idle ∧
      u.pixCount = 0 ∧ u.pktCount = 0 ∧ u.inCount = 0 ∧ u.outCount = 0 ∧
      u.srcPos = s.srcPos ∧ u.sinkOut = s.sinkOut ∧ SameHeader s u ∧ SameConfig s u ∧ u.pbuf = s.pbuf ∧
      SameSurroundings s u

/-- The meaning of ILLEGAL by itself (R109, R112), from any state. -/
def Obligations.IllegalEffect : Prop :=
  ∀ (s : State) (w : Word), ∃ t, exec (.illegal w) s = .next t ∧ EndsErr 7 (illegalDetail w) s t ∧
    SameConfig s t ∧ SameHeader s t ∧ t.pbuf = s.pbuf ∧ SameSource s t ∧ SameSink s t ∧ SameProgress s t ∧
    SameSurroundings s t ∧ t.eng.pcur = s.eng.pcur

/-! ## The configuration check (spec/10_state.md R17) -/

/-- The configuration predicate (R17), by what the three commands that read it do: a first step of RLE_DECODE or
RLE_ENCODE with `cfg_detail ≠ 0` raises BAD_CONFIG(cfg_detail) and touches nothing, and HDR_BUILD does so for
`cfg_detail` without the capacity bit. Two clauses are the model's reading, not the rule's: that PBUF is unchanged after an
RLE_DECODE that ends with BAD_CONFIG (log entry 10: R17 and R88 against R94), and that C = 2 is illegal for it (log
entry 15: R17 against the vector V-D15). -/
def Obligations.BadConfigurationRaises : Prop :=
  ∀ s : State,
    let W := s.cfgWidth.toNat
    let H := s.cfgHeight.toNat
    let C := s.cfgChannels.toNat
    let size := (if W = 0 then 1 else 0) + (if H = 0 then 2 else 0) + (if C = 1 ∨ C = 3 ∨ C = 4 then 0 else 4)
    let d := size + (if s.params.pbufBytes < W * H * C then 8 else 0)
    let untouched := fun t : State => SameConfig s t ∧ SameHeader s t ∧ t.pbuf = s.pbuf ∧ SameSource s t ∧
      SameSink s t ∧ SameProgress s t ∧ SameSurroundings s t
    (∀ i, i = .rleDecode ∨ i = .rleEncode → s.eng.op = .ready i → d ≠ 0 →
      ∃ t, exec i s = .next t ∧ EndsErr 8 (BitVec.ofNat 8 d) s t ∧ untouched t) ∧
    (∀ rle vflip, size ≠ 0 →
      ∃ t, exec (.hdrBuild rle vflip) s = .next t ∧ EndsErr 8 (BitVec.ofNat 8 size) s t ∧ untouched t)

/-- The setup step of RLE_DECODE and RLE_ENCODE with a legal configuration (R88, R100, R136): the cursor is 0, the
command is in its packet phase (the model's phases of `ENG.op`, log entry 4), and nothing else changes. -/
def Obligations.RleSetupStep : Prop :=
  ∀ (s : State) (i : Instr) (phase : EngOp),
    (i = .rleDecode ∧ phase = .decoding) ∨ (i = .rleEncode ∧ phase = .encoding) → s.eng.op = .ready i →
    s.cfgWidth ≠ 0 → s.cfgHeight ≠ 0 →
    (s.cfgChannels.toNat = 1 ∨ s.cfgChannels.toNat = 3 ∨ s.cfgChannels.toNat = 4) →
    s.cfgWidth.toNat * s.cfgHeight.toNat * s.cfgChannels.toNat ≤ s.params.pbufBytes →
    exec i s = .next { s with eng := { s.eng with op := phase, pcur := 0 } }

/-- The end step of RLE_DECODE and RLE_ENCODE (R95, R136): with no pixel missing the command completes, reads and
writes nothing, and keeps its counters. -/
def Obligations.RleEndStep : Prop :=
  ∀ (s : State) (i : Instr), (i = .rleDecode ∧ s.eng.op = .decoding) ∨ (i = .rleEncode ∧ s.eng.op = .encoding) →
    s.pixels ≤ s.eng.pcur →
    ∃ t, exec i s = .next t ∧ EndsOk s t ∧ SameConfig s t ∧ SameHeader s t ∧ t.pbuf = s.pbuf ∧ SameSource s t ∧
      SameSink s t ∧ SameProgress s t ∧ SameSurroundings s t ∧ t.eng.pcur = s.eng.pcur

/-! ## The decoder's packets (spec/41_rle_decode.md) -/

/-- RAW_PACKET (R90, R89): with room for its pixels and its payload at hand, the `(n+1)*C` literal bytes are copied to
PBUF from `pcur*C` on, the cursors and counters advance, and nothing else changes. -/
def Obligations.RawPacketEffect : Prop :=
  ∀ (s : State) (n : BitVec 7), s.pbuf.wf →
    let k := n.toNat + 1
    let C := s.channels
    s.eng.pcur + k ≤ s.pixels → k * C ≤ s.remaining.length →
    ∃ t, exec (.rawPacket n) s = .next t ∧
      (∀ j, j < k * C → t.pbuf.read (s.eng.pcur * C + j) = byteAt s.remaining j) ∧
      (∀ a, a < s.eng.pcur * C ∨ (s.eng.pcur + k) * C ≤ a → t.pbuf.read a = s.pbuf.read a) ∧
      t.eng.pcur = s.eng.pcur + k ∧ t.pixCount = BitVec.ofNat 32 (s.eng.pcur + k) ∧ t.pktCount = s.pktCount + 1 ∧
      t.srcPos = s.srcPos + k * C ∧ t.inCount = s.inCount + BitVec.ofNat 64 (k * C) ∧
      t.status = s.status ∧ t.eng.op = s.eng.op ∧ SameConfig s t ∧ SameHeader s t ∧ SameSink s t ∧
      SameSurroundings s t

/-- RUN_PACKET (R91, R89): with room for its pixels and its one pixel at hand, that pixel is written `n+1` times from
`pcur*C` on, the cursors and counters advance, and nothing else changes. -/
def Obligations.RunPacketEffect : Prop :=
  ∀ (s : State) (n : BitVec 7), s.pbuf.wf →
    let k := n.toNat + 1
    let C := s.channels
    s.eng.pcur + k ≤ s.pixels → C ≤ s.remaining.length →
    ∃ t, exec (.runPacket n) s = .next t ∧
      (∀ i j, i < k → j < C → t.pbuf.read ((s.eng.pcur + i) * C + j) = byteAt s.remaining j) ∧
      (∀ a, a < s.eng.pcur * C ∨ (s.eng.pcur + k) * C ≤ a → t.pbuf.read a = s.pbuf.read a) ∧
      t.eng.pcur = s.eng.pcur + k ∧ t.pixCount = BitVec.ofNat 32 (s.eng.pcur + k) ∧ t.pktCount = s.pktCount + 1 ∧
      t.srcPos = s.srcPos + C ∧ t.inCount = s.inCount + BitVec.ofNat 64 C ∧
      t.status = s.status ∧ t.eng.op = s.eng.op ∧ SameConfig s t ∧ SameHeader s t ∧ SameSink s t ∧
      SameSurroundings s t

/-- The overrun check comes before the payload is read (R92): a packet of either kind with more pixels than are
missing raises OVERRUN whatever the source holds, and takes no payload byte; the step that takes its control byte
counts that byte and no other. PBUF outside the image is untouched (R94). -/
def Obligations.OverrunComesFirst : Prop :=
  (∀ (s : State) (n : BitVec 7) (i : Instr), i = .rawPacket n ∨ i = .runPacket n →
    s.pixels < s.eng.pcur + n.toNat + 1 →
    ∃ t, exec i s = .next t ∧ EndsErr 6 0x00 s t ∧ SameSource s t ∧ SameProgress s t ∧
      (∀ a, s.pixels * s.channels ≤ a → t.pbuf.read a = s.pbuf.read a) ∧
      SameConfig s t ∧ SameHeader s t ∧ SameSink s t ∧ SameSurroundings s t) ∧
  ∀ (s : State) (c : Byte), s.eng.op = .decoding → s.eng.pcur < s.pixels → s.params.src[s.srcPos]? = some c →
    s.pixels < s.eng.pcur + c.toNat % 128 + 1 →
    ∃ t, exec .rleDecode s = .next t ∧ EndsErr 6 0x00 s t ∧ t.srcPos = s.srcPos + 1 ∧ t.inCount = s.inCount + 1 ∧
      SameProgress s t

/-- A packet whose payload is cut short (R96, R94): the bytes left are consumed, the error is TRUNCATED_PAYLOAD(0x02) at
END and SOURCE_UNAVAILABLE(0x00) at FAIL, no pixel or packet is counted, and PBUF outside the image is
untouched. -/
def Obligations.PayloadCutShort : Prop :=
  ∀ (s : State) (n : BitVec 7) (i : Instr) (m : Nat),
    (i = .rawPacket n ∧ m = (n.toNat + 1) * s.channels) ∨ (i = .runPacket n ∧ m = s.channels) →
    s.eng.pcur + n.toNat + 1 ≤ s.pixels → s.remaining.length < m →
    ∃ t, exec i s = .next t ∧
      (s.params.term = .exhausted → EndsErr 5 0x02 s t) ∧ (s.params.term = .failed → EndsErr 1 0x00 s t) ∧
      t.srcPos = s.srcPos + s.remaining.length ∧ t.inCount = s.inCount + BitVec.ofNat 64 s.remaining.length ∧
      SameProgress s t ∧ (∀ a, s.pixels * s.channels ≤ a → t.pbuf.read a = s.pbuf.read a) ∧
      SameConfig s t ∧ SameHeader s t ∧ SameSink s t ∧ SameSurroundings s t

/-- A stream that ends where a control byte is needed (R96): TRUNCATED_PAYLOAD(0x01) at END and
SOURCE_UNAVAILABLE(0x00) at FAIL. -/
def Obligations.NoControlByte : Prop :=
  ∀ s : State, s.eng.op = .decoding → s.eng.pcur < s.pixels → s.remaining = [] →
    ∃ t, exec .rleDecode s = .next t ∧
      (s.params.term = .exhausted → EndsErr 5 0x01 s t) ∧ (s.params.term = .failed → EndsErr 1 0x00 s t) ∧
      SameSource s t ∧ SameProgress s t ∧ (∀ a, s.pixels * s.channels ≤ a → t.pbuf.read a = s.pbuf.read a) ∧
      SameConfig s t ∧ SameHeader s t ∧ SameSink s t ∧ SameSurroundings s t

/-- `dec` follows the recursion of R97: no pixel left; no byte left; and a control byte with too many pixels, with too
short a payload, or with a payload that decodes. `decCounts` follows the same cases with what they count: the pixels and
packets committed (R24, R25, R94) and the bytes taken (R26, R92, R96). -/
def Obligations.DecFollowsItsRecursion : Prop :=
  ∀ (t : Terminal) (C : Nat),
    let cut := fun d : Byte => if t = .exhausted then DecResult.err .truncatedPayload d else .err .sourceUnavailable 0x00
    (∀ s, dec t s 0 C = .ok [] 0 ∧ decCounts s 0 C = ⟨0, 0, 0⟩) ∧
    (∀ r, 0 < r → dec t [] r C = cut 0x01 ∧ decCounts [] r C = ⟨0, 0, 0⟩) ∧
    ∀ (c : Byte) (s : List Byte) (r : Nat), 0 < r →
      let n := c.toNat % 128 + 1
      let m := if c.toNat < 128 then n * C else C
      let p := if c.toNat < 128 then s.take m else (List.replicate n (s.take C)).flatten
      let rest := decCounts (s.drop m) (r - n) C
      (r < n → dec t (c :: s) r C = .err .overrun 0x00 ∧ decCounts (c :: s) r C = ⟨0, 0, 1⟩) ∧
      (n ≤ r → s.length < m → dec t (c :: s) r C = cut 0x02 ∧ decCounts (c :: s) r C = ⟨0, 0, 1 + s.length⟩) ∧
      (n ≤ r → m ≤ s.length →
        decCounts (c :: s) r C = ⟨n + rest.pixels, 1 + rest.packets, 1 + m + rest.taken⟩ ∧
        (∀ q u, dec t (s.drop m) (r - n) C = .ok q u → dec t (c :: s) r C = .ok (p ++ q) (1 + m + u)) ∧
        (∀ e d, dec t (s.drop m) (r - n) C = .err e d → dec t (c :: s) r C = .err e d))

/-- RLE_DECODE computes `dec` (R97): from its issue, however the hosts' accesses (a `WAITIDLE` poll, R75, R119, R136)
interleave with the engine's steps and as long as nothing resets the block, the command ends after at most `N + 2` engine
steps as `dec` of the bytes from `SRC_POS` on says: with the decoded bytes in PBUF, or with `dec`'s error (R94, R117);
in both cases the pixels and packets committed and the bytes taken are counted, and those bytes are consumed. The last
clause, that such a run to the end exists, rests on the default turn of log entry 3 once the chosen turns are taken. -/
def Obligations.DecodeCommandComputesDec : Prop :=
  ∀ s : State, Invariant s → s.eng.op = .ready .rleDecode → s.cfgDetail = 0 →
    let n := decCounts s.remaining s.pixels s.channels
    (∀ k t, CommandRun k s t → t.busy = false →
      k ≤ s.pixels + 2 ∧
      (∀ q u, dec s.params.term s.remaining s.pixels s.channels = .ok q u →
        EndsOk s t ∧ t.pbuf.readBytes 0 (s.pixels * s.channels) = q ∧ n.taken = u ∧ n.pixels = s.pixels) ∧
      (∀ e d, dec s.params.term s.remaining s.pixels s.channels = .err e d → EndsErr e.code d s t) ∧
      t.pixCount.toNat = n.pixels ∧ t.pktCount.toNat = n.packets ∧ t.inCount.toNat = n.taken ∧
      t.srcPos = s.srcPos + n.taken ∧
      (∀ a, s.pixels * s.channels ≤ a → t.pbuf.read a = s.pbuf.read a) ∧
      SameConfig s t ∧ SameHeader s t ∧ SameSink s t ∧ t.params = s.params) ∧
    (TurnsLetEnd s → ∃ k t, CommandRun k s t ∧ t.busy = false ∧ (s.turns = [] → SameSurroundings s t))

/-- The bounds of a successful decode (R98): the bytes it reads, and the bytes it yields. -/
def Obligations.DecodeBounds : Prop :=
  ∀ (t : Terminal) (s : List Byte) (N C : Nat) (q : List Byte) (u : Nat), 1 ≤ C → dec t s N C = .ok q u →
    q.length = N * C ∧ u ≤ s.length ∧ u ≤ N * C + N ∧ (N + 127) / 128 * (1 + C) ≤ u

/-! ## The encoder (spec/42_rle_encode.md) -/

/-- The run length (R103): the largest `L` in 2..128 with `p + L ≤ N` and every pixel of the run equal to the first. -/
def Obligations.RunLengthIsMaximal : Prop :=
  ∀ (px : Nat → Pixel) (N p : Nat), p + 1 < N → px p = px (p + 1) →
    let L := runLength px N p
    2 ≤ L ∧ L ≤ 128 ∧ p + L ≤ N ∧ (∀ j, j < L → px (p + j) = px p) ∧
      (L = 128 ∨ p + L = N ∨ px (p + L) ≠ px p)

/-- The raw length (R104): 1..128 literals, none equal to its successor, closed by the end, by 128 literals, or by a
pixel that begins a duplicate pair. -/
def Obligations.RawLengthStopsAtPair : Prop :=
  ∀ (px : Nat → Pixel) (N p : Nat), p < N → (p + 1 < N → px p ≠ px (p + 1)) →
    let k := rawLength px N p
    1 ≤ k ∧ k ≤ 128 ∧ p + k ≤ N ∧ (∀ j, j < k → p + j + 1 < N → px (p + j) ≠ px (p + j + 1)) ∧
      (k = 128 ∨ p + k = N ∨ (p + k + 1 < N ∧ px (p + k) = px (p + k + 1)))

/-- A packet step of RLE_ENCODE (R101, R102, R69): the packet is a run of the run length when the pixel at the cursor
equals the next one, else a raw packet of the raw length; with room in the sink it is written whole and the
cursors advance, otherwise the bytes the sink accepts stay and the error is SINK_UNAVAILABLE. PBUF, HDR and CFG are
unchanged. -/
def Obligations.EncodePacketStep : Prop :=
  ∀ s : State, s.eng.op = .encoding → s.eng.pcur < s.pixels →
    let p := s.eng.pcur
    let C := s.channels
    let run := p + 1 < s.pixels ∧ s.pbuf.readBytes (p * C) C = s.pbuf.readBytes ((p + 1) * C) C
    ∀ (n : Nat) (pkt : List Byte),
      (run ∧ n = runLength s.px s.pixels p ∧ pkt = BitVec.ofNat 8 (n + 127) :: s.pbuf.readBytes (p * C) C) ∨
        (¬ run ∧ n = rawLength s.px s.pixels p ∧
          pkt = BitVec.ofNat 8 (n - 1) :: s.pbuf.readBytes (p * C) (n * C)) →
      ∃ t, exec .rleEncode s = .next t ∧
        ((∀ limit, s.params.sinkLimit = some limit → s.sinkOut.length + pkt.length ≤ limit) →
          t.status = s.status ∧ t.eng.op = .encoding ∧ t.sinkOut = s.sinkOut ++ pkt ∧
          t.outCount = s.outCount + BitVec.ofNat 64 pkt.length ∧ t.eng.pcur = p + n ∧
          t.pixCount = BitVec.ofNat 32 (p + n) ∧ t.pktCount = s.pktCount + 1) ∧
        (∀ limit, s.params.sinkLimit = some limit → limit < s.sinkOut.length + pkt.length →
          EndsErr 2 0x00 s t ∧ t.sinkOut = s.sinkOut ++ pkt.take (limit - s.sinkOut.length) ∧
          t.outCount = s.outCount + BitVec.ofNat 64 (limit - s.sinkOut.length) ∧ SameProgress s t) ∧
        t.pbuf = s.pbuf ∧ SameSource s t ∧ SameConfig s t ∧ SameHeader s t ∧ SameSurroundings s t

/-- `enc` follows the recursion of R106: nothing for no pixel; a run packet where the first two pixels are equal; else
a raw packet. `encPackets` lists the same packets, each with its pixel count (R25, R101). -/
def Obligations.EncFollowsItsRecursion : Prop :=
  (enc [] = [] ∧ encPackets [] = []) ∧ ∀ (v : Pixel) (P : List Pixel),
    let px := pixelOf (v :: P)
    let L := runLength px (P.length + 1) 0
    let k := rawLength px (P.length + 1) 0
    let run := BitVec.ofNat 8 (L + 127) :: v
    let raw := BitVec.ofNat 8 (k - 1) :: ((v :: P).take k).flatten
    (P.head? = some v → enc (v :: P) = run ++ enc ((v :: P).drop L) ∧
      encPackets (v :: P) = (L, run) :: encPackets ((v :: P).drop L)) ∧
    (P.head? ≠ some v → enc (v :: P) = raw ++ enc ((v :: P).drop k) ∧
      encPackets (v :: P) = (k, raw) :: encPackets ((v :: P).drop k))

/-- RLE_ENCODE computes `enc` (R106): from its issue, however the hosts' accesses (a `WAITIDLE` poll, R75, R119, R136)
interleave with the engine's steps and as long as nothing resets the block, the command ends after at most `N + 2` engine
steps. With room in the sink it has written `enc(P)` of the image `P`, all its packets and pixels counted. Where the sink
fails, it has written the part of `enc(P)` the sink accepts, PKT_COUNT and PIX_COUNT count the packets written whole
and their pixels, and the failure lies inside the packet after them (R101, R117). The last clause, that such a run to
the end exists, rests on the default turn of log entry 3 once the chosen turns are taken. -/
def Obligations.EncodeCommandComputesEnc : Prop :=
  ∀ s : State, Invariant s → s.eng.op = .ready .rleEncode → s.cfgDetail = 0 →
    let packets := encPackets s.image
    (∀ k t, CommandRun k s t → t.busy = false →
      k ≤ s.pixels + 2 ∧
      ((∀ limit, s.params.sinkLimit = some limit → s.sinkOut.length + (enc s.image).length ≤ limit) →
        EndsOk s t ∧ t.sinkOut = s.sinkOut ++ enc s.image ∧ t.outCount.toNat = (enc s.image).length ∧
        t.pixCount.toNat = s.pixels ∧ t.pktCount.toNat = packets.length) ∧
      (∀ limit, s.params.sinkLimit = some limit → limit < s.sinkOut.length + (enc s.image).length →
        let whole := packets.take t.pktCount.toNat
        EndsErr 2 0x00 s t ∧ t.sinkOut = s.sinkOut ++ (enc s.image).take t.outCount.toNat ∧
        t.outCount.toNat = limit - s.sinkOut.length ∧ t.pktCount.toNat < packets.length ∧
        t.pixCount.toNat = pixelsOf whole ∧ (bytesOf whole).length ≤ t.outCount.toNat ∧
        t.outCount.toNat < (bytesOf (packets.take (t.pktCount.toNat + 1))).length) ∧
      t.pbuf = s.pbuf ∧ SameConfig s t ∧ SameHeader s t ∧ SameSource s t ∧ t.params = s.params) ∧
    (TurnsLetEnd s → ∃ k t, CommandRun k s t ∧ t.busy = false ∧ (s.turns = [] → SameSurroundings s t))

/-- Round trip (R107 (b), R95): decoding what the encoder wrote gives the pixels back and uses exactly the encoder's
bytes, whatever follows them in the source. -/
def Obligations.DecodeOfEncodedPixels : Prop :=
  ∀ (t : Terminal) (C : Nat) (P : List Pixel) (rest : List Byte), C = 1 ∨ C = 3 ∨ C = 4 → P ≠ [] →
    (∀ v ∈ P, v.length = C) →
    dec t (enc P ++ rest) P.length C = .ok P.flatten (enc P).length

/-- The encoder's output (R107 (a), (c), (d), (e)): at most `N` packets of at most 128 pixels each, a 1-pixel image as
one raw packet, and the size bounds. -/
def Obligations.EncoderOutputBounds : Prop :=
  ∀ (C : Nat) (P : List Pixel), 1 ≤ P.length → (∀ v ∈ P, v.length = C) →
    (∃ ps : List Packet, packetBytes ps = enc P ∧ packetPixels ps = P ∧ ps.length ≤ P.length ∧
      ∀ p ∈ ps, 1 ≤ p.pixels.length ∧ p.pixels.length ≤ 128) ∧
    (∀ v, P = [v] → enc P = 0x00 :: v) ∧
    (P.length + 127) / 128 * (1 + C) ≤ (enc P).length ∧ (enc P).length ≤ P.length * C + P.length

/-- The canonical streams (R108): what the encoder emits is a canonical packet list for its pixels, and a packet list
is canonical exactly when encoding its pixels gives that list's bytes. -/
def Obligations.CanonicalStreams : Prop :=
  (∀ (C : Nat) (P : List Pixel), (∀ v ∈ P, v.length = C) →
    ∃ ps : List Packet, (∀ p ∈ ps, p.wf C) ∧ canonicalPackets ps ∧ packetBytes ps = enc P ∧ packetPixels ps = P) ∧
  (∀ (C : Nat) (ps : List Packet), (∀ p ∈ ps, p.wf C) → (canonicalPackets ps ↔ enc (packetPixels ps) = packetBytes ps))

/-! ## The host's accesses -/

/-- The busy hazard (R132): while BUSY = 1 every access but a read of STATUS sets FAULT and has no other effect, an
access by a second host included. That the second host is always the one that is not the script's, whichever issued the
command, is the model's choice (log entry 12). -/
def Obligations.BusyHazard : Prop :=
  ∀ (s : State) (a : HostAction), s.busy = true →
    (a ≠ .regRead 32 0x04 →
      ∃ t, hostAccess a s = (.nothing, t) ∧ t.faultMark ≠ none ∧ { t with faultMark := s.faultMark } = s) ∧
    hostAccess (.regRead 32 0x04) s = (.word s.status, s) ∧
    (otherHostAccess a s).faultMark ≠ none ∧ { otherHostAccess a s with faultMark := s.faultMark } = s

/-- The access hazard (R133): a misaligned, wrong-width or out-of-window register access, or a buffer access beyond
PBUF_BYTES, sets FAULT and has no other effect, busy or not; the reserved offsets of the window are no hazard:
they read 0 and ignore writes. -/
def Obligations.AccessHazard : Prop :=
  ∀ (s : State) (width offset : Nat) (v : Word) (a : Nat) (b : Byte),
    (width ≠ 32 ∨ offset % 4 ≠ 0 ∨ 0x100 ≤ offset →
      ∀ act, act = .regRead width offset ∨ act = .regWrite width offset v →
        ∃ t, hostAccess act s = (.nothing, t) ∧ t.faultMark ≠ none ∧ { t with faultMark := s.faultMark } = s) ∧
    (s.params.pbufBytes ≤ a → ∀ act, act = .bufRead a ∨ act = .bufWrite a b →
        ∃ t, hostAccess act s = (.nothing, t) ∧ t.faultMark ≠ none ∧ { t with faultMark := s.faultMark } = s) ∧
    (s.busy = false → offset % 4 = 0 → (offset = 0x38 ∨ offset = 0x3C ∨ (0x6C ≤ offset ∧ offset ≤ 0xFC)) →
        hostAccess (.regRead 32 offset) s = (.word 0, s) ∧ hostAccess (.regWrite 32 offset v) s = (.nothing, s))

/-- The host buffer port (R40): while BUSY = 0, a read inside PBUF gives the byte and changes nothing, and a write
changes that byte and nothing else; while BUSY = 1, or beyond PBUF_BYTES, either access sets FAULT and has no other
effect. -/
def Obligations.BufferPort : Prop :=
  ∀ (s : State) (a : Nat) (v : Byte), s.pbuf.wf →
    (s.busy = false → a < s.params.pbufBytes →
      hostAccess (.bufRead a) s = (.bytes [s.pbuf.read a], s) ∧
      ∃ t, hostAccess (.bufWrite a v) s = (.nothing, t) ∧ t.pbuf.read a = v ∧
        (∀ x, x ≠ a → t.pbuf.read x = s.pbuf.read x) ∧ { t with pbuf := s.pbuf } = s) ∧
    (s.busy = true ∨ s.params.pbufBytes ≤ a → ∀ act, act = .bufRead a ∨ act = .bufWrite a v →
      ∃ t, hostAccess act s = (.nothing, t) ∧ t.faultMark ≠ none ∧ { t with faultMark := s.faultMark } = s)

/-- The register map's offsets (R18): each named register is found at the offset of the map, and nothing is found at a
reserved offset, beyond the map, or at an offset that is not a multiple of 4. And what each offset of the window reads as
while BUSY = 0, a read changing nothing: CMD 0 and the reserved offsets 0 (R18), STATUS (R20), CFG (R14 to R16), HDRINFO
(R22), the counters with their low and high words (R24 to R27), PBUF_CAP (R28), and HDR with `cmap[i]` at bits [8i+7:8i]
(R29). -/
def Obligations.RegisterMapOffsets : Prop :=
  (∀ r o, (r, o) ∈ [(Reg.cmd, 0x00), (.status, 0x04), (.cfgWidth, 0x08), (.cfgHeight, 0x0C), (.cfgChannels, 0x10),
      (.hdrInfo, 0x14), (.pixCount, 0x18), (.pktCount, 0x1C), (.inCountLo, 0x20), (.inCountHi, 0x24),
      (.outCountLo, 0x28), (.outCountHi, 0x2C), (.pbufCapLo, 0x30), (.pbufCapHi, 0x34), (.hdrIdlen, 0x40),
      (.hdrCmapType, 0x44), (.hdrImgType, 0x48), (.hdrCmapSpecLo, 0x4C), (.hdrCmapSpecHi, 0x50), (.hdrXOrigin, 0x54),
      (.hdrYOrigin, 0x58), (.hdrWidth, 0x5C), (.hdrHeight, 0x60), (.hdrBpp, 0x64), (.hdrDesc, 0x68)] →
    r.offset = o ∧ Reg.at o = some r) ∧
  (Reg.at 0x38 = none ∧ Reg.at 0x3C = none ∧ (∀ o, 0x6C ≤ o → Reg.at o = none) ∧ ∀ o, o % 4 ≠ 0 → Reg.at o = none) ∧
  ∀ s : State, s.busy = false → ∃ value : Nat → Word,
    (∀ o, o % 4 = 0 → o < 0x100 → hostAccess (.regRead 32 o) s = (.word (value o), s)) ∧
    value 0x00 = 0 ∧ value 0x04 = s.status ∧ (value 0x08).toNat = s.cfgWidth.toNat ∧
    (value 0x0C).toNat = s.cfgHeight.toNat ∧ (value 0x10).toNat = s.cfgChannels.toNat ∧
    (value 0x14).toNat = s.hdrInfo.toNat ∧ (value 0x18).toNat = s.pixCount.toNat ∧
    (value 0x1C).toNat = s.pktCount.toNat ∧
    (value 0x20).toNat = s.inCount.toNat % 2 ^ 32 ∧ (value 0x24).toNat = s.inCount.toNat / 2 ^ 32 ∧
    (value 0x28).toNat = s.outCount.toNat % 2 ^ 32 ∧ (value 0x2C).toNat = s.outCount.toNat / 2 ^ 32 ∧
    (value 0x30).toNat = min s.params.pbufBytes (2 ^ 64 - 1) % 2 ^ 32 ∧
    (value 0x34).toNat = min s.params.pbufBytes (2 ^ 64 - 1) / 2 ^ 32 ∧
    value 0x38 = 0 ∧ value 0x3C = 0 ∧
    (value 0x40).toNat = s.hdr.idlen.toNat ∧ (value 0x44).toNat = s.hdr.cmaptype.toNat ∧
    (value 0x48).toNat = s.hdr.imgtype.toNat ∧
    ((value 0x4C).extractLsb' 0 8 = s.hdr.cmap.c0 ∧ (value 0x4C).extractLsb' 8 8 = s.hdr.cmap.c1 ∧
      (value 0x4C).extractLsb' 16 8 = s.hdr.cmap.c2 ∧ (value 0x4C).extractLsb' 24 8 = s.hdr.cmap.c3) ∧
    (value 0x50).toNat = s.hdr.cmap.c4.toNat ∧ (value 0x54).toNat = s.hdr.xorg.toNat ∧
    (value 0x58).toNat = s.hdr.yorg.toNat ∧ (value 0x5C).toNat = s.hdr.width.toNat ∧
    (value 0x60).toNat = s.hdr.height.toNat ∧ (value 0x64).toNat = s.hdr.bpp.toNat ∧
    (value 0x68).toNat = s.hdr.desc.toNat ∧ ∀ o, 0x6C ≤ o → value o = 0

/-- A write to a read-write register (R14 to R16, R18, R29): it reads back the used bits of the word, and no other
register reads differently, but for HDRINFO after a write to an HDR_* register; a write to a read-only register is
ignored; a read changes nothing and CMD reads 0. And which field of the state a write of `v` at each read-write offset
sets: W, H, C, or a field of HDR with `cmap[i]` at bits [8i+7:8i], whose writes clear HDRINFO (R23), and no other
field. -/
def Obligations.RegisterWrites : Prop :=
  ∀ (s : State) (v : Word), s.busy = false →
    (∀ r k, (r, k) ∈ [(Reg.cfgWidth, 16), (.cfgHeight, 16), (.cfgChannels, 3), (.hdrIdlen, 8), (.hdrCmapType, 8),
        (.hdrImgType, 8), (.hdrCmapSpecLo, 32), (.hdrCmapSpecHi, 8), (.hdrXOrigin, 16), (.hdrYOrigin, 16),
        (.hdrWidth, 16), (.hdrHeight, 16), (.hdrBpp, 8), (.hdrDesc, 8)] →
      ∃ t, hostAccess (.regWrite 32 r.offset v) s = (.nothing, t) ∧ (readReg r t).toNat = v.toNat % 2 ^ k ∧
        (∀ r', r' ≠ r → (r' = .hdrInfo → r.offset < 0x40) → readReg r' t = readReg r' s) ∧
        t.pbuf = s.pbuf ∧ t.srcPos = s.srcPos ∧ t.sinkOut = s.sinkOut ∧ t.eng = s.eng ∧ SameSurroundings s t) ∧
    (∀ r, r ∈ [Reg.status, .hdrInfo, .pixCount, .pktCount, .inCountLo, .inCountHi, .outCountLo, .outCountHi,
        .pbufCapLo, .pbufCapHi] → hostAccess (.regWrite 32 r.offset v) s = (.nothing, s)) ∧
    (∀ r : Reg, hostAccess (.regRead 32 r.offset) s = (.word (readReg r s), s)) ∧ readReg .cmd s = 0 ∧
    ∃ after : Nat → State,
    (∀ o, o % 4 = 0 → o < 0x100 → hostAccess (.regWrite 32 o v) s = (.nothing, after o)) ∧
    ((after 0x08).cfgWidth.toNat = v.toNat % 2 ^ 16 ∧ { after 0x08 with cfgWidth := s.cfgWidth } = s) ∧
    ((after 0x0C).cfgHeight.toNat = v.toNat % 2 ^ 16 ∧ { after 0x0C with cfgHeight := s.cfgHeight } = s) ∧
    ((after 0x10).cfgChannels.toNat = v.toNat % 2 ^ 3 ∧ { after 0x10 with cfgChannels := s.cfgChannels } = s) ∧
    (∀ o, o % 4 = 0 → 0x40 ≤ o → o ≤ 0x68 →
      (after o).hdrInfo = 0 ∧ { after o with hdr := s.hdr, hdrInfo := s.hdrInfo } = s) ∧
    let hdr := fun o => (after o).hdr
    let h := s.hdr
    ((hdr 0x40).idlen.toNat = v.toNat % 2 ^ 8 ∧ { hdr 0x40 with idlen := h.idlen } = h) ∧
    ((hdr 0x44).cmaptype.toNat = v.toNat % 2 ^ 8 ∧ { hdr 0x44 with cmaptype := h.cmaptype } = h) ∧
    ((hdr 0x48).imgtype.toNat = v.toNat % 2 ^ 8 ∧ { hdr 0x48 with imgtype := h.imgtype } = h) ∧
    ((hdr 0x4C).cmap = ⟨v.extractLsb' 0 8, v.extractLsb' 8 8, v.extractLsb' 16 8, v.extractLsb' 24 8, h.cmap.c4⟩ ∧
      { hdr 0x4C with cmap := h.cmap } = h) ∧
    ((hdr 0x50).cmap.c4.toNat = v.toNat % 2 ^ 8 ∧ { (hdr 0x50).cmap with c4 := h.cmap.c4 } = h.cmap ∧
      { hdr 0x50 with cmap := h.cmap } = h) ∧
    ((hdr 0x54).xorg.toNat = v.toNat % 2 ^ 16 ∧ { hdr 0x54 with xorg := h.xorg } = h) ∧
    ((hdr 0x58).yorg.toNat = v.toNat % 2 ^ 16 ∧ { hdr 0x58 with yorg := h.yorg } = h) ∧
    ((hdr 0x5C).width.toNat = v.toNat % 2 ^ 16 ∧ { hdr 0x5C with width := h.width } = h) ∧
    ((hdr 0x60).height.toNat = v.toNat % 2 ^ 16 ∧ { hdr 0x60 with height := h.height } = h) ∧
    ((hdr 0x64).bpp.toNat = v.toNat % 2 ^ 8 ∧ { hdr 0x64 with bpp := h.bpp } = h) ∧
    ((hdr 0x68).desc.toNat = v.toNat % 2 ^ 8 ∧ { hdr 0x68 with desc := h.desc } = h)

/-- PBUF_CAP (R28): the two words together are `PBUF_BYTES` saturated at `2^64 - 1`, and no step changes them. -/
def Obligations.PbufCapIsConstant : Prop :=
  (∀ s : State, (readReg .pbufCapHi s).toNat * 2 ^ 32 + (readReg .pbufCapLo s).toNat =
      min s.params.pbufBytes (2 ^ 64 - 1)) ∧
    ∀ s t : State, step s = .next t → readReg .pbufCapLo t = readReg .pbufCapLo s ∧
      readReg .pbufCapHi t = readReg .pbufCapHi s

/-- `HostTake` and `HostPut` while BUSY = 0 (R44): the bytes taken and the position after them, the bytes the sink
accepts, and no register changed. That a HostPut beyond the limit drops the bytes that do not fit and gives the host no
answer is the model's choice (log entry 19). -/
def Obligations.HostTakeAndPut : Prop :=
  ∀ (s : State) (k : Nat) (bs : List Byte), s.busy = false →
    hostAccess (.take k) s = (.bytes ((s.params.src.drop s.srcPos).take k),
      { s with srcPos := s.srcPos + min k (s.params.src.length - s.srcPos) }) ∧
    ∃ t, hostAccess (.put bs) s = (.nothing, t) ∧ { t with sinkOut := s.sinkOut } = s ∧
      (s.params.sinkLimit = none → t.sinkOut = s.sinkOut ++ bs) ∧
      (∀ limit, s.params.sinkLimit = some limit → t.sinkOut = s.sinkOut ++ bs.take (limit - s.sinkOut.length))

/-- `SrcRead()` and `SinkWrite(b)` (R42, R43). -/
def Obligations.StreamPrimitives : Prop :=
  ∀ (s : State) (b : Byte),
    (∀ h : s.srcPos < s.params.src.length,
      srcRead s = (.byte s.params.src[s.srcPos], { s with srcPos := s.srcPos + 1, inCount := s.inCount + 1 })) ∧
    (s.params.src.length ≤ s.srcPos → srcRead s = (.ended s.params.term, s)) ∧
    ((∀ limit, s.params.sinkLimit = some limit → s.sinkOut.length < limit) →
      sinkWrite b s = (true, { s with sinkOut := s.sinkOut ++ [b], outCount := s.outCount + 1 })) ∧
    (∀ limit, s.params.sinkLimit = some limit → limit ≤ s.sinkOut.length → sinkWrite b s = (false, s))

/-- One host turn on the script's register and control-flow lines (R74), whatever BUSY is: `RD` gives `last` the
register's value while BUSY = 0, and STATUS always (the poll of `WAITIDLE`, R75); `WR` has the write's effect while
BUSY = 0; any other `RD`, and any `WR`, while BUSY = 1 sets FAULT and has no other effect on the block (R132); a label
names the next line. The model's choices (log entries 7 and 11): the script goes on after an access that set FAULT, with
`last` as it was; a label takes a turn of its own; a script that has ended does nothing; a jump to a label that no line
bears stops the machine. -/
def Obligations.ScriptTurns : Prop :=
  (∀ s : State, s.host.script[s.host.pc]? = none → hostStep s = .next s) ∧
  ∀ (s : State) (line : ScriptLine), s.host.script[s.host.pc]? = some line →
    let onward : HostState := { s.host with pc := s.host.pc + 1, sub := 0 }
    (∀ r, line = .rd r → (s.busy = false ∨ r = .status) →
      hostStep s = .next { s with host := { onward with last := readReg r s } }) ∧
    (∀ r v, line = .wr r v → s.busy = false → hostStep s = .next { writeReg r v s with host := onward }) ∧
    (s.busy = true → ((∃ r, r ≠ .status ∧ line = .rd r) ∨ ∃ r v, line = .wr r v) →
      ∃ t, hostStep s = .next t ∧ t.faultMark ≠ none ∧ t.host = onward ∧
        { t with faultMark := s.faultMark, host := s.host } = s) ∧
    (∀ a, line = .access a → ∃ t, hostStep s = .next t ∧ { t with host := s.host } = (hostAccess a s).2 ∧
      t.host.script = s.host.script ∧ t.host.pc = s.host.pc + 1 ∧ t.host.sub = 0) ∧
    (∀ l, line = .label l → hostStep s = .next { s with host := onward }) ∧
    (∀ m l, line = .bnz m l → s.host.last &&& m = 0 → hostStep s = .next { s with host := onward }) ∧
    (∀ m l, (line = .bnz m l ∧ s.host.last &&& m ≠ 0) ∨ line = .jmp l →
      (∀ k, findLabel s.host.script l = some k → hostStep s = .next { s with host := { s.host with pc := k, sub := 0 } }) ∧
      (findLabel s.host.script l = none → hostStep s = .fault (.undefinedLabel l))) ∧
    (line = .halt → hostStep s = .next s)

/-- One host turn on the script's stream and buffer lines (R74, R40, R44), whatever BUSY is: `TAKE` and `PUT` are one
host action, `PBW` and `PBR` are one for each byte, the line is done with its last byte, and the block's state after
the turn is that of the one host access, a hazard's included (R132, R133). The model's choices (log entries 7 and 11): the
bytes obtained stand in `host.got`, an access that set FAULT gives none and the script goes on, and a line of no byte
takes one turn. -/
def Obligations.ScriptTransfers : Prop :=
  ∀ (s : State) (line : ScriptLine), s.host.script[s.host.pc]? = some line →
    let onward : HostState := { s.host with pc := s.host.pc + 1, sub := 0 }
    let byteDone := fun n : Nat => if s.host.sub + 1 < n then { s.host with sub := s.host.sub + 1 } else onward
    (∀ k, line = .take k → ∃ t, hostStep s = .next t ∧ { t with host := s.host } = (hostAccess (.take k) s).2 ∧
      t.host = { onward with got := if s.busy then s.host.got else s.remaining.take k }) ∧
    (∀ bs, line = .put bs → ∃ t, hostStep s = .next t ∧ { t with host := s.host } = (hostAccess (.put bs) s).2 ∧
      t.host = onward) ∧
    (∀ addr bs, line = .pbw addr bs →
      (∀ b, bs[s.host.sub]? = some b → ∃ t, hostStep s = .next t ∧
        { t with host := s.host } = (hostAccess (.bufWrite (addr + s.host.sub) b) s).2 ∧
        t.host = byteDone bs.length) ∧
      (bs.length ≤ s.host.sub → hostStep s = .next { s with host := onward })) ∧
    (∀ addr n, line = .pbr addr n →
      (s.host.sub < n → ∃ t, hostStep s = .next t ∧
        { t with host := s.host } = (hostAccess (.bufRead (addr + s.host.sub)) s).2 ∧
        t.host = { byteDone n with
          got := if s.busy = true ∨ s.params.pbufBytes ≤ addr + s.host.sub then s.host.got
            else (if s.host.sub = 0 then [] else s.host.got) ++ [s.pbuf.read (addr + s.host.sub)] }) ∧
      (n ≤ s.host.sub → hostStep s = .next { s with host := onward }))

/-! ## The whole machine -/

/-- An engine that is idle does nothing on its turn. R126 says that idle is left only by a command issue and that every
register, HDR, PBUF and the stream positions survive it unchanged; that an idle engine can have a turn at all, which
changes nothing, is the model's choice (log entry 3). -/
def Obligations.IdleEngineKeepsState : Prop :=
  ∀ (s : State) (ts : List Turn), s.eng.op = .idle → s.turns = .engine :: ts → step s = .next { s with turns := ts }

/-- Pixels (R37, R38): pixel `i` is the `C` bytes at `i*C .. i*C+C-1`, two pixels are equal exactly when they are
equal byte for byte, and the pixel at column `x` and row `y` is pixel `x + y*W`. -/
def Obligations.PixelsAreComparedByteForByte : Prop :=
  ∀ (s : State) (i j : Nat), (s.px i).length = s.channels ∧
    (s.px i = s.px j ↔ ∀ k, k < s.channels → s.pbuf.read (i * s.channels + k) = s.pbuf.read (j * s.channels + k)) ∧
    (∀ k, k < s.channels → (s.px i)[k]? = some (s.pbuf.read (i * s.channels + k))) ∧
    ∀ x y k, k < s.channels →
      (s.px (pixelIndex s.width x y))[k]? = some (s.pbuf.read ((x + y * s.cfgWidth.toNat) * s.channels + k))

/-- The launch state satisfies the invariant, for every parameters and every PBUF contents that fits them (R127). -/
def Obligations.InvariantAtLaunch : Prop :=
  (∀ (p : Params) (m : Memory), 1 ≤ p.pbufBytes → m.wf → (∀ c ∈ m, c.1 < p.pbufBytes) → Invariant (State.launch p m)) ∧
    Invariant State.reset

/-- Every step keeps the invariant (R20 to R22, R33, R36, R43): from every state that meets it, whatever turn is taken.
R31 says that ENG.stage is empty between two steps of a running RLE command, and that both buffers are empty after
reset; that both are empty after every step is the model's choice (log entry 6), and the phases of `ENG.op` that the
invariant speaks of are the model's (log entry 4). -/
def Obligations.InvariantKeptByStep : Prop :=
  ∀ s t : State, Invariant s → step s = .next t → Invariant t

/-- FAULT is never cleared, not even by reset, and keeps its reason (R35; that the first reason is kept is the model's
choice, log entry 7). -/
def Obligations.FaultIsNeverCleared : Prop :=
  ∀ (s t : State) (h : Hazard), step s = .next t → s.faultMark = some h → t.faultMark = some h

/-- The machine stops in one case only, a host script's jump to a label that no line bears (the model's choice, log
entry 11); with a script whose jumps all have their labels every step answers a next state, with the same
script (after a reset too: log entry 20). -/
def Obligations.StepStopsOnlyAtMissingLabel : Prop :=
  (∀ s : State, (∃ t, step s = .next t) ∨
    ∃ l, step s = .fault (.undefinedLabel l) ∧ nextTurn s = .host ∧ findLabel s.host.script l = none) ∧
  ∀ s : State, scriptWf s.host.script = true → ∃ t, step s = .next t ∧ t.host.script = s.host.script

/-- The launch data never changes, the source position never falls, and the sink only grows (R7, R34, R42, R43). -/
def Obligations.StreamsOnlyAdvance : Prop :=
  ∀ s t : State, step s = .next t → t.params = s.params ∧ s.srcPos ≤ t.srcPos ∧ s.sinkOut <+: t.sinkOut

/-- What reaches PBUF (R39): of the engine's steps only those of RLE_DECODE past its setup write it, and only inside
the image; of a host's accesses only a write through the buffer port. For a setup of RLE_DECODE that ends with BAD_CONFIG
this is the model's reading (log entry 10: R17 and R88 against R94). -/
def Obligations.PbufWriters : Prop :=
  (∀ (s t : State) (a : Nat), Invariant s → engineStep s = .next t →
    (s.eng.op ≠ .decoding → t.pbuf = s.pbuf) ∧
    (s.pixels * s.channels ≤ a → t.pbuf.read a = s.pbuf.read a)) ∧
  (∀ (s : State) (act : HostAction), (∀ a v, act ≠ .bufWrite a v) → (hostAccess act s).2.pbuf = s.pbuf)

/-- What writes HDRINFO (R23): of the engine's steps only those of HDR_PARSE, HDR_CHECK and HDR_BUILD, and of a host's
accesses only a write to an HDR_* register, which clears it. -/
def Obligations.HdrInfoWriters : Prop :=
  (∀ s t : State, engineStep s = .next t → t.hdrInfo ≠ s.hdrInfo →
    s.eng.op = .ready .hdrParse ∨ s.eng.op = .ready .hdrCheck ∨ ∃ rle vflip, s.eng.op = .ready (.hdrBuild rle vflip)) ∧
  (∀ (s : State) (act : HostAction), (hostAccess act s).2.hdrInfo ≠ s.hdrInfo →
    (hostAccess act s).2.hdrInfo = 0 ∧ ∃ o v, act = .regWrite 32 o v ∧ 0x40 ≤ o ∧ o ≤ 0x68) ∧
  (∀ (s : State) (r : Reg) (v : Word), s.busy = false → 0x40 ≤ r.offset →
    (hostAccess (.regWrite 32 r.offset v) s).2.hdrInfo = 0)

/-- What writes STATUS (R21): BUSY is set only by a command issue, a 32-bit write at offset 0x00 by a host on whose turn
the step is, and cleared only by the end of a command or by reset; DONE and ERR are set only by the end of a command and
cleared only by an issue or by reset. -/
def Obligations.StatusWriters : Prop :=
  ∀ s t : State, Invariant s → step s = .next t →
    let line := s.host.script[s.host.pc]?
    let issued := s.busy = false ∧ ∃ w, t.status = Status.issued (opField w) ∧ t.eng.op = .ready (decodeCommand w) ∧
      (nextTurn s = .otherHost (.regWrite 32 0x00 w) ∨
        (nextTurn s = .host ∧ (line = some (.wr .cmd w) ∨ line = some (.access (.regWrite 32 0x00 w)))))
    let wasReset := nextTurn s = .reset ∧ t.status = 0
    let ended := nextTurn s = .engine ∧ s.busy = true ∧ t.busy = false ∧ Status.done t.status = true ∧ t.eng.op = .idle
    (s.busy = false → t.busy = true → issued) ∧ (s.busy = true → t.busy = false → ended ∨ wasReset) ∧
      (Status.done s.status = false → Status.done t.status = true → ended) ∧
      (Status.err s.status = false → Status.err t.status = true → ended) ∧
      (Status.done s.status = true → Status.done t.status = false → issued ∨ wasReset) ∧
      (Status.err s.status = true → Status.err t.status = false → issued ∨ wasReset) ∧
      (t.status ≠ s.status → issued ∨ ended ∨ wasReset) ∧
      StatusOk t.status

/-- Every command ends (R136, D29): from a busy machine, however the hosts' accesses interleave with the engine's steps
and as long as nothing resets the block, the engine takes at most `N + 2` steps before the machine is idle. That a run
to idle exists rests on the default turn of log entry 3 once the chosen turns are taken. -/
def Obligations.EveryCommandEnds : Prop :=
  ∀ s : State, Invariant s → s.busy = true →
    (∀ k t, CommandRun k s t → k ≤ s.pixels + 2) ∧
    (TurnsLetEnd s → ∃ k t, CommandRun k s t ∧ t.busy = false)

/-- Reset (R127, R128): every register, HDR and ENG take their reset values; the source, the sink, FAULT and the launch
data stay, and so does PBUF, but for the image area of a decode that the reset abandons past its setup step (that
this area is then unspecified is the model's reading, log entry 9). That the host script stays where it was is the
model's choice (log entry 20). -/
def Obligations.ResetEffect : Prop :=
  ∀ s : State, s.turns.head? = some .reset → ∃ t, step s = .next t ∧
    t.status = 0 ∧ t.cfgWidth = 0 ∧ t.cfgHeight = 0 ∧ t.cfgChannels = 0 ∧ t.hdrInfo = 0 ∧ t.pixCount = 0 ∧
    t.pktCount = 0 ∧ t.inCount = 0 ∧ t.outCount = 0 ∧ t.hdr = Header.zero ∧ t.eng = ⟨.idle, 0, [], []⟩ ∧
    t.srcPos = s.srcPos ∧ t.sinkOut = s.sinkOut ∧ t.faultMark = s.faultMark ∧ t.params = s.params ∧ t.host = s.host ∧
    (s.eng.op ≠ .decoding → t.pbuf = s.pbuf) ∧
    (∀ a, s.pixels * s.channels ≤ a → t.pbuf.read a = s.pbuf.read a)

/-- The launch state (R127, V-S1): every register reads 0 but PBUF_CAP, the engine is idle, the streams are at their
start and FAULT is clear. -/
def Obligations.LaunchState : Prop :=
  ∀ (p : Params) (m : Memory),
    (∀ r, r ≠ .pbufCapLo → r ≠ .pbufCapHi → readReg r (State.launch p m) = 0) ∧
    (State.launch p m).eng = ⟨.idle, 0, [], []⟩ ∧ (State.launch p m).srcPos = 0 ∧ (State.launch p m).sinkOut = [] ∧
    (State.launch p m).faultMark = none ∧ (State.launch p m).pbuf = m ∧ (State.launch p m).params = p

/-! ## The second host -/

/-- The turn of a second host (R121, R124, R132): while BUSY = 0 its access has the effect on the block that the same
access has when the first host makes it, and the first host's script does not see it; while BUSY = 1 it sets FAULT and
has no other effect. That the second host is the one that is not the script's, also while a command runs that it issued
itself, and that an access while BUSY = 0 is like the first host's, are the model's (log entry 12), and
so is the reason recorded while BUSY = 1, an access hazard or not (log entry 7). -/
def Obligations.SecondHostAccess : Prop :=
  ∀ (s : State) (a : HostAction) (ts : List Turn), s.turns = .otherHost a :: ts →
    let u : State := { s with turns := ts }
    (s.busy = false → step s = .next (hostAccess a u).2 ∧ (hostAccess a u).2.host = s.host) ∧
    (s.busy = true → ∃ t, step s = .next t ∧ t.faultMark = s.faultMark.or (some .busySecondHost) ∧
      { t with faultMark := s.faultMark } = u)
end

