-- ==== Sys2Proof/Laws/Encoder.lean ====
section
/-! SUPPORT. The bounds of the encoder's choices (spec/42_rle_encode.md R101 to R104): how many pixels a packet takes
and how many bytes it has. -/

namespace Sys2Proof.Machine

theorem runFrom_bounds (px : Nat → Pixel) (N p : Nat) : ∀ k L, p + L ≤ N →
    L ≤ runFrom px N p k L ∧ runFrom px N p k L ≤ L + k ∧ p + runFrom px N p k L ≤ N := by
  intro k
  induction k with
  | zero => intro L h; simp [runFrom, h]
  | succ k ih =>
    intro L h
    unfold runFrom
    split
    · have := ih (L + 1) (by omega); omega
    · omega

theorem rawFrom_bounds (px : Nat → Pixel) (N p : Nat) : ∀ j k, p + k ≤ N →
    k ≤ rawFrom px N p j k ∧ rawFrom px N p j k ≤ k + j ∧ p + rawFrom px N p j k ≤ N := by
  intro j
  induction j with
  | zero => intro k h; simp [rawFrom, h]
  | succ j ih =>
    intro k h
    unfold rawFrom
    split
    · split
      · omega
      · have := ih (k + 1) (by omega); omega
    · omega

/-- The bytes of a range of `C`-byte pixels. -/
theorem length_pixelRange (px : Nat → Pixel) (p k C : Nat) (hpx : ∀ i, (px i).length = C) :
    (pixelRange px p k).length = k * C := by
  have : List.map List.length (List.map (fun j => px (p + j)) (List.range k)) = List.replicate k C := by
    rw [List.eq_replicate_iff]; simp [hpx]
  rw [pixelRange, List.length_flatten, this]
  simp

/-- The packet chosen at a pixel of the image has 1 to 128 pixels, ends inside the image, and has at least one pixel's
bytes and at most its own pixels' bytes after its control byte. -/
theorem choosePacket_bounds (px : Nat → Pixel) (N p C : Nat) (hpx : ∀ i, (px i).length = C) (h : p < N) :
    1 ≤ (choosePacket px N p).1 ∧ (choosePacket px N p).1 ≤ 128 ∧ p + (choosePacket px N p).1 ≤ N ∧
      1 + C ≤ (choosePacket px N p).2.length ∧
      (choosePacket px N p).2.length ≤ 1 + (choosePacket px N p).1 * C := by
  unfold choosePacket
  split
  · rename_i hs
    have hp : p + 1 < N := by simp [startsRun] at hs; exact hs.1
    obtain ⟨h1, h2, h3⟩ : _ ∧ _ ∧ _ := runFrom_bounds px N p 126 2 (by omega)
    change 2 ≤ runLength px N p at h1
    change runLength px N p ≤ _ at h2
    change p + runLength px N p ≤ N at h3
    have : C ≤ runLength px N p * C := Nat.le_mul_of_pos_left _ (by omega)
    simp only [List.length_cons, hpx]
    omega
  · obtain ⟨h1, h2, h3⟩ : _ ∧ _ ∧ _ := rawFrom_bounds px N p 127 1 (by omega)
    change 1 ≤ rawLength px N p at h1
    change rawLength px N p ≤ _ at h2
    change p + rawLength px N p ≤ N at h3
    have : C ≤ rawLength px N p * C := Nat.le_mul_of_pos_left _ (by omega)
    simp only [List.length_cons, length_pixelRange px p _ C hpx]
    omega

end Sys2Proof.Machine
end

