-- ==== Sys2Proof/Laws/Flags.lean ====
section
/-! SUPPORT. The small lemmas of the status words: the fields of a packed STATUS, and of HDRINFO; the bounds of the
DETAIL computations; the STATUS words a command issue and a command's end leave. -/

namespace Sys2Proof.Machine

/-- The number of an appended pair. -/
theorem toNat_append_eq {m n : Nat} (x : BitVec m) (y : BitVec n) :
    (x ++ y).toNat = x.toNat * 2 ^ n + y.toNat := by
  rw [BitVec.toNat_append, ← Nat.shiftLeft_add_eq_or_of_lt y.isLt, Nat.shiftLeft_eq]

/-- A bit of a vector, from its number. -/
theorem getLsbD_eq_decide {n : Nat} (x : BitVec n) (i : Nat) : x.getLsbD i = decide (x.toNat / 2 ^ i % 2 = 1) := by
  rw [← BitVec.testBit_toNat, Nat.testBit_eq_decide_div_mod_eq]

/-- A field of a vector, from its number. -/
theorem toNat_extract {n : Nat} (x : BitVec n) (i k : Nat) :
    (x.extractLsb' i k).toNat = x.toNat / 2 ^ i % 2 ^ k := by
  simp [BitVec.extractLsb'_toNat, Nat.shiftRight_eq_div_pow]

section
variable (o d : Byte) (c : BitVec 4) (e n b : Bool)

/-- STATUS as a number (R20). -/
theorem Status.toNat_pack :
    (Status.pack o d c e n b).toNat =
      o.toNat * 65536 + d.toNat * 256 + c.toNat * 16 + e.toNat * 4 + n.toNat * 2 + b.toNat := by
  simp only [Status.pack, toNat_append_eq, BitVec.toNat_ofBool, BitVec.toNat_ofNat]
  omega

@[simp] theorem Status.busy_pack : Status.busy (Status.pack o d c e n b) = b := by
  have ho := o.isLt; have hd := d.isLt; have hc := c.isLt
  rw [Status.busy, getLsbD_eq_decide, Status.toNat_pack]
  cases e <;> cases n <;> cases b <;> simp <;> omega

@[simp] theorem Status.done_pack : Status.done (Status.pack o d c e n b) = n := by
  rw [Status.done, getLsbD_eq_decide, Status.toNat_pack]
  cases e <;> cases n <;> cases b <;> simp <;> omega

@[simp] theorem Status.err_pack : Status.err (Status.pack o d c e n b) = e := by
  rw [Status.err, getLsbD_eq_decide, Status.toNat_pack]
  cases e <;> cases n <;> cases b <;> simp <;> omega

@[simp] theorem Status.errCode_pack : Status.errCode (Status.pack o d c e n b) = c := by
  apply BitVec.eq_of_toNat_eq
  rw [Status.errCode, toNat_extract, Status.toNat_pack]
  have := c.isLt
  cases e <;> cases n <;> cases b <;> simp <;> omega

@[simp] theorem Status.detail_pack : Status.detail (Status.pack o d c e n b) = d := by
  apply BitVec.eq_of_toNat_eq
  rw [Status.detail, toNat_extract, Status.toNat_pack]
  have := c.isLt; have := d.isLt
  cases e <;> cases n <;> cases b <;> simp <;> omega

@[simp] theorem Status.lastOp_pack : Status.lastOp (Status.pack o d c e n b) = o := by
  apply BitVec.eq_of_toNat_eq
  rw [Status.lastOp, toNat_extract, Status.toNat_pack]
  have := c.isLt; have := d.isLt; have := o.isLt
  cases e <;> cases n <;> cases b <;> simp <;> omega

/-- The reserved bits of a packed STATUS are 0 (R20). -/
theorem Status.reserved_pack :
    (Status.pack o d c e n b).getLsbD 3 = false ∧ (Status.pack o d c e n b).extractLsb' 24 8 = 0#8 := by
  have hc := c.isLt; have hd := d.isLt; have ho := o.isLt
  constructor
  · rw [getLsbD_eq_decide, Status.toNat_pack]
    cases e <;> cases n <;> cases b <;> simp <;> omega
  · apply BitVec.eq_of_toNat_eq
    rw [toNat_extract, Status.toNat_pack]
    cases e <;> cases n <;> cases b <;> simp <;> omega

end

/-! ### The STATUS words of issue and end -/

/-- STATUS after an issue obeys the rules of STATUS (R20, R110). -/
theorem StatusOk.issued (op : Byte) : StatusOk (Status.issued op) where
  reserved := Status.reserved_pack ..
  busy _ := by simp [Status.issued]
  err h := by simp [Status.issued] at h
  clear _ := by simp [Status.issued]
  detail := by simp [Status.issued]

/-- STATUS after `complete()` obeys the rules of STATUS (R20, R111). -/
theorem StatusOk.completed (w : Word) : StatusOk (Status.completed w) where
  reserved := Status.reserved_pack ..
  busy h := by simp [Status.completed] at h
  err h := by simp [Status.completed] at h
  clear _ := by simp [Status.completed]
  detail := by simp [Status.completed]

theorem ErrorKind.code_bounds (e : ErrorKind) : e.code ≠ 0#4 ∧ e.code.toNat ≤ 8 := by
  cases e <;> decide

/-- STATUS after `raise` obeys the rules of STATUS, where the detail has five bits (R20, R112, R114). -/
theorem StatusOk.raised (w : Word) (e : ErrorKind) (d : Byte) (hd : d.toNat < 32) :
    StatusOk (Status.raised w e.code d) where
  reserved := Status.reserved_pack ..
  busy h := by simp [Status.raised] at h
  err _ := by simpa [Status.raised] using e.code_bounds
  clear h := by simp [Status.raised] at h
  detail := by
    apply BitVec.eq_of_toNat_eq
    rw [toNat_extract]
    simp only [Status.raised, Status.detail_pack]
    simp
    omega

/-! ### The DETAIL computations have five bits (R114) -/

theorem sizeDetail_lt (W H C : Nat) : (sizeDetail W H C).toNat < 8 := by
  unfold sizeDetail
  split <;> split <;> split <;> decide

theorem configDetail_lt (W H C cap : Nat) : (configDetail W H C cap).toNat < 32 := by
  unfold configDetail sizeDetail
  split <;> split <;> split <;> split <;> decide

theorem headerDetail_lt (h : Header) : (headerDetail h).toNat < 32 := by
  unfold headerDetail
  split <;> split <;> split <;> split <;> decide

theorem illegalDetail_lt (w : Word) : (illegalDetail w).toNat < 32 := by
  unfold illegalDetail
  split <;> split <;> split <;> decide

/-! ### What a zero DETAIL means -/

/-- The configuration is legal exactly when `cfg_detail` is 0 (R17). -/
theorem configDetail_eq_zero {W H C cap : Nat} :
    configDetail W H C cap = 0 ↔ W ≠ 0 ∧ H ≠ 0 ∧ (C = 1 ∨ C = 3 ∨ C = 4) ∧ W * H * C ≤ cap := by
  unfold configDetail sizeDetail
  by_cases h1 : W = 0 <;> by_cases h2 : H = 0 <;> by_cases h3 : C = 1 ∨ C = 3 ∨ C = 4 <;>
    by_cases h4 : W * H * C > cap <;> simp_all

/-- A header passes every check exactly when its detail is 0 (R82). -/
theorem headerDetail_eq_zero {h : Header} :
    headerDetail h = 0 ↔ h.width ≠ 0 ∧ h.height ≠ 0 ∧ legalBpp h.bpp = true ∧ legalType h.imgtype = true := by
  unfold headerDetail
  by_cases h1 : h.width = 0 <;> by_cases h2 : h.height = 0 <;> cases h3 : legalBpp h.bpp <;>
    cases h4 : legalType h.imgtype <;> simp_all

end Sys2Proof.Machine
end

