-- ==== Sys2Proof/Laws/State.lean ====
section
/-! SUPPORT. The small lemmas of State: for every shared update, what each field is afterwards, all true by rfl. -/

namespace Sys2Proof.Machine

variable (s : State) (e : ErrorKind) (d : Byte) (w : Word) (h : Header) (z : Hazard) (n : Nat) (bs : List Byte)

/-! ### ENG -/

@[simp] theorem unstage_op (g : Eng) : g.unstage.op = g.op := rfl
@[simp] theorem unstage_pcur (g : Eng) : g.unstage.pcur = g.pcur := rfl
@[simp] theorem unstage_stage (g : Eng) : g.unstage.stage = [] := rfl
@[simp] theorem unstage_hstage (g : Eng) : g.unstage.hstage = [] := rfl
@[simp] theorem push_op (g : Eng) (buf : StageBuffer) : (g.push buf bs).op = g.op := by cases buf <;> rfl
@[simp] theorem push_pcur (g : Eng) (buf : StageBuffer) : (g.push buf bs).pcur = g.pcur := by cases buf <;> rfl
@[simp] theorem push_packet_stage (g : Eng) : (g.push .packet bs).stage = g.stage ++ bs := rfl
@[simp] theorem push_header_hstage (g : Eng) : (g.push .header bs).hstage = g.hstage ++ bs := rfl
@[simp] theorem push_unstage (g : Eng) (buf : StageBuffer) : (g.push buf bs).unstage = g.unstage := by cases buf <;> rfl
@[simp] theorem unstage_unstage (g : Eng) : g.unstage.unstage = g.unstage := rfl
@[simp] theorem push_nil (g : Eng) (buf : StageBuffer) : g.push buf [] = g := by cases buf <;> simp [Eng.push]
@[simp] theorem push_push (g : Eng) (buf : StageBuffer) (cs : List Byte) :
    (g.push buf bs).push buf cs = g.push buf (bs ++ cs) := by cases buf <;> simp [Eng.push]

/-! ### complete -/

@[simp] theorem complete_params : (complete s).params = s.params := rfl
@[simp] theorem complete_status : (complete s).status = Status.completed s.status := rfl
@[simp] theorem complete_cfgWidth : (complete s).cfgWidth = s.cfgWidth := rfl
@[simp] theorem complete_cfgHeight : (complete s).cfgHeight = s.cfgHeight := rfl
@[simp] theorem complete_cfgChannels : (complete s).cfgChannels = s.cfgChannels := rfl
@[simp] theorem complete_hdrInfo : (complete s).hdrInfo = s.hdrInfo := rfl
@[simp] theorem complete_pixCount : (complete s).pixCount = s.pixCount := rfl
@[simp] theorem complete_pktCount : (complete s).pktCount = s.pktCount := rfl
@[simp] theorem complete_inCount : (complete s).inCount = s.inCount := rfl
@[simp] theorem complete_outCount : (complete s).outCount = s.outCount := rfl
@[simp] theorem complete_hdr : (complete s).hdr = s.hdr := rfl
@[simp] theorem complete_pbuf : (complete s).pbuf = s.pbuf := rfl
@[simp] theorem complete_eng : (complete s).eng = { s.eng with op := .idle } := rfl
@[simp] theorem complete_srcPos : (complete s).srcPos = s.srcPos := rfl
@[simp] theorem complete_sinkOut : (complete s).sinkOut = s.sinkOut := rfl
@[simp] theorem complete_faultMark : (complete s).faultMark = s.faultMark := rfl
@[simp] theorem complete_host : (complete s).host = s.host := rfl
@[simp] theorem complete_turns : (complete s).turns = s.turns := rfl
@[simp] theorem complete_draws : (complete s).draws = s.draws := rfl

/-! ### raise -/

@[simp] theorem raise_params : (raise e d s).params = s.params := rfl
@[simp] theorem raise_status : (raise e d s).status = Status.raised s.status e.code d := rfl
@[simp] theorem raise_cfgWidth : (raise e d s).cfgWidth = s.cfgWidth := rfl
@[simp] theorem raise_cfgHeight : (raise e d s).cfgHeight = s.cfgHeight := rfl
@[simp] theorem raise_cfgChannels : (raise e d s).cfgChannels = s.cfgChannels := rfl
@[simp] theorem raise_hdrInfo : (raise e d s).hdrInfo = s.hdrInfo := rfl
@[simp] theorem raise_pixCount : (raise e d s).pixCount = s.pixCount := rfl
@[simp] theorem raise_pktCount : (raise e d s).pktCount = s.pktCount := rfl
@[simp] theorem raise_inCount : (raise e d s).inCount = s.inCount := rfl
@[simp] theorem raise_outCount : (raise e d s).outCount = s.outCount := rfl
@[simp] theorem raise_hdr : (raise e d s).hdr = s.hdr := rfl
@[simp] theorem raise_pbuf : (raise e d s).pbuf = s.pbuf := rfl
@[simp] theorem raise_eng : (raise e d s).eng = { s.eng with op := .idle } := rfl
@[simp] theorem raise_srcPos : (raise e d s).srcPos = s.srcPos := rfl
@[simp] theorem raise_sinkOut : (raise e d s).sinkOut = s.sinkOut := rfl
@[simp] theorem raise_faultMark : (raise e d s).faultMark = s.faultMark := rfl
@[simp] theorem raise_host : (raise e d s).host = s.host := rfl
@[simp] theorem raise_turns : (raise e d s).turns = s.turns := rfl
@[simp] theorem raise_draws : (raise e d s).draws = s.draws := rfl

/-! ### issue -/

@[simp] theorem issue_params : (issue w s).params = s.params := rfl
@[simp] theorem issue_status : (issue w s).status = Status.issued (opField w) := rfl
@[simp] theorem issue_cfgWidth : (issue w s).cfgWidth = s.cfgWidth := rfl
@[simp] theorem issue_cfgHeight : (issue w s).cfgHeight = s.cfgHeight := rfl
@[simp] theorem issue_cfgChannels : (issue w s).cfgChannels = s.cfgChannels := rfl
@[simp] theorem issue_hdrInfo : (issue w s).hdrInfo = s.hdrInfo := rfl
@[simp] theorem issue_pixCount : (issue w s).pixCount = 0 := rfl
@[simp] theorem issue_pktCount : (issue w s).pktCount = 0 := rfl
@[simp] theorem issue_inCount : (issue w s).inCount = 0 := rfl
@[simp] theorem issue_outCount : (issue w s).outCount = 0 := rfl
@[simp] theorem issue_hdr : (issue w s).hdr = s.hdr := rfl
@[simp] theorem issue_pbuf : (issue w s).pbuf = s.pbuf := rfl
@[simp] theorem issue_eng : (issue w s).eng = { s.eng with op := .ready (decodeCommand w) } := rfl
@[simp] theorem issue_srcPos : (issue w s).srcPos = s.srcPos := rfl
@[simp] theorem issue_sinkOut : (issue w s).sinkOut = s.sinkOut := rfl
@[simp] theorem issue_faultMark : (issue w s).faultMark = s.faultMark := rfl
@[simp] theorem issue_host : (issue w s).host = s.host := rfl
@[simp] theorem issue_turns : (issue w s).turns = s.turns := rfl
@[simp] theorem issue_draws : (issue w s).draws = s.draws := rfl

/-! ### setHdr -/

@[simp] theorem setHdr_params : (setHdr h s).params = s.params := rfl
@[simp] theorem setHdr_status : (setHdr h s).status = s.status := rfl
@[simp] theorem setHdr_cfgWidth : (setHdr h s).cfgWidth = s.cfgWidth := rfl
@[simp] theorem setHdr_cfgHeight : (setHdr h s).cfgHeight = s.cfgHeight := rfl
@[simp] theorem setHdr_cfgChannels : (setHdr h s).cfgChannels = s.cfgChannels := rfl
@[simp] theorem setHdr_hdrInfo : (setHdr h s).hdrInfo = 0 := rfl
@[simp] theorem setHdr_pixCount : (setHdr h s).pixCount = s.pixCount := rfl
@[simp] theorem setHdr_pktCount : (setHdr h s).pktCount = s.pktCount := rfl
@[simp] theorem setHdr_inCount : (setHdr h s).inCount = s.inCount := rfl
@[simp] theorem setHdr_outCount : (setHdr h s).outCount = s.outCount := rfl
@[simp] theorem setHdr_hdr : (setHdr h s).hdr = h := rfl
@[simp] theorem setHdr_pbuf : (setHdr h s).pbuf = s.pbuf := rfl
@[simp] theorem setHdr_eng : (setHdr h s).eng = s.eng := rfl
@[simp] theorem setHdr_srcPos : (setHdr h s).srcPos = s.srcPos := rfl
@[simp] theorem setHdr_sinkOut : (setHdr h s).sinkOut = s.sinkOut := rfl
@[simp] theorem setHdr_faultMark : (setHdr h s).faultMark = s.faultMark := rfl
@[simp] theorem setHdr_host : (setHdr h s).host = s.host := rfl
@[simp] theorem setHdr_turns : (setHdr h s).turns = s.turns := rfl
@[simp] theorem setHdr_draws : (setHdr h s).draws = s.draws := rfl

/-! ### commitCheck -/

@[simp] theorem commitCheck_params : (commitCheck s).params = s.params := rfl
@[simp] theorem commitCheck_status : (commitCheck s).status = s.status := rfl
@[simp] theorem commitCheck_cfgWidth : (commitCheck s).cfgWidth = s.hdr.width := rfl
@[simp] theorem commitCheck_cfgHeight : (commitCheck s).cfgHeight = s.hdr.height := rfl
@[simp] theorem commitCheck_cfgChannels : (commitCheck s).cfgChannels = BitVec.ofNat 3 (s.hdr.bpp.toNat / 8) := rfl
@[simp] theorem commitCheck_hdrInfo : (commitCheck s).hdrInfo = HdrInfo.checked s.hdr := rfl
@[simp] theorem commitCheck_pixCount : (commitCheck s).pixCount = s.pixCount := rfl
@[simp] theorem commitCheck_pktCount : (commitCheck s).pktCount = s.pktCount := rfl
@[simp] theorem commitCheck_inCount : (commitCheck s).inCount = s.inCount := rfl
@[simp] theorem commitCheck_outCount : (commitCheck s).outCount = s.outCount := rfl
@[simp] theorem commitCheck_hdr : (commitCheck s).hdr = s.hdr := rfl
@[simp] theorem commitCheck_pbuf : (commitCheck s).pbuf = s.pbuf := rfl
@[simp] theorem commitCheck_eng : (commitCheck s).eng = s.eng := rfl
@[simp] theorem commitCheck_srcPos : (commitCheck s).srcPos = s.srcPos := rfl
@[simp] theorem commitCheck_sinkOut : (commitCheck s).sinkOut = s.sinkOut := rfl
@[simp] theorem commitCheck_faultMark : (commitCheck s).faultMark = s.faultMark := rfl
@[simp] theorem commitCheck_host : (commitCheck s).host = s.host := rfl
@[simp] theorem commitCheck_turns : (commitCheck s).turns = s.turns := rfl
@[simp] theorem commitCheck_draws : (commitCheck s).draws = s.draws := rfl

/-! ### setFault -/

@[simp] theorem setFault_params : (setFault z s).params = s.params := rfl
@[simp] theorem setFault_status : (setFault z s).status = s.status := rfl
@[simp] theorem setFault_cfgWidth : (setFault z s).cfgWidth = s.cfgWidth := rfl
@[simp] theorem setFault_cfgHeight : (setFault z s).cfgHeight = s.cfgHeight := rfl
@[simp] theorem setFault_cfgChannels : (setFault z s).cfgChannels = s.cfgChannels := rfl
@[simp] theorem setFault_hdrInfo : (setFault z s).hdrInfo = s.hdrInfo := rfl
@[simp] theorem setFault_pixCount : (setFault z s).pixCount = s.pixCount := rfl
@[simp] theorem setFault_pktCount : (setFault z s).pktCount = s.pktCount := rfl
@[simp] theorem setFault_inCount : (setFault z s).inCount = s.inCount := rfl
@[simp] theorem setFault_outCount : (setFault z s).outCount = s.outCount := rfl
@[simp] theorem setFault_hdr : (setFault z s).hdr = s.hdr := rfl
@[simp] theorem setFault_pbuf : (setFault z s).pbuf = s.pbuf := rfl
@[simp] theorem setFault_eng : (setFault z s).eng = s.eng := rfl
@[simp] theorem setFault_srcPos : (setFault z s).srcPos = s.srcPos := rfl
@[simp] theorem setFault_sinkOut : (setFault z s).sinkOut = s.sinkOut := rfl
@[simp] theorem setFault_faultMark : (setFault z s).faultMark = s.faultMark.or (some z) := rfl
@[simp] theorem setFault_host : (setFault z s).host = s.host := rfl
@[simp] theorem setFault_turns : (setFault z s).turns = s.turns := rfl
@[simp] theorem setFault_draws : (setFault z s).draws = s.draws := rfl

/-! ### drawImage -/

@[simp] theorem drawImage_params : (drawImage s).params = s.params := rfl
@[simp] theorem drawImage_status : (drawImage s).status = s.status := rfl
@[simp] theorem drawImage_cfgWidth : (drawImage s).cfgWidth = s.cfgWidth := rfl
@[simp] theorem drawImage_cfgHeight : (drawImage s).cfgHeight = s.cfgHeight := rfl
@[simp] theorem drawImage_cfgChannels : (drawImage s).cfgChannels = s.cfgChannels := rfl
@[simp] theorem drawImage_hdrInfo : (drawImage s).hdrInfo = s.hdrInfo := rfl
@[simp] theorem drawImage_pixCount : (drawImage s).pixCount = s.pixCount := rfl
@[simp] theorem drawImage_pktCount : (drawImage s).pktCount = s.pktCount := rfl
@[simp] theorem drawImage_inCount : (drawImage s).inCount = s.inCount := rfl
@[simp] theorem drawImage_outCount : (drawImage s).outCount = s.outCount := rfl
@[simp] theorem drawImage_hdr : (drawImage s).hdr = s.hdr := rfl
@[simp] theorem drawImage_pbuf : (drawImage s).pbuf = s.pbuf.writeBytes 0 ((List.range s.imageBytes).map (Config.freeByte s.draws)) := rfl
@[simp] theorem drawImage_eng : (drawImage s).eng = s.eng := rfl
@[simp] theorem drawImage_srcPos : (drawImage s).srcPos = s.srcPos := rfl
@[simp] theorem drawImage_sinkOut : (drawImage s).sinkOut = s.sinkOut := rfl
@[simp] theorem drawImage_faultMark : (drawImage s).faultMark = s.faultMark := rfl
@[simp] theorem drawImage_host : (drawImage s).host = s.host := rfl
@[simp] theorem drawImage_turns : (drawImage s).turns = s.turns := rfl
@[simp] theorem drawImage_draws : (drawImage s).draws = s.draws + 1 := rfl

/-! ### commitPacket -/

@[simp] theorem commitPacket_params : (commitPacket n bs s).params = s.params := rfl
@[simp] theorem commitPacket_status : (commitPacket n bs s).status = s.status := rfl
@[simp] theorem commitPacket_cfgWidth : (commitPacket n bs s).cfgWidth = s.cfgWidth := rfl
@[simp] theorem commitPacket_cfgHeight : (commitPacket n bs s).cfgHeight = s.cfgHeight := rfl
@[simp] theorem commitPacket_cfgChannels : (commitPacket n bs s).cfgChannels = s.cfgChannels := rfl
@[simp] theorem commitPacket_hdrInfo : (commitPacket n bs s).hdrInfo = s.hdrInfo := rfl
@[simp] theorem commitPacket_pixCount : (commitPacket n bs s).pixCount = BitVec.ofNat 32 (s.eng.pcur + n) := rfl
@[simp] theorem commitPacket_pktCount : (commitPacket n bs s).pktCount = s.pktCount + 1 := rfl
@[simp] theorem commitPacket_inCount : (commitPacket n bs s).inCount = s.inCount := rfl
@[simp] theorem commitPacket_outCount : (commitPacket n bs s).outCount = s.outCount := rfl
@[simp] theorem commitPacket_hdr : (commitPacket n bs s).hdr = s.hdr := rfl
@[simp] theorem commitPacket_pbuf : (commitPacket n bs s).pbuf = s.pbuf.writeBytes (s.eng.pcur * s.channels) bs := rfl
@[simp] theorem commitPacket_eng : (commitPacket n bs s).eng = { s.eng.unstage with pcur := s.eng.pcur + n } := rfl
@[simp] theorem commitPacket_srcPos : (commitPacket n bs s).srcPos = s.srcPos := rfl
@[simp] theorem commitPacket_sinkOut : (commitPacket n bs s).sinkOut = s.sinkOut := rfl
@[simp] theorem commitPacket_faultMark : (commitPacket n bs s).faultMark = s.faultMark := rfl
@[simp] theorem commitPacket_host : (commitPacket n bs s).host = s.host := rfl
@[simp] theorem commitPacket_turns : (commitPacket n bs s).turns = s.turns := rfl
@[simp] theorem commitPacket_draws : (commitPacket n bs s).draws = s.draws := rfl

end Sys2Proof.Machine
end

