-- ==== Sys2Proof/Laws/Streams.lean ====
section
/-! SUPPORT. The laws of the source and the sink: what reading `k` bytes into a staging buffer and writing a byte
sequence to the sink do, said once and without recursion. -/

namespace Sys2Proof.Machine

/-- The state after `k` source bytes went into a staging buffer. -/
def State.staged (s : State) (buf : StageBuffer) (k : Nat) : State :=
  { s with
    srcPos := s.srcPos + k
    inCount := s.inCount + BitVec.ofNat 64 k
    eng := s.eng.push buf (s.remaining.take k) }

theorem State.remaining_of_getElem? {s : State} {b : Byte} (h : s.params.src[s.srcPos]? = some b) :
    s.remaining = b :: s.params.src.drop (s.srcPos + 1) := by
  obtain ⟨hlt, rfl⟩ := List.getElem?_eq_some_iff.1 h
  exact List.drop_eq_getElem_cons hlt

theorem State.remaining_of_getElem?_none {s : State} (h : s.params.src[s.srcPos]? = none) : s.remaining = [] :=
  List.drop_eq_nil_of_le (List.getElem?_eq_none_iff.1 h)

/-- A read of a source that still holds bytes takes the first of them. -/
theorem srcRead_cons {s : State} {b : Byte} {rest : List Byte} (h : s.remaining = b :: rest) :
    srcRead s = (.byte b, { s with srcPos := s.srcPos + 1, inCount := s.inCount + 1 }) := by
  have hb : s.params.src[s.srcPos]? = some b := by
    have := congrArg List.head? h
    simpa [State.remaining, List.head?_drop] using this
  simp [srcRead, hb]

/-- A read of a source that is used up answers the terminal and changes nothing. -/
theorem srcRead_nil {s : State} (h : s.remaining = []) : srcRead s = (.ended s.params.term, s) := by
  have : s.params.src[s.srcPos]? = none := by
    rw [List.getElem?_eq_none_iff]
    simpa [State.remaining] using h
  simp [srcRead, this]

/-- What `stageRead` does (R80, R89): with enough bytes left it takes `k` of them, otherwise it takes all that are
left and answers the terminal. -/
theorem stageRead_eq (buf : StageBuffer) (k : Nat) : ∀ s : State,
    stageRead buf k s =
      if k ≤ s.remaining.length then (none, s.staged buf k)
      else (some s.params.term, s.staged buf s.remaining.length) := by
  induction k with
  | zero => intro s; simp [stageRead, State.staged]
  | succ k ih =>
    intro s
    unfold stageRead
    cases hr : s.remaining with
    | nil =>
      rw [srcRead_nil hr]
      simp [State.staged]
    | cons b rest =>
      rw [srcRead_cons hr]
      have hrest : ∀ e, State.remaining { s with srcPos := s.srcPos + 1, inCount := s.inCount + 1, eng := e } = rest := by
        intro e
        show s.params.src.drop (s.srcPos + 1) = rest
        have := congrArg List.tail hr
        simpa [State.remaining] using this
      simp only [ih, hrest]
      simp only [State.staged, hrest, hr, List.length_cons, Nat.add_le_add_iff_right, List.take_succ_cons, push_push,
        List.singleton_append]
      have hp : ∀ j, s.srcPos + 1 + j = s.srcPos + (j + 1) := by omega
      have hc : ∀ j, s.inCount + 1 + BitVec.ofNat 64 j = s.inCount + BitVec.ofNat 64 (j + 1) := by
        intro j
        rw [BitVec.ofNat_add, BitVec.add_assoc, BitVec.add_comm 1 (BitVec.ofNat 64 j)]
        rfl
      simp only [hp, hc, List.take_length]

/-- The state after the sink accepted `bs`. -/
def State.accepted (s : State) (bs : List Byte) : State :=
  { s with sinkOut := s.sinkOut ++ bs, outCount := s.outCount + BitVec.ofNat 64 bs.length }

theorem State.sinkRoom_le (s : State) (k : Nat) : s.sinkRoom k ≤ k := by
  unfold State.sinkRoom
  split <;> omega

/-- What `sinkWriteAll` does (R43, R81, R101): it writes as many bytes as the sink has room for, and answers whether
that was all of them. -/
theorem sinkWriteAll_eq (bs : List Byte) : ∀ s : State,
    sinkWriteAll bs s = (decide (s.sinkRoom bs.length = bs.length), s.accepted (bs.take (s.sinkRoom bs.length))) := by
  induction bs with
  | nil =>
    intro s
    have := s.sinkRoom_le 0
    have h0 : s.sinkRoom 0 = 0 := by omega
    simp [sinkWriteAll, State.accepted, h0]
  | cons b bs ih =>
    intro s
    unfold sinkWriteAll sinkWrite
    have hroom : s.sinkRoom (bs.length + 1) =
        if s.sinkOpen then State.sinkRoom { s with sinkOut := s.sinkOut ++ [b], outCount := s.outCount + 1 } bs.length + 1
        else 0 := by
      unfold State.sinkRoom State.sinkOpen
      cases s.params.sinkLimit with
      | none => simp
      | some L => simp only [decide_eq_true_eq, List.length_append, List.length_singleton]; split <;> omega
    by_cases ho : s.sinkOpen = true
    · simp only [ho, if_true, List.length_cons] at hroom ⊢
      simp only [ih, hroom]
      have hc : ∀ j, s.outCount + 1#64 + BitVec.ofNat 64 j = s.outCount + BitVec.ofNat 64 (j + 1) := by
        intro j
        rw [BitVec.ofNat_add, BitVec.add_assoc, BitVec.add_comm 1#64 (BitVec.ofNat 64 j)]
      simp [State.accepted, hc]
    · rw [if_neg ho] at hroom
      simp [ho, hroom, State.accepted]

/-- The sink only grows, and nothing but `sinkOut` and `outCount` changes. -/
theorem sinkWriteAll_state (bs : List Byte) (s : State) :
    ∃ k, k ≤ bs.length ∧ (sinkWriteAll bs s).2 = s.accepted (bs.take k) := by
  exact ⟨s.sinkRoom bs.length, s.sinkRoom_le _, by rw [sinkWriteAll_eq]⟩

end Sys2Proof.Machine
end

