-- ==== Sys2Proof/Laws/Meanings.lean ====
section
/-! SUPPORT. What each shared operation and each stream-moving meaning does, said once without its loops; and the
frame that every meaning keeps. -/

namespace Sys2Proof.Machine

/-! ### The staging read, from a clean buffer -/

@[simp] theorem staged_params (s : State) (buf : StageBuffer) (k : Nat) : (s.staged buf k).params = s.params := rfl
@[simp] theorem staged_status (s : State) (buf : StageBuffer) (k : Nat) : (s.staged buf k).status = s.status := rfl
@[simp] theorem staged_srcPos (s : State) (buf : StageBuffer) (k : Nat) :
    (s.staged buf k).srcPos = s.srcPos + k := rfl

/-- HDR_PARSE without its loop (R80). -/
theorem execHdrParse_eq (s : State) :
    execHdrParse s =
      if 18 ≤ s.remaining.length then
        .next (complete { s with
          srcPos := s.srcPos + 18
          inCount := s.inCount + 18
          hdr := Header.fields (s.remaining.take 18)
          hdrInfo := 0
          eng := s.eng.unstage })
      else
        .next (raise (sourceError s.params.term .headerError 0x01).1 (sourceError s.params.term .headerError 0x01).2
          { s with
            srcPos := s.srcPos + s.remaining.length
            inCount := s.inCount + BitVec.ofNat 64 s.remaining.length
            eng := s.eng.unstage }) := by
  unfold execHdrParse
  rw [stageRead_eq]
  have hr : State.remaining { s with eng := s.eng.unstage } = s.remaining := rfl
  simp only [hr, Config.headerBytes]
  by_cases h : 18 ≤ s.remaining.length
  · simp [h, State.staged, hr]
  · simp [h, State.staged, hr]

/-- HDR_SERIALIZE without its loop (R81). -/
theorem execHdrSerialize_eq (s : State) :
    execHdrSerialize s =
      if s.sinkRoom 18 = 18 then .next (complete (s.accepted s.hdr.bytes))
      else .next (raise .sinkUnavailable 0x00 (s.accepted (s.hdr.bytes.take (s.sinkRoom 18)))) := by
  have hl : s.hdr.bytes.length = 18 := rfl
  unfold execHdrSerialize
  rw [sinkWriteAll_eq, hl]
  by_cases h : s.sinkRoom 18 = 18
  · have : s.hdr.bytes.take 18 = s.hdr.bytes := List.take_of_length_le (by simp [hl])
    simp [h, this]
  · simp [h]

/-- The state after a whole packet was read: `m` payload bytes taken and the buffer clean again. -/
def State.tookPayload (s : State) (m : Nat) : State :=
  { s with
    srcPos := s.srcPos + m
    inCount := s.inCount + BitVec.ofNat 64 m
    eng := s.eng.unstage }

/-- `decode_packet()` after its control byte, without its loop (R89). -/
theorem packetStep_eq (n m : Nat) (expand : List Byte → List Byte) (s : State) :
    packetStep n m expand s =
      if s.pixels < s.eng.pcur + n then .next (failDecode .overrun 0x00 s)
      else if m ≤ s.remaining.length then .next (commitPacket n (expand (s.remaining.take m)) (s.tookPayload m))
      else
        .next (failDecode (sourceError s.params.term .truncatedPayload 0x02).1
          (sourceError s.params.term .truncatedPayload 0x02).2 (s.tookPayload s.remaining.length)) := by
  unfold packetStep
  rw [stageRead_eq]
  have hr : State.remaining { s with eng := s.eng.unstage } = s.remaining := rfl
  simp only [hr]
  split
  · rfl
  · by_cases h : m ≤ s.remaining.length
    · simp [h, hr, State.staged, State.tookPayload, commitPacket, State.channels]
    · simp [h, hr, State.staged, State.tookPayload, failDecode]

/-- `decode_packet()` at a source that still holds a byte runs the packet that byte decodes to (R89). -/
theorem decodePacket_cons {s : State} {c : Byte} {rest : List Byte} (h : s.remaining = c :: rest) :
    decodePacket s = exec (decodeControl c) { s with srcPos := s.srcPos + 1, inCount := s.inCount + 1 } := by
  unfold decodePacket decodeControl
  rw [srcRead_cons h]
  cases hk : controlKind c <;> simp only [hk] <;> rfl

/-- `decode_packet()` at a source that is used up fails (R89, R96). -/
theorem decodePacket_nil {s : State} (h : s.remaining = []) :
    decodePacket s = .next (failDecode (sourceError s.params.term .truncatedPayload 0x01).1
      (sourceError s.params.term .truncatedPayload 0x01).2 s) := by
  unfold decodePacket
  rw [srcRead_nil h]

/-- `encode_packet()` without its loop (R101). -/
theorem encodePacket_eq (s : State) :
    encodePacket s =
      let pkt := choosePacket s.px s.pixels s.eng.pcur
      if s.sinkRoom pkt.2.length = pkt.2.length then
        .next { s.accepted pkt.2 with
          eng := { s.eng with pcur := s.eng.pcur + pkt.1 }
          pixCount := BitVec.ofNat 32 (s.eng.pcur + pkt.1)
          pktCount := s.pktCount + 1 }
      else .next (raise .sinkUnavailable 0x00 (s.accepted (pkt.2.take (s.sinkRoom pkt.2.length)))) := by
  unfold encodePacket
  simp only
  rw [sinkWriteAll_eq]
  generalize choosePacket s.px s.pixels s.eng.pcur = pkt
  by_cases h : s.sinkRoom pkt.2.length = pkt.2.length
  · simp [h, State.accepted]
  · simp [h]

/-- Every meaning answers a next state. -/
theorem exec_next (i : Instr) (s : State) : ∃ t, exec i s = .next t := by
  have hpacket : ∀ n m f (u : State), ∃ t, packetStep n m f u = .next t := by
    intro n m f u; rw [packetStep_eq]; split
    · exact ⟨_, rfl⟩
    · split <;> exact ⟨_, rfl⟩
  have hdec : ∃ t, decodePacket s = .next t := by
    cases hr : s.remaining with
    | nil => exact ⟨_, decodePacket_nil hr⟩
    | cons c rest =>
      rw [decodePacket_cons hr]
      unfold decodeControl
      split
      · exact hpacket _ _ _ _
      · exact hpacket (pixelCount _) (payloadLength .run _ _) (repeatBytes · (pixelCount _)) _
  have henc : ∃ t, encodePacket s = .next t := by
    rw [encodePacket_eq]
    simp only
    split <;> exact ⟨_, rfl⟩
  have hsetup : ∀ op, ∃ t, rleSetup op s = .next t := by
    intro op
    unfold rleSetup
    simp only
    split <;> exact ⟨_, rfl⟩
  cases i with
  | hdrParse => show ∃ t, execHdrParse s = _; rw [execHdrParse_eq]; split <;> exact ⟨_, rfl⟩
  | hdrSerialize => show ∃ t, execHdrSerialize s = _; rw [execHdrSerialize_eq]; split <;> exact ⟨_, rfl⟩
  | hdrCheck => show ∃ t, execHdrCheck s = _; unfold execHdrCheck; simp only; split <;> [exact ⟨_, rfl⟩; (split <;> exact ⟨_, rfl⟩)]
  | hdrBuild rle vflip => show ∃ t, execHdrBuild rle vflip s = _; unfold execHdrBuild; simp only; split <;> exact ⟨_, rfl⟩
  | rleDecode =>
    show ∃ t, execRleDecode s = _
    unfold execRleDecode
    split
    · split
      · exact hdec
      · exact ⟨_, rfl⟩
    all_goals exact hsetup _
  | rleEncode =>
    show ∃ t, execRleEncode s = _
    unfold execRleEncode
    split
    · split
      · exact henc
      · exact ⟨_, rfl⟩
    all_goals exact hsetup _
  | illegal w => exact ⟨_, rfl⟩
  | rawPacket n => exact hpacket _ _ _ _
  | runPacket n => exact hpacket (pixelCount n) (payloadLength .run n s.channels) (repeatBytes · (pixelCount n)) s

/-! ### The host's accesses -/

/-- What a host action can do: set FAULT for its hazard, or, without one, its own effect (R132, R133). -/
theorem hostAccess_cases (a : HostAction) (s : State) :
    (∃ h, hazardOf a s = some h ∧ hostAccess a s = (.nothing, setFault h s)) ∨
      (hazardOf a s = none ∧ hostAccess a s = access a s) := by
  unfold hostAccess
  cases h : hazardOf a s with
  | none => exact .inr ⟨rfl, rfl⟩
  | some z => exact .inl ⟨z, rfl, rfl⟩

/-- What a jump can do (R74). -/
theorem jumpTo_cases (l : Nat) (s : State) :
    (∃ k, findLabel s.host.script l = some k ∧ jumpTo l s = .next { s with host := { s.host with pc := k, sub := 0 } }) ∨
      (findLabel s.host.script l = none ∧ jumpTo l s = .fault (.undefinedLabel l)) := by
  unfold jumpTo
  cases h : findLabel s.host.script l with
  | none => exact .inr ⟨rfl, rfl⟩
  | some k => exact .inl ⟨k, rfl, rfl⟩

/-- What a host turn can do: one host action and a change of the script's own state, a change of the script's own state
alone, or the stop of an undefined label (R74). -/
theorem hostStep_cases (s : State) :
    (∃ a h, hostStep s = .next { (hostAccess a s).2 with host := h }) ∨
      (∃ h, hostStep s = .next { s with host := h }) ∨ (∃ l, hostStep s = .fault (.undefinedLabel l)) := by
  have stay : ∃ h, (Host.Outcome.next s : Result) = .next { s with host := h } := ⟨s.host, rfl⟩
  have jump : ∀ l, (∃ h, jumpTo l s = .next { s with host := h }) ∨ (∃ l', jumpTo l s = .fault (.undefinedLabel l')) := by
    intro l
    rcases jumpTo_cases l s with ⟨k, -, h⟩ | ⟨-, h⟩
    · exact .inl ⟨_, h⟩
    · exact .inr ⟨l, h⟩
  unfold hostStep
  cases s.host.script[s.host.pc]? with
  | none => exact .inr (.inl stay)
  | some line =>
    cases line with
    | wr r v => exact .inl ⟨_, _, rfl⟩
    | rd r => exact .inl ⟨_, _, rfl⟩
    | pbw addr bytes =>
      show (∃ a h, runLine (.pbw addr bytes) s = _) ∨ _
      simp only [runLine]
      split
      · exact .inl ⟨_, _, rfl⟩
      · exact .inr (.inl ⟨_, rfl⟩)
    | pbr addr n =>
      simp only [runLine]
      split
      · exact .inl ⟨_, _, rfl⟩
      · exact .inr (.inl ⟨_, rfl⟩)
    | take k => exact .inl ⟨_, _, rfl⟩
    | put bytes => exact .inl ⟨_, _, rfl⟩
    | bnz m l =>
      simp only [runLine]
      split
      · exact .inr (jump l)
      · exact .inr (.inl ⟨_, rfl⟩)
    | jmp l => exact .inr (jump l)
    | halt => exact .inr (.inl stay)
    | label l => exact .inr (.inl ⟨_, rfl⟩)
    | access a => exact .inl ⟨_, _, rfl⟩

end Sys2Proof.Machine
end

