-- ==== Sys2Proof/Laws/Frame.lean ====
section
/-! SUPPORT. What every engine step and every host access keeps, and the cases of one turn: the lemmas that the
statements about the whole machine are proved from. -/

namespace Sys2Proof.Machine

/-- What every engine step keeps: the launch data, FAULT, the host and the turns; the source position does not fall,
and the sink only grows (R34, R42, R43). -/
structure Keeps (s t : State) : Prop where
  surroundings : SameSurroundings s t
  source : s.srcPos ≤ t.srcPos
  sink : s.sinkOut <+: t.sinkOut

theorem Keeps.refl (s : State) : Keeps s s := ⟨⟨rfl,rfl,rfl,rfl⟩, Nat.le_refl _, List.prefix_refl _⟩

/-- Every meaning keeps it. -/
theorem exec_keeps {i : Instr} {s t : State} (h : exec i s = .next t) : Keeps s t := by
  have hpk : ∀ n m f (u : State), Keeps s u → packetStep n m f u = .next t → Keeps s t := by
    intro n m f u hu h
    rw [packetStep_eq] at h
    split at h
    · cases h; exact ⟨hu.1, hu.2, hu.3⟩
    · split at h <;> cases h
      · exact ⟨hu.1, Nat.le_trans hu.2 (Nat.le_add_right _ _), hu.3⟩
      · exact ⟨hu.1, Nat.le_trans hu.2 (Nat.le_add_right _ _), hu.3⟩
  have hsetup : ∀ op, rleSetup op s = .next t → Keeps s t := by
    intro op h
    unfold rleSetup at h; simp only at h
    split at h <;> cases h <;> exact ⟨⟨rfl,rfl,rfl,rfl⟩, Nat.le_refl _, List.prefix_refl _⟩
  have hdec : decodePacket s = .next t → Keeps s t := by
    intro h
    cases hr : s.remaining with
    | nil => rw [decodePacket_nil hr] at h; cases h; exact ⟨⟨rfl,rfl,rfl,rfl⟩, Nat.le_refl _, List.prefix_refl _⟩
    | cons c rest =>
      rw [decodePacket_cons hr] at h
      have hu : Keeps s { s with srcPos := s.srcPos + 1, inCount := s.inCount + 1 } :=
        ⟨⟨rfl,rfl,rfl,rfl⟩, Nat.le_add_right _ _, List.prefix_refl _⟩
      unfold decodeControl at h
      split at h
      · exact hpk _ _ _ _ hu h
      · exact hpk (pixelCount _) (payloadLength .run _ _) (repeatBytes · (pixelCount _)) _ hu h
  cases i with
  | hdrParse =>
    have h : execHdrParse s = _ := h
    rw [execHdrParse_eq] at h
    split at h <;> cases h <;> exact ⟨⟨rfl,rfl,rfl,rfl⟩, Nat.le_add_right _ _, List.prefix_refl _⟩
  | hdrSerialize =>
    have h : execHdrSerialize s = _ := h
    rw [execHdrSerialize_eq] at h
    split at h <;> cases h <;> exact ⟨⟨rfl,rfl,rfl,rfl⟩, Nat.le_refl _, List.prefix_append _ _⟩
  | hdrCheck =>
    have h : execHdrCheck s = _ := h
    unfold execHdrCheck at h; simp only at h
    split at h
    · cases h; exact ⟨⟨rfl,rfl,rfl,rfl⟩, Nat.le_refl _, List.prefix_refl _⟩
    · split at h <;> cases h <;> exact ⟨⟨rfl,rfl,rfl,rfl⟩, Nat.le_refl _, List.prefix_refl _⟩
  | hdrBuild rle vflip =>
    have h : execHdrBuild rle vflip s = _ := h
    unfold execHdrBuild at h; simp only at h
    split at h <;> cases h <;> exact ⟨⟨rfl,rfl,rfl,rfl⟩, Nat.le_refl _, List.prefix_refl _⟩
  | rleDecode =>
    have h : execRleDecode s = _ := h
    unfold execRleDecode at h
    split at h
    · split at h
      · exact hdec h
      · cases h; exact ⟨⟨rfl,rfl,rfl,rfl⟩, Nat.le_refl _, List.prefix_refl _⟩
    all_goals exact hsetup _ h
  | rleEncode =>
    have h : execRleEncode s = _ := h
    unfold execRleEncode at h
    split at h
    · split at h
      · rw [encodePacket_eq] at h; simp only at h
        split at h <;> cases h <;> exact ⟨⟨rfl,rfl,rfl,rfl⟩, Nat.le_refl _, List.prefix_append _ _⟩
      · cases h; exact ⟨⟨rfl,rfl,rfl,rfl⟩, Nat.le_refl _, List.prefix_refl _⟩
    all_goals exact hsetup _ h
  | illegal w => cases h; exact ⟨⟨rfl,rfl,rfl,rfl⟩, Nat.le_refl _, List.prefix_refl _⟩
  | rawPacket n => exact hpk _ _ _ _ (Keeps.refl s) h
  | runPacket n => exact hpk (pixelCount n) (payloadLength .run n s.channels) (repeatBytes · (pixelCount n)) _ (Keeps.refl s) h

/-- What every host access keeps: the launch data, the turns, the script, and a FAULT that is set. -/
theorem hostAccess_keeps (a : HostAction) (s : State) :
    (hostAccess a s).2.params = s.params ∧ s.srcPos ≤ (hostAccess a s).2.srcPos ∧ s.sinkOut <+: (hostAccess a s).2.sinkOut ∧
    (∀ h, s.faultMark = some h → (hostAccess a s).2.faultMark = some h) ∧ (hostAccess a s).2.turns = s.turns ∧ (hostAccess a s).2.host = s.host := by
  rcases hostAccess_cases a s with ⟨z, -, e⟩ | ⟨-, e⟩ <;> rw [e]
  · exact ⟨rfl, Nat.le_refl _, List.prefix_refl _, fun h hh => by simp [setFault, hh], rfl, rfl⟩
  · cases a with
    | regWrite w o v =>
      show (writeOffset o v s).params = _ ∧ _ ≤ (writeOffset o v s).srcPos ∧ _ <+: (writeOffset o v s).sinkOut ∧ (∀ h, _ → (writeOffset o v s).faultMark = _) ∧ (writeOffset o v s).turns = _ ∧ (writeOffset o v s).host = _
      unfold writeOffset
      split
      · rename_i r _
        cases r <;> exact ⟨rfl, Nat.le_refl _, List.prefix_refl _, fun h hh => hh, rfl, rfl⟩
      · exact ⟨rfl, Nat.le_refl _, List.prefix_refl _, fun h hh => hh, rfl, rfl⟩
    | take k => exact ⟨rfl, Nat.le_add_right _ _, List.prefix_refl _, fun h hh => hh, rfl, rfl⟩
    | put bs => exact ⟨rfl, Nat.le_refl _, List.prefix_append _ _, fun h hh => hh, rfl, rfl⟩
    | _ => exact ⟨rfl, Nat.le_refl _, List.prefix_refl _, fun h hh => hh, rfl, rfl⟩

/-- What an engine step does to STATUS and to the command in progress: the command goes on with STATUS unchanged, or it
ends (R110 to R112). -/
def GoesOnOrEnds (s t : State) : Prop :=
  (t.status = s.status ∧ (t.eng.op = s.eng.op ∨ t.eng.op = .decoding ∨ t.eng.op = .encoding)) ∨
    (t.eng.op = .idle ∧ t.busy = false ∧ Status.done t.status = true)

/-- Every meaning lets the command go on, or ends it. -/
theorem exec_status {i : Instr} {s t : State} (h : exec i s = .next t) :
   GoesOnOrEnds s t := by
  have hc : ∀ u : State, t = complete u → t.eng.op = .idle ∧ t.busy = false ∧ Status.done t.status = true := by
    rintro u rfl; refine ⟨rfl, ?_, ?_⟩ <;> simp [complete, State.busy, Status.completed]
  have hr : ∀ (u : State) e d, t = raise e d u → t.eng.op = .idle ∧ t.busy = false ∧ Status.done t.status = true := by
    rintro u e d rfl; refine ⟨rfl, ?_, ?_⟩ <;> simp [raise, State.busy, Status.raised]
  have hpk : ∀ n m f (u : State), u.status = s.status → u.eng = s.eng → packetStep n m f u = .next t → GoesOnOrEnds s t := by
    intro n m f u hu he h
    rw [packetStep_eq] at h
    split at h
    · cases h; exact .inr (hr _ _ _ rfl)
    · split at h <;> cases h
      · exact .inl ⟨hu, .inl (by show u.eng.op = s.eng.op; rw [he])⟩
      · exact .inr (hr _ _ _ rfl)
  have hsetup : ∀ op, (op = .decoding ∨ op = .encoding) → rleSetup op s = .next t → GoesOnOrEnds s t := by
    intro op hop h
    unfold rleSetup at h; simp only at h
    split at h <;> cases h
    · exact Or.inr (hr _ _ _ rfl)
    · exact Or.inl ⟨rfl, .inr hop⟩
  have hdec : decodePacket s = .next t → GoesOnOrEnds s t := by
    intro h
    cases hr' : s.remaining with
    | nil => rw [decodePacket_nil hr'] at h; cases h; exact Or.inr (hr _ _ _ rfl)
    | cons c rest =>
      rw [decodePacket_cons hr'] at h
      unfold decodeControl at h
      split at h
      · exact hpk _ _ _ _ (by rfl) (by rfl) h
      · exact hpk (pixelCount _) (payloadLength .run _ _) (repeatBytes · (pixelCount _)) _ (by rfl) (by rfl) h
  cases i with
  | hdrParse =>
    have h : execHdrParse s = _ := h
    rw [execHdrParse_eq] at h
    split at h <;> cases h
    · exact .inr (hc _ rfl)
    · exact .inr (hr _ _ _ rfl)
  | hdrSerialize =>
    have h : execHdrSerialize s = _ := h
    rw [execHdrSerialize_eq] at h
    split at h <;> cases h
    · exact .inr (hc _ rfl)
    · exact .inr (hr _ _ _ rfl)
  | hdrCheck =>
    have h : execHdrCheck s = _ := h
    unfold execHdrCheck at h; simp only at h
    split at h
    · cases h; exact .inr (hr _ _ _ rfl)
    · split at h <;> cases h
      · exact .inr (hr _ _ _ rfl)
      · exact .inr (hc _ rfl)
  | hdrBuild rle vflip =>
    have h : execHdrBuild rle vflip s = _ := h
    unfold execHdrBuild at h; simp only at h
    split at h <;> cases h
    · exact .inr (hr _ _ _ rfl)
    · exact .inr (hc _ rfl)
  | rleDecode =>
    have h : execRleDecode s = _ := h
    unfold execRleDecode at h
    split at h
    · split at h
      · exact hdec h
      · cases h; exact .inr (hc _ rfl)
    all_goals exact hsetup _ (by simp) h
  | rleEncode =>
    have h : execRleEncode s = _ := h
    unfold execRleEncode at h
    split at h
    · split at h
      · rw [encodePacket_eq] at h; simp only at h
        split at h <;> cases h
        · exact .inl ⟨rfl, .inl rfl⟩
        · exact .inr (hr _ _ _ rfl)
      · cases h; exact .inr (hc _ rfl)
    all_goals exact hsetup _ (by simp) h
  | illegal w => cases h; exact .inr (hr _ _ _ rfl)
  | rawPacket n => exact hpk _ _ _ _ rfl rfl h
  | runPacket n => exact hpk (pixelCount n) (payloadLength .run n s.channels) (repeatBytes · (pixelCount n)) _ rfl rfl h

/-- From `s` to `t` the command word `w` has been issued (R110). -/
def Issues (w : Word) (s t : State) : Prop :=
  s.busy = false ∧ t.status = Status.issued (opField w) ∧ t.eng.op = .ready (decodeCommand w)

/-- A host access leaves STATUS and ENG alone, or it is a 32-bit write at offset 0 while BUSY = 0 and issues a command
(R19, R110). -/
theorem hostAccess_status (a : HostAction) (s : State) :
    ((hostAccess a s).2.status = s.status ∧ (hostAccess a s).2.eng = s.eng) ∨
      ∃ w, a = .regWrite 32 0x00 w ∧ Issues w s (hostAccess a s).2 := by
  rcases hostAccess_cases a s with ⟨z, -, e⟩ | ⟨hz, e⟩ <;> rw [e]
  · exact .inl ⟨rfl, rfl⟩
  · cases a with
    | regWrite w o v =>
      have hw : w = 32 ∧ s.busy = false := by
        simp only [hazardOf, accessHazard, portHazard, busyHazard] at hz
        by_cases hw : w = 32
        · refine ⟨hw, ?_⟩
          cases hb : s.busy with
          | false => rfl
          | true => rw [hb] at hz; split at hz <;> simp at hz
        · simp [hw] at hz
      show ((writeOffset o v s).status = _ ∧ (writeOffset o v s).eng = _) ∨ ∃ w', _ ∧ Issues w' s (writeOffset o v s)
      unfold writeOffset
      cases hr : Reg.at o with
      | none => exact .inl ⟨rfl, rfl⟩
      | some r =>
        have ho : r.offset = o := by
          have := List.find?_some hr
          simpa using this
        cases r <;> first | exact .inl ⟨rfl, rfl⟩ | exact .inr ⟨v, by rw [← ho, hw.1]; rfl, hw.2, rfl, rfl⟩
    | _ => exact .inl ⟨rfl, rfl⟩

/-- The line that a host turn is taken on. -/
def State.line (s : State) : Option ScriptLine := s.host.script[s.host.pc]?

/-- A host turn leaves STATUS and ENG alone, or its line is a write to CMD and issues a command (R74, R110). -/
theorem hostStep_status {s t : State} (h : hostStep s = .next t) :
    (t.status = s.status ∧ t.eng = s.eng) ∨
      ∃ w, (s.line = some (.wr .cmd w) ∨ s.line = some (.access (.regWrite 32 0x00 w))) ∧ Issues w s t := by
  have hjump : ∀ l, jumpTo l s = .next t → t.status = s.status ∧ t.eng = s.eng := by
    intro l hl
    rcases jumpTo_cases l s with ⟨k, -, e⟩ | ⟨-, e⟩ <;> rw [e] at hl <;> cases hl
    exact ⟨rfl, rfl⟩
  unfold hostStep at h
  unfold State.line
  cases hl : s.host.script[s.host.pc]? with
  | none => rw [hl] at h; cases h; exact .inl ⟨rfl, rfl⟩
  | some line =>
    rw [hl] at h
    cases line with
    | wr r v =>
      cases h
      rcases hostAccess_status (.regWrite 32 r.offset v) s with e | ⟨w, e, hw⟩
      · exact .inl e
      · refine .inr ⟨w, .inl ?_, hw⟩
        injection e with _ ho hv
        rw [hv]
        cases r <;> first | rfl | cases ho
    | rd r => cases h; exact .inl ((hostAccess_status (.regRead 32 r.offset) s).resolve_right (by rintro ⟨w, e, -⟩; cases e))
    | take k => cases h; exact .inl ((hostAccess_status (.take k) s).resolve_right (by rintro ⟨w, e, -⟩; cases e))
    | put bs => cases h; exact .inl ((hostAccess_status (.put bs) s).resolve_right (by rintro ⟨w, e, -⟩; cases e))
    | access a =>
      cases h
      rcases hostAccess_status a s with e | ⟨w, rfl, hw⟩
      · exact .inl e
      · exact .inr ⟨w, .inr rfl, hw⟩
    | pbw addr bs =>
      dsimp only [runLine] at h
      split at h <;> cases h
      · exact .inl ((hostAccess_status (.bufWrite _ _) s).resolve_right (by rintro ⟨w, e, -⟩; cases e))
      · exact .inl ⟨rfl, rfl⟩
    | pbr addr n =>
      dsimp only [runLine] at h
      split at h <;> cases h
      · exact .inl ((hostAccess_status (.bufRead _) s).resolve_right (by rintro ⟨w, e, -⟩; cases e))
      · exact .inl ⟨rfl, rfl⟩
    | bnz m l =>
      dsimp only [runLine] at h
      split at h
      · exact .inl (hjump l h)
      · cases h; exact .inl ⟨rfl, rfl⟩
    | jmp l => exact .inl (hjump l h)
    | halt => cases h; exact .inl ⟨rfl, rfl⟩
    | label l => cases h; exact .inl ⟨rfl, rfl⟩


/-- What one turn can be (R6): an idle engine's, a step of the command in progress, a host turn of one access or none,
an access by a second host, a reset. -/
theorem takeTurn_cases {tn : Turn} {u t : State} (h : takeTurn tn u = .next t) :
    (tn = .engine ∧ u.eng.op = .idle ∧ t = u) ∨
      (tn = .engine ∧ u.eng.op ≠ .idle ∧ ∃ i, (u.eng.op = .ready i ∨ (i = .rleDecode ∧ u.eng.op = .decoding) ∨
        (i = .rleEncode ∧ u.eng.op = .encoding)) ∧ exec i u = .next t) ∨
      (tn = .host ∧ ∃ x, t = { u with host := x } ∨ ∃ a, t = { (hostAccess a u).2 with host := x }) ∨
      (∃ a, tn = .otherHost a ∧ t = otherHostAccess a u) ∨
      (tn = .reset ∧ t = resetBlock u) := by
  cases tn with
  | engine =>
    have h : engineStep u = .next t := h
    unfold engineStep at h
    cases hop : u.eng.op with
    | idle => simp only [hop] at h; cases h; exact .inl ⟨rfl, rfl, rfl⟩
    | ready i => simp only [hop] at h; exact .inr (.inl ⟨rfl, by simp, i, .inl rfl, h⟩)
    | decoding => simp only [hop] at h; exact .inr (.inl ⟨rfl, by simp, _, .inr (.inl ⟨rfl, rfl⟩), h⟩)
    | encoding => simp only [hop] at h; exact .inr (.inl ⟨rfl, by simp, _, .inr (.inr ⟨rfl, rfl⟩), h⟩)
  | host =>
    have h : hostStep u = .next t := h
    rcases hostStep_cases u with ⟨a, x, e⟩ | ⟨x, e⟩ | ⟨l, e⟩ <;> rw [e] at h <;> cases h
    · exact .inr (.inr (.inl ⟨rfl, x, .inr ⟨a, rfl⟩⟩))
    · exact .inr (.inr (.inl ⟨rfl, x, .inl rfl⟩))
  | otherHost a => cases h; exact .inr (.inr (.inr (.inl ⟨a, rfl, rfl⟩)))
  | reset => cases h; exact .inr (.inr (.inr (.inr ⟨rfl, rfl⟩)))

/-! ### While BUSY = 1 -/

/-- While BUSY = 1 a host access touches FAULT alone (R132). -/
theorem hostAccess_busy {s : State} (h : s.busy = true) (a : HostAction) :
    ∃ m, (hostAccess a s).2 = { s with faultMark := m } := by
  rcases hostAccess_cases a s with ⟨z, -, e⟩ | ⟨hz, e⟩ <;> rw [e]
  · exact ⟨_, rfl⟩
  · unfold hazardOf at hz
    split at hz
    · cases hz
    · rw [if_pos h] at hz
      cases a with
      | regRead w o => exact ⟨s.faultMark, rfl⟩
      | _ => cases hz

/-- While BUSY = 1 a turn that is neither the engine's nor a reset touches FAULT and the host script alone (R132). -/
theorem takeTurn_busy {tn : Turn} {s t : State} (h : s.busy = true) (he : tn ≠ .engine) (hr : tn ≠ .reset)
    (ht : takeTurn tn s = .next t) : ∃ m x, t = { s with faultMark := m, host := x } := by
  rcases takeTurn_cases ht with ⟨e, -⟩ | ⟨e, -⟩ | ⟨-, x, e | ⟨a, e⟩⟩ | ⟨a, -, e⟩ | ⟨e, -⟩
  · exact absurd e he
  · exact absurd e he
  · exact ⟨s.faultMark, x, e⟩
  · obtain ⟨m, hm⟩ := hostAccess_busy h a
    exact ⟨m, x, by rw [e, hm]⟩
  · refine ⟨s.faultMark.or (some .busySecondHost), s.host, ?_⟩
    rw [e, otherHostAccess, if_pos h]
    rfl
  · exact absurd e hr

/-- One step of a command's run that is not the engine's (R132): the turn is taken, and nothing but FAULT and the host
script changes. -/
theorem step_host_busy {s t : State} (h : s.busy = true) (he : nextTurn s ≠ .engine) (hr : nextTurn s ≠ .reset)
    (ht : step s = .next t) : ∃ m x, t = { s with faultMark := m, host := x, turns := s.turns.tail } := by
  obtain ⟨m, x, e⟩ := takeTurn_busy (s := { s with turns := s.turns.tail }) h he hr ht
  exact ⟨m, x, e⟩

/-- The engine's step of a command's run: the step of the command in progress, with the turn taken. -/
theorem step_engine {s t : State} (he : nextTurn s = .engine) (ht : step s = .next t) :
    engineStep { s with turns := s.turns.tail } = .next t := by
  have : takeTurn (nextTurn s) { s with turns := s.turns.tail } = .next t := ht
  rwa [he] at this

end Sys2Proof.Machine
end

