-- ==== Sys2Proof/Laws/Memory.lean ====
section
/-! SUPPORT. The laws of the pixel buffer's memory: read after write, every other address left alone, and the
canonical form kept. -/

namespace Sys2Proof.Machine

@[simp] theorem Memory.read_nil (a : Nat) : Memory.read [] a = Memory.unlisted := rfl

theorem Memory.read_cons (c : Host.Cell) (m : Memory) (a : Nat) :
    Memory.read (c :: m) a = if c.1 = a then c.2 else Memory.read m a := rfl

/-- Reading past a one-byte cell list. -/
theorem Memory.read_cell_append (a x : Nat) (b : Byte) (m : Memory) :
    Memory.read (Memory.cell a b ++ m) x =
      if a = x ∧ b ≠ Memory.unlisted then b else Memory.read m x := by
  unfold Memory.cell
  by_cases hb : b = Memory.unlisted <;> by_cases hx : a = x <;> simp [hb, hx, Memory.read_cons]

/-- An address below every listed one reads as unlisted. -/
theorem Memory.read_of_lt (m : Memory) (a : Nat) (h : ∀ c ∈ m, a < c.1) : m.read a = Memory.unlisted := by
  induction m with
  | nil => rfl
  | cons c m ih =>
    have hc : c.1 ≠ a := by have := h c (by simp); omega
    rw [Memory.read_cons, if_neg hc]
    exact ih fun d hd => h d (by simp [hd])

/-- A write leaves every other address alone. -/
theorem Memory.read_write_ne (m : Memory) {a x : Nat} (b : Byte) (h : x ≠ a) :
    (m.write a b).read x = m.read x := by
  have ha : ¬ a = x := fun e => h e.symm
  induction m with
  | nil => simpa [Memory.write, ha] using Memory.read_cell_append a x b []
  | cons c m ih =>
    unfold Memory.write
    split
    · simp [Memory.read_cons, ih]
    · split
      · rename_i hc
        have : c.1 ≠ x := by omega
        rw [Memory.read_cell_append, Memory.read_cons, if_neg this, if_neg (by simp [ha])]
      · rw [Memory.read_cell_append, if_neg (by simp [ha])]

/-- A write to a memory in canonical form is read back. -/
theorem Memory.read_write_self (m : Memory) (a : Nat) (b : Byte) (hm : m.wf) : (m.write a b).read a = b := by
  induction m with
  | nil => by_cases hb : b = Memory.unlisted <;> simp [Memory.write, Memory.cell, hb, Memory.read_cons]
  | cons c m ih =>
    obtain ⟨hsort, hne⟩ := hm
    rw [List.pairwise_cons] at hsort
    have hm' : Memory.wf m := ⟨hsort.2, fun d hd => hne d (by simp [hd])⟩
    have key : ∀ rest : Memory, (∀ d ∈ rest, a < d.1) → Memory.read (Memory.cell a b ++ rest) a = b := by
      intro rest hrest
      rw [Memory.read_cell_append]
      by_cases hb : b = Memory.unlisted
      · rw [if_neg (by simp [hb]), Memory.read_of_lt rest a hrest, hb]
      · rw [if_pos ⟨rfl, hb⟩]
    unfold Memory.write
    split
    · rename_i hc
      rw [Memory.read_cons, if_neg (by omega)]
      exact ih hm'
    · split
      · rename_i hc
        exact key m fun d hd => by have := hsort.1 d hd; omega
      · rename_i hlt hne'
        refine key (c :: m) fun d hd => ?_
        rcases List.mem_cons.1 hd with rfl | hd
        · omega
        · have := hsort.1 d hd; omega

/-- Every cell of a memory after a write is the written one or was there before. -/
theorem Memory.mem_write (m : Memory) (a : Nat) (b : Byte) {d : Host.Cell} (h : d ∈ m.write a b) :
    (d = (a, b) ∧ b ≠ Memory.unlisted) ∨ d ∈ m := by
  have cell : ∀ rest : Memory, d ∈ Memory.cell a b ++ rest → (d = (a, b) ∧ b ≠ Memory.unlisted) ∨ d ∈ rest := by
    intro rest hd
    unfold Memory.cell at hd
    split at hd
    · exact .inr (by simpa using hd)
    · rename_i hb
      rcases List.mem_append.1 hd with hd | hd
      · exact .inl ⟨by simpa using hd, hb⟩
      · exact .inr hd
  induction m with
  | nil => simpa [Memory.write] using cell [] (by simpa [Memory.write] using h)
  | cons c m ih =>
    unfold Memory.write at h
    split at h
    · rcases List.mem_cons.1 h with rfl | h
      · exact .inr (by simp)
      · rcases ih h with h | h
        · exact .inl h
        · exact .inr (by simp [h])
    · split at h
      · rcases cell m h with h | h
        · exact .inl h
        · exact .inr (by simp [h])
      · exact cell (c :: m) h

/-- A write keeps the canonical form. -/
theorem Memory.write_wf (m : Memory) (a : Nat) (b : Byte) (hm : m.wf) : (m.write a b).wf := by
  refine ⟨?_, fun d hd => ?_⟩
  · induction m with
    | nil => unfold Memory.write Memory.cell; split <;> simp
    | cons c m ih =>
      obtain ⟨hsort, hne⟩ := hm
      rw [List.pairwise_cons] at hsort
      have hm' : Memory.wf m := ⟨hsort.2, fun d hd => hne d (by simp [hd])⟩
      have cell : ∀ rest : Memory, (∀ d ∈ rest, a < d.1) → rest.Pairwise (fun c d => c.1 < d.1) →
          (Memory.cell a b ++ rest).Pairwise (fun c d => c.1 < d.1) := by
        intro rest hrest hp
        unfold Memory.cell
        split
        · simpa using hp
        · simpa using ⟨fun x y hxy => hrest (x, y) hxy, hp⟩
      unfold Memory.write
      split
      · rename_i hc
        refine List.pairwise_cons.2 ⟨fun d hd => ?_, ih hm'⟩
        rcases Memory.mem_write m a b hd with ⟨rfl, -⟩ | hd
        · exact hc
        · exact hsort.1 d hd
      · split
        · exact cell m (fun d hd => by have := hsort.1 d hd; omega) hsort.2
        · refine cell (c :: m) (fun d hd => ?_) (List.pairwise_cons.2 hsort)
          rcases List.mem_cons.1 hd with rfl | hd
          · omega
          · have := hsort.1 d hd; omega
  · rcases Memory.mem_write m a b hd with ⟨rfl, hb⟩ | hd
    · exact hb
    · exact hm.2 d hd

/-- A write of a byte sequence keeps the canonical form. -/
theorem Memory.writeBytes_wf (bs : List Byte) : ∀ (m : Memory) (a : Nat), m.wf → (m.writeBytes a bs).wf := by
  induction bs with
  | nil => exact fun m a hm => hm
  | cons b bs ih => exact fun m a hm => ih _ _ (Memory.write_wf m a b hm)

/-- A write of a byte sequence leaves every address outside it alone. -/
theorem Memory.read_writeBytes_outside (bs : List Byte) {x : Nat} : ∀ (m : Memory) (a : Nat),
    x < a ∨ a + bs.length ≤ x → (m.writeBytes a bs).read x = m.read x := by
  induction bs with
  | nil => exact fun m a _ => rfl
  | cons b bs ih =>
    intro m a hx
    simp only [List.length_cons] at hx
    show (Memory.writeBytes (m.write a b) (a + 1) bs).read x = m.read x
    rw [ih _ _ (by omega), Memory.read_write_ne m b (by omega)]

/-- A write of a byte sequence is read back byte by byte. -/
theorem Memory.read_writeBytes_inside (bs : List Byte) : ∀ (m : Memory) (a j : Nat), m.wf → (hj : j < bs.length) →
    (m.writeBytes a bs).read (a + j) = bs[j] := by
  induction bs with
  | nil => intro m a j _ hj; simp at hj
  | cons b bs ih =>
    intro m a j hm hj
    show (Memory.writeBytes (m.write a b) (a + 1) bs).read (a + j) = (b :: bs)[j]
    cases j with
    | zero =>
      rw [Memory.read_writeBytes_outside bs _ _ (by omega)]
      exact Memory.read_write_self m a b hm
    | succ j =>
      have := ih (m.write a b) (a + 1) j (Memory.write_wf m a b hm) (by simpa using hj)
      rw [show a + (j + 1) = a + 1 + j by omega, this]
      rfl

/-- Every cell of a memory after a write of a byte sequence was there before or lies inside the sequence. -/
theorem Memory.mem_writeBytes (bs : List Byte) {d : Host.Cell} : ∀ (m : Memory) (a : Nat),
    d ∈ m.writeBytes a bs → (a ≤ d.1 ∧ d.1 < a + bs.length) ∨ d ∈ m := by
  induction bs with
  | nil => exact fun m a h => .inr h
  | cons b bs ih =>
    intro m a h
    rcases ih _ _ h with ⟨h1, h2⟩ | h
    · left; simp only [List.length_cons]; omega
    · rcases Memory.mem_write m a b h with ⟨rfl, -⟩ | h
      · left; simp
      · exact .inr h

@[simp] theorem Memory.length_readBytes (m : Memory) (a n : Nat) : (m.readBytes a n).length = n := by
  simp [Memory.readBytes]

/-- The reset state's memory has the canonical form. -/
theorem reset_pbuf_wf : State.reset.pbuf.wf := by decide

end Sys2Proof.Machine
end

