-- ==== Sys2Proof/Laws/PerInstr.lean ====
section
/-! SUPPORT. Facts about every instruction as syntax, one lemma for each constructor, and what the decoder makes of a
command word. -/

namespace Sys2Proof

namespace Laws.OpcodeByte

/-- A well-formed command is encoded as a command word whose OP byte is the command's own opcode (R61, R62, R109), and a
packet kind as a control byte, which has no opcode (R60, R65). -/
def Statement (i : Instr) : Prop :=
  i.wf = true →
    (∃ w, encode i = .command w ∧ i.isCommand = true ∧ opcodeOf i = some (opField w)) ∨
      (∃ c, encode i = .control c ∧ i.isCommand = false ∧ opcodeOf i = none)

theorem hdrParse : Statement .hdrParse := fun _ => .inl ⟨_, rfl, by decide⟩
theorem hdrSerialize : Statement .hdrSerialize := fun _ => .inl ⟨_, rfl, by decide⟩
theorem hdrCheck : Statement .hdrCheck := fun _ => .inl ⟨_, rfl, by decide⟩

theorem hdrBuild (rle vflip : Bool) : Statement (.hdrBuild rle vflip) := fun _ => .inl ⟨_, rfl, by
  cases rle <;> cases vflip <;> decide⟩

theorem rleDecode : Statement .rleDecode := fun _ => .inl ⟨_, rfl, by decide⟩
theorem rleEncode : Statement .rleEncode := fun _ => .inl ⟨_, rfl, by decide⟩
theorem illegal (w : Word) : Statement (.illegal w) := fun _ => .inl ⟨w, rfl, rfl, rfl⟩
theorem rawPacket (n : BitVec 7) : Statement (.rawPacket n) := fun _ => .inr ⟨_, rfl, rfl, rfl⟩
theorem runPacket (n : BitVec 7) : Statement (.runPacket n) := fun _ => .inr ⟨_, rfl, rfl, rfl⟩

end Laws.OpcodeByte

/-- The decoder reads a well-formed command from every word, and its opcode is the word's OP byte (R63, R110). -/
theorem decodeCommand_spec (w : Word) :
    (decodeCommand w).isCommand = true ∧ (decodeCommand w).wf = true ∧
      opcodeOf (decodeCommand w) = some (opField w) := by
  unfold decodeCommand
  split
  · rename_i hl
    have hop : ∀ k, (opField w).toNat = k → opField w = BitVec.ofNat 8 k := by
      intro k hk
      apply BitVec.eq_of_toNat_eq
      have := (opField w).isLt
      simp
      omega
    simp only [legalWord, definedOpcode, Bool.and_eq_true, decide_eq_true_eq] at hl
    have hlow := hl.1.1.1
    have hhigh := hl.1.1.2
    unfold commandOf
    split
    case h_7 h1 h2 h3 h4 h5 h6 =>
      exfalso
      simp only [imp_false] at h1 h2 h3 h4 h5 h6
      omega
    all_goals (rename_i hk; simp [Instr.isCommand, Instr.wf, opcodeOf, hop _ hk])
  · rename_i hl
    simp [Instr.isCommand, Instr.wf, opcodeOf, hl]

end Sys2Proof
end

