-- ==== Sys2Proof/Tests/Slice0.lean ====
section
/-! SUPPORT. The model's own tests: the WellFormed smoke, decoding of words written out from spec/30_encoding.md, at most
two single steps for each instruction with the results of spec/95_test_vectors.md, and for every obligation that has
hypotheses a concrete case that meets them (for every clause, at a boundary of its range). -/

namespace Sys2Proof.Tests

open Sys2Proof Sys2Proof.Machine

/-! ## States the tests start from -/

/-- A launch state with a 64-byte PBUF. -/
def launched (src : List Byte) (t : Terminal) (limit : Option Nat) (pbuf : Memory) : State :=
  State.launch ⟨64, limit, src, t⟩ pbuf

/-- A configuration. -/
def configured (W H : BitVec 16) (C : BitVec 3) (s : State) : State :=
  { s with cfgWidth := W, cfgHeight := H, cfgChannels := C }

/-- A command in progress, at pixel `p`. -/
def running (op : EngOp) (opcode : Byte) (p : Nat) (s : State) : State :=
  { s with
    status := Status.issued opcode
    eng := ⟨op, p, [], []⟩
    pixCount := BitVec.ofNat 32 p
    pktCount := BitVec.ofNat 32 p
    inCount := BitVec.ofNat 64 (if op = .decoding then p else 0)
    outCount := BitVec.ofNat 64 (if op = .encoding then p else 0) }

/-- What a next state shows. -/
def after {α : Type} (r : Result) (f : State → α) : Option α :=
  match r with
  | .next t => some (f t)
  | .fault _ => none
  | .refused _ => none

/-- The header of V-H1, as its 18 bytes. -/
def headerH1 : List Byte := [0x00, 0x00, 0x0A, 0, 0, 0, 0, 0, 0, 0, 0, 0, 0x02, 0x00, 0x01, 0x00, 0x18, 0x20]

/-- HDR as after V-H1. -/
def hdrH1 : Header := ⟨0, 0, 10, ⟨0, 0, 0, 0, 0⟩, 0, 0, 2, 1, 24, 0x20⟩

/-- Nothing in the streams, and the reset registers. -/
def bare : State := launched [] .exhausted none []

/-! ## WellFormed: the ill-formed terms -/

/-- A legal word is no ILLEGAL (R63). -/
theorem test_wf_refuses_legal_word : Instr.wf (.illegal 0x00000001) = false := by decide
theorem test_wf_refuses_legal_build : Instr.wf (.illegal 0x00000304) = false := by decide
theorem test_wf_accepts_reserved_word : Instr.wf (.illegal 0x00000105) = true := by decide

/-! ## Decoding, word by word (R61, R62, R65, R75) -/

theorem test_decode_hdrParse : decodeCommand 0b00000000000000000000000000000001 = .hdrParse := by decide
theorem test_decode_hdrSerialize : decodeCommand 0b00000000000000000000000000000010 = .hdrSerialize := by decide
theorem test_decode_hdrCheck : decodeCommand 0b00000000000000000000000000000011 = .hdrCheck := by decide
theorem test_decode_hdrBuild_rle :
    decodeCommand 0b00000000000000000000000100000100 = .hdrBuild true false := by decide
theorem test_decode_hdrBuild_vflip :
    decodeCommand 0b00000000000000000000001000000100 = .hdrBuild false true := by decide
theorem test_decode_rleDecode : decodeCommand 0b00000000000000000000000000000101 = .rleDecode := by decide
theorem test_decode_rleEncode : decodeCommand 0b00000000000000000000000000000110 = .rleEncode := by decide
/-- V-X4, V-X2 and the highest reserved bit. -/
theorem test_decode_illegal :
    decodeCommand 0x00000404 = .illegal 0x00000404 ∧ decodeCommand 0x00000105 = .illegal 0x00000105 ∧
      decodeCommand 0x80000001 = .illegal 0x80000001 ∧ decodeCommand 0x00000000 = .illegal 0 := by decide
/-- V-L1-9: raw, `c + 1` pixels. -/
theorem test_decode_rawPacket :
    decodeControl 0b00000001 = .rawPacket 1 ∧ decodeControl 0b01111111 = .rawPacket 127 := by decide
/-- V-L1-9: run, `c - 127` pixels. -/
theorem test_decode_runPacket :
    decodeControl 0b10000001 = .runPacket 1 ∧ decodeControl 0b11111111 = .runPacket 127 := by decide
/-- The packet lengths of V-L1-9. -/
theorem test_packet_lengths :
    packetLength 0x7F 1 = 129 ∧ packetLength 0x7F 3 = 385 ∧ packetLength 0x7F 4 = 513 ∧
      packetLength 0xFF 4 = 5 ∧ packetLength 0x00 3 = 4 := by decide

/-! ## One step of each instruction -/

/-- V-H5: the 16-bit fields are little-endian. -/
theorem test_hdrParse_fields :
    after (exec .hdrParse (issue 1 (launched
        [0x00, 0x00, 0x02, 0, 0, 0, 0, 0, 0x34, 0x12, 0, 0, 0x80, 0x02, 0xE0, 0x01, 0x18, 0x20] .exhausted none [])))
      (fun t => (t.hdr.xorg, t.hdr.width, t.hdr.height, t.hdr.desc, t.inCount, t.status)) =
    some (0x1234, 640, 480, 0x20, 18, 0x00010002) := by decide

/-- V-H3: ten bytes, then END. -/
theorem test_hdrParse_truncated :
    after (exec .hdrParse (issue 1 (launched (List.replicate 10 7) .exhausted none [])))
      (fun t => (t.hdr, t.inCount, t.srcPos, t.status)) = some (Header.zero, 10, 10, 0x00010136) := by decide

/-- V-H20: every byte in its place. -/
theorem test_hdrSerialize_bytes :
    after (exec .hdrSerialize (issue 2 { bare with
        hdr := ⟨1, 2, 3, ⟨4, 5, 6, 7, 8⟩, 0x0A09, 0x0C0B, 0x0E0D, 0x100F, 0x11, 0x12⟩ }))
      (fun t => (t.sinkOut, t.outCount, t.status)) =
    some ([1, 2, 3, 4, 5, 6, 7, 8, 9, 10, 11, 12, 13, 14, 15, 16, 17, 18], 18, 0x00020002) := by decide

/-- V-H19: five bytes left below the limit. -/
theorem test_hdrSerialize_sink_full :
    after (exec .hdrSerialize (issue 2 { launched [] .exhausted (some 5) [] with hdr := hdrH1 }))
      (fun t => (t.sinkOut, t.outCount, t.status)) = some ([0x00, 0x00, 0x0A, 0x00, 0x00], 5, 0x00020026) := by decide

/-- V-H10. -/
theorem test_hdrCheck_passes :
    after (exec .hdrCheck (issue 3 { bare with hdr := hdrH1 }))
      (fun t => (t.cfgWidth, t.cfgHeight, t.cfgChannels, t.hdrInfo, t.status)) =
    some (2, 1, 3, 0x33, 0x00030002) := by decide

/-- V-H13: two failed checks, the header error reported. -/
theorem test_hdrCheck_fails :
    after (exec .hdrCheck (issue 3 { bare with hdr := { hdrH1 with width := 0, imgtype := 1 }, hdrInfo := 0x33 }))
      (fun t => (t.cfgWidth, t.hdrInfo, t.status)) = some (0, 0, 0x00031236) := by decide

/-- V-H7. -/
theorem test_hdrBuild_gray_flipped :
    after (exec (.hdrBuild true true) (issue 0x304 (configured 5 7 1 bare)))
      (fun t => (t.hdr.imgtype, t.hdr.bpp, t.hdr.desc, t.hdr.width, t.hdr.height, t.hdrInfo)) =
    some (11, 8, 0x00, 5, 7, 0x17) := by decide

/-- V-H9, the last case. -/
theorem test_hdrBuild_bad_config :
    after (exec (.hdrBuild false false) (issue 4 { bare with hdr := hdrH1 })) (fun t => (t.hdr, t.status)) =
    some (hdrH1, 0x00040786) := by decide

/-- V-D13: the image is one byte larger than PBUF. -/
theorem test_rleDecode_too_large :
    after (exec .rleDecode (issue 5 (configured 3 1 3 (State.launch ⟨8, none, [2, 1], .exhausted⟩ []))))
      (fun t => (t.srcPos, t.status)) = some (0, 0x00050886) := by decide

/-- V-D2: the second packet of `80 05 82 06`. -/
theorem test_rleDecode_packet :
    after (exec .rleDecode (running .decoding 5 1 { configured 4 1 1 (launched [0x80, 5, 0x82, 6] .exhausted none [(0, 5)])
        with srcPos := 2 }))
      (fun t => (t.pbuf, t.pixCount, t.srcPos, t.eng.op)) =
    some ([(0, 5), (1, 6), (2, 6), (3, 6)], 4, 4, .decoding) := by decide

/-- V-E4: the pair is not absorbed. -/
theorem test_rleEncode_raw_before_pair :
    after (exec .rleEncode (running .encoding 6 0
        (configured 3 1 1 (launched [] .exhausted none [(0, 0x0A), (1, 0x0B), (2, 0x0B)]))))
      (fun t => (t.sinkOut, t.pixCount, t.pktCount)) = some ([0x00, 0x0A], 1, 1) := by decide

/-- V-E16: the sink fills up inside the second packet. -/
theorem test_rleEncode_sink_full :
    after (exec .rleEncode (running .encoding 6 1
        { configured 3 1 1 (launched [] .exhausted (some 3) [(0, 0x0A), (1, 0x0B), (2, 0x0B)]) with
          sinkOut := [0x00, 0x0A] }))
      (fun t => (t.sinkOut, t.pixCount, t.status)) = some ([0x00, 0x0A, 0x81], 1, 0x00060026) := by decide

/-- V-X5. -/
theorem test_illegal_all_causes :
    after (exec (.illegal 0x80000107) (issue 0x80000107 bare)) (fun t => t.status) = some 0x00070776 := by decide

/-- V-X6. -/
theorem test_illegal_flags :
    after (exec (.illegal 0x000002FF) (issue 0x000002FF bare)) (fun t => t.status) = some 0x00FF0576 := by decide

/-- V-D1, after its control byte. -/
theorem test_rawPacket_literals :
    after (exec (.rawPacket 2) (running .decoding 5 0
        { configured 3 1 1 (launched [2, 0x0A, 0x0B, 0x0C] .exhausted none []) with srcPos := 1 }))
      (fun t => (t.pbuf, t.srcPos, t.pixCount, t.pktCount)) = some ([(0, 0x0A), (1, 0x0B), (2, 0x0C)], 4, 3, 1) := by
  decide

/-- V-D7: the payload is cut short. -/
theorem test_rawPacket_truncated :
    after (exec (.rawPacket 2) (running .decoding 5 0
        { configured 3 1 1 (launched [2, 0x0A, 0x0B] .exhausted none []) with srcPos := 1 }))
      (fun t => (t.srcPos, t.pixCount, t.pktCount, t.status)) = some (3, 0, 0, 0x00050256) := by decide

/-- V-D5: one pixel of four bytes, four times. -/
theorem test_runPacket_repeats :
    after (exec (.runPacket 3) (running .decoding 5 0
        { configured 2 2 4 (launched [0x83, 1, 2, 3, 4] .exhausted none []) with srcPos := 1 }))
      (fun t => (t.pbuf.readBytes 0 16, t.pbuf.read 16)) = some ([1, 2, 3, 4, 1, 2, 3, 4, 1, 2, 3, 4, 1, 2, 3, 4], 0) := by
  decide

/-- V-D8: OVERRUN although the payload is missing too. -/
theorem test_runPacket_overrun :
    after (exec (.runPacket 1) (running .decoding 5 0
        { configured 1 1 1 (launched [0x81] .exhausted none []) with srcPos := 1 }))
      (fun t => (t.srcPos, t.status)) = some (1, 0x00050066) := by decide

/-! ## The machine around the instructions -/

/-- A row's word placed for the next step runs as its instruction, right after reset. -/
theorem test_fetch_command :
    after (step (State.reset.withFetchWord 32 0x00000003)) (fun t => t.status) = some 0x00031E36 := by decide

theorem test_fetch_packet :
    after (step (State.reset.withFetchWord 8 0x81)) (fun t => (t.eng.pcur, t.pixCount, t.inCount)) = some (2, 2, 2) := by
  decide

/-- V-S8: a register read while BUSY = 1. -/
theorem test_busy_read_faults :
    (hostAccess (.regRead 32 0x18) (issue 5 bare)).2.faultMark = some .busyRegRead := by decide

/-- V-S10. -/
theorem test_channels_bits :
    (hostAccess (.regRead 32 0x10) (hostAccess (.regWrite 32 0x10 0xFF) bare).2).1 = .word 7 := by decide

/-! ## Witnesses: a case that meets the hypotheses of each obligation -/

/-- The invariant of a state right after an issue, from conditions that can be decided. -/
theorem invariant_of_issued {s : State} (i : Instr) (hcap : 1 ≤ s.params.pbufBytes) (hform : s.pbuf.wf)
    (hin : ∀ c ∈ s.pbuf, c.1 < s.params.pbufBytes) (hsrc : s.srcPos ≤ s.params.src.length) (hsink : SinkWithin s)
    (hst : ∃ op, s.status = Status.issued op) (hop : s.eng.op = .ready i)
    (hi : i.isCommand = true ∧ i.wf = true ∧ opcodeOf i = some (Status.lastOp s.status) ∧
      s.pixCount = 0 ∧ s.pktCount = 0 ∧ s.inCount = 0 ∧ s.outCount = 0)
    (hstage : s.eng.stage = [] ∧ s.eng.hstage = []) (hinfo : s.hdrInfo = 0) : Invariant s where
  capacity := hcap
  pbufForm := hform
  pbufInside := hin
  source := hsrc
  sink := hsink
  status := by obtain ⟨op, h⟩ := hst; rw [h]; exact StatusOk.issued op
  busyOp := by obtain ⟨op, h⟩ := hst; simp [State.busy, h, Status.issued, hop]
  op := by simpa only [OpInv, hop] using hi
  staging := hstage
  info := .inl hinfo

/-- RLE_DECODE of V-L1-2, just issued. -/
def decodeIssued : State := issue 5 (configured 2 1 3 (launched [0x81, 0x1E, 0x14, 0x0A] .exhausted none []))

/-- RLE_DECODE of V-D7, just issued: it will fail. -/
def decodeIssuedShort : State := issue 5 (configured 3 1 1 (launched [2, 0x0A, 0x0B] .exhausted none []))

/-- RLE_ENCODE of V-E4 with a sink that takes `limit` bytes, just issued. -/
def encodeIssued (limit : Option Nat) : State :=
  issue 6 (configured 3 1 1 (launched [] .exhausted limit [(0, 0x0A), (1, 0x0B), (2, 0x0B)]))

theorem decodeIssued_invariant : Invariant decodeIssued :=
  invariant_of_issued .rleDecode (by decide) (by decide) (by decide) (by decide) trivial ⟨_, rfl⟩ (by decide)
    (by decide) (by decide) (by decide)

theorem decodeIssuedShort_invariant : Invariant decodeIssuedShort :=
  invariant_of_issued .rleDecode (by decide) (by decide) (by decide) (by decide) trivial ⟨_, rfl⟩ (by decide)
    (by decide) (by decide) (by decide)

theorem encodeIssued_invariant : Invariant (encodeIssued (some 4)) ∧ Invariant (encodeIssued (some 3)) :=
  ⟨invariant_of_issued .rleEncode (by decide) (by decide) (by decide) (by decide) (by show 0 ≤ 4; decide) ⟨_, rfl⟩
      (by decide) (by decide) (by decide) (by decide),
    invariant_of_issued .rleEncode (by decide) (by decide) (by decide) (by decide) (by show 0 ≤ 3; decide) ⟨_, rfl⟩
      (by decide) (by decide) (by decide) (by decide)⟩

/-- Whether `n` steps without a reset, all of them from busy states, end the command in progress. -/
def endsWithin : Nat → State → Bool
  | 0, s => !s.busy
  | n + 1, s =>
    s.busy && nextTurn s != .reset &&
      match step s with
      | .next t => endsWithin n t
      | .fault _ => false
      | .refused _ => false

/-- Such steps continue a command's run to its end. -/
theorem commandRun_of_endsWithin (n : Nat) : ∀ {e : Nat} {s u : State}, CommandRun e s u → endsWithin n u = true →
    ∃ k t, CommandRun k s t ∧ t.busy = false := by
  induction n with
  | zero => intro e s u hr h; exact ⟨e, u, hr, by simpa [endsWithin] using h⟩
  | succ n ih =>
    intro e s u hr h
    simp only [endsWithin, Bool.and_eq_true, bne_iff_ne] at h
    obtain ⟨⟨hb, hreset⟩, h⟩ := h
    split at h
    · rename_i t ht
      by_cases he : nextTurn u = .engine
      · exact ih (hr.engine hb he ht) h
      · exact ih (hr.host hb he hreset ht) h
    · cases h
    · cases h

/-- The turns to come are no part of the invariant, nor is the host script. -/
theorem invariant_of_turns {s : State} (h : Invariant s) (ts : List Turn) (x : HostState) :
    Invariant { s with turns := ts, host := x } :=
  ⟨h.capacity, h.pbufForm, h.pbufInside, h.source, h.sink, h.status, h.busyOp, h.op, h.staging, h.info⟩

/-- The turns of a host that polls STATUS (`WAITIDLE`, R75) between the engine's steps, and a second host. -/
def polled (s : State) : State :=
  { s with
    turns := [.host, .host, .engine, .host, .engine, .otherHost (.take 1)]
    host := ⟨Script.waitIdle 0, 0, 0, 0, []⟩ }

theorem witness_DecodeOfEncode :
    Instr.wf (.hdrBuild true true) = true ∧ Instr.wf (.illegal 0xFFFFFFFF) = true ∧ Instr.wf (.runPacket 127) = true := by
  decide

/-- The legal and the illegal side of each of the three conditions of R63. -/
theorem witness_LegalCommandWords :
    legalWord 1 = true ∧ legalWord 6 = true ∧ legalWord 0x304 = true ∧ legalWord 0 = false ∧ legalWord 7 = false ∧
      legalWord 0x400 = false ∧ legalWord 0x404 = false ∧ legalWord 0x103 = false := by decide

theorem witness_ControlByteCountAndLength :
    (127 : Byte).toNat < 128 ∧ 128 ≤ (128 : Byte).toNat ∧ (0 : Byte).toNat < 128 ∧ 128 ≤ (255 : Byte).toNat := by decide

theorem witness_StepRunsIssuedCommand :
    (issue 3 bare).eng.op = .ready .hdrCheck ∧ (issue 3 bare).turns = [] ∧ (issue 3 bare).busy = true ∧
      { issue 3 bare with turns := [.engine, .reset] }.turns = .engine :: [.reset] := by decide

/-- RLE_DECODE at the packet of V-D4. -/
def atPacket : State := running .decoding 5 0 (configured 128 1 1 (launched [0xFF, 7] .exhausted none []))

theorem witness_StepRunsPacketAtSource :
    atPacket.eng.op = .decoding ∧ atPacket.eng.pcur < atPacket.pixels ∧
      atPacket.params.src[atPacket.srcPos]? = some 0xFF ∧ atPacket.turns = [] ∧ atPacket.busy = true ∧
      { atPacket with turns := [.engine] }.turns = .engine :: [] := by decide

theorem witness_StepRunsFetchWord :
    decodeTableWord 8 0x80 = some (.runPacket 0) ∧ decodeTableWord 32 0x104 = some (.hdrBuild true false) ∧
      decodeTableWord 32 0 = some (.illegal 0) := by decide

theorem witness_CommandIssue : bare.busy = false := by decide

theorem witness_FieldsAndBytesAreInverse : headerH1.length = 18 := by decide

/-- Exactly 18 bytes left; 17 left with each terminal. -/
theorem witness_HdrParseEffect :
    18 ≤ (launched headerH1 .exhausted none []).remaining.length ∧
      (launched headerH1.tail .exhausted none []).remaining.length < 18 ∧
      (launched headerH1.tail .exhausted none []).params.term = .exhausted ∧
      (launched headerH1.tail .failed none []).params.term = .failed := by decide

/-- Room for exactly 18 bytes; room for 17. -/
theorem witness_HdrSerializeEffect :
    (∀ limit, (launched [] .exhausted (some 18) []).params.sinkLimit = some limit →
      (launched [] .exhausted (some 18) []).sinkOut.length + 18 ≤ limit) ∧
    ((launched [] .exhausted (some 17) []).params.sinkLimit = some 17 ∧
      17 < (launched [] .exhausted (some 17) []).sinkOut.length + 18) := by
  refine ⟨?_, by decide⟩
  intro limit h
  simp [launched, State.launch] at h ⊢
  omega

/-- A header that passes; one with a bad size; one with a bad type alone. -/
theorem witness_HdrCheckEffect :
    (hdrH1.width ≠ 0 ∧ hdrH1.height ≠ 0 ∧ hdrH1.bpp = 24 ∧ hdrH1.imgtype = 10) ∧
      { hdrH1 with width := 0 }.width = 0 ∧ { hdrH1 with bpp := 25 }.bpp = 25 ∧
      ({ hdrH1 with imgtype := 1 }.width ≠ 0 ∧ { hdrH1 with imgtype := 1 }.imgtype = 1) := by decide

theorem witness_HdrBuildEffect :
    ((configured 1 1 4 bare).cfgWidth ≠ 0 ∧ (configured 1 1 4 bare).cfgHeight ≠ 0 ∧
      (configured 1 1 4 bare).cfgChannels.toNat = 4) ∧ (configured 1 1 2 bare).cfgChannels.toNat = 2 ∧
      (configured 0 1 1 bare).cfgWidth = 0 := by decide

theorem witness_BuiltHeaderPassesCheck :
    after (exec (.hdrBuild true true) (issue 0x304 (configured 5 7 1 bare))) (fun t => Status.err t.status) =
      some false := by decide

theorem witness_IllegalWordRaises :
    bare.busy = false ∧ legalWord 0x00000000 = false ∧ legalWord 0x80000107 = false ∧ legalWord 0x404 = false := by decide

/-- BAD_CONFIG at both RLE commands (capacity alone: 9 > 8), and at HDR_BUILD. -/
theorem witness_BadConfigurationRaises :
    let s := configured 3 1 3 (State.launch ⟨8, none, [], .exhausted⟩ [])
    (issue 5 s).eng.op = .ready .rleDecode ∧ (issue 6 s).eng.op = .ready .rleEncode ∧
      s.params.pbufBytes < s.cfgWidth.toNat * s.cfgHeight.toNat * s.cfgChannels.toNat ∧
      (configured 1 1 2 bare).cfgChannels.toNat = 2 := by decide

/-- An image of exactly PBUF_BYTES bytes. -/
theorem witness_RleSetupStep :
    let s := configured 16 1 4 bare
    (issue 5 s).eng.op = .ready .rleDecode ∧ (issue 6 s).eng.op = .ready .rleEncode ∧ s.cfgWidth ≠ 0 ∧
      s.cfgHeight ≠ 0 ∧ s.cfgChannels.toNat = 4 ∧
      s.cfgWidth.toNat * s.cfgHeight.toNat * s.cfgChannels.toNat = s.params.pbufBytes := by decide

theorem witness_RleEndStep :
    let s := configured 2 1 1 bare
    (running .decoding 5 2 s).eng.op = .decoding ∧ (running .encoding 6 2 s).eng.op = .encoding ∧
      (running .decoding 5 2 s).pixels ≤ (running .decoding 5 2 s).eng.pcur := by decide

/-- A packet that ends exactly at the image's end, with exactly its payload at hand. -/
theorem witness_RawPacketEffect :
    let s := running .decoding 5 1 (configured 3 1 3 (launched [1, 2, 3, 4, 5, 6] .exhausted none []))
    s.pbuf.wf ∧ s.eng.pcur + ((1 : BitVec 7).toNat + 1) = s.pixels ∧
      ((1 : BitVec 7).toNat + 1) * s.channels = s.remaining.length := by decide

theorem witness_RunPacketEffect :
    let s := running .decoding 5 0 (configured 128 1 4 (State.launch ⟨512, none, [1, 2, 3, 4], .exhausted⟩ []))
    s.pbuf.wf ∧ s.eng.pcur + ((127 : BitVec 7).toNat + 1) = s.pixels ∧ s.channels = s.remaining.length := by decide

/-- One pixel too many, at the packet and at its control byte. -/
theorem witness_OverrunComesFirst :
    let s := running .decoding 5 2 (configured 3 1 1 (launched [0, 0, 0x81] .exhausted none []))
    let u := { s with srcPos := 2 }
    s.pixels < s.eng.pcur + (1 : BitVec 7).toNat + 1 ∧ u.eng.op = .decoding ∧ u.eng.pcur < u.pixels ∧
      u.params.src[u.srcPos]? = some 0x81 ∧ u.pixels < u.eng.pcur + (0x81 : Byte).toNat % 128 + 1 := by decide

/-- One byte too few, with each terminal and for each packet kind. -/
theorem witness_PayloadCutShort :
    let s := fun t => running .decoding 5 0 (configured 2 1 3 (launched [1, 2] t none []))
    (s .exhausted).eng.pcur + (1 : BitVec 7).toNat + 1 ≤ (s .exhausted).pixels ∧
      (s .exhausted).remaining.length < (s .exhausted).channels ∧
      (s .exhausted).remaining.length < ((1 : BitVec 7).toNat + 1) * (s .exhausted).channels ∧
      (s .exhausted).params.term = .exhausted ∧ (s .failed).params.term = .failed := by decide

theorem witness_NoControlByte :
    let s := fun t => running .decoding 5 2 (configured 3 1 1 (launched [] t none []))
    (s .exhausted).eng.op = .decoding ∧ (s .exhausted).eng.pcur < (s .exhausted).pixels ∧
      (s .exhausted).remaining = [] ∧ (s .exhausted).params.term = .exhausted ∧ (s .failed).params.term = .failed := by
  decide

/-- Each clause at its boundary: one pixel too many, one payload byte too few, and exactly enough, for both kinds. -/
theorem witness_DecFollowsItsRecursion :
    (0 < 1 ∧ 1 < (0x81 : Byte).toNat % 128 + 1) ∧
      ((0x01 : Byte).toNat < 128 ∧ (0x01 : Byte).toNat % 128 + 1 ≤ 2 ∧
        ([7] : List Byte).length < ((0x01 : Byte).toNat % 128 + 1) * 1) ∧
      (((0x01 : Byte).toNat % 128 + 1) * 1 ≤ ([7, 8] : List Byte).length ∧
        dec .exhausted (([7, 8] : List Byte).drop 2) (2 - 2) 1 = .ok [] 0 ∧
        dec .exhausted (([7, 8] : List Byte).drop 2) (3 - 2) 1 = .err .truncatedPayload 0x01) ∧
      (128 ≤ (0x81 : Byte).toNat ∧ (0x81 : Byte).toNat % 128 + 1 ≤ 2 ∧ 1 ≤ ([7] : List Byte).length) := by decide

theorem witness_EncFollowsItsRecursion :
    ([[5], [6]] : List Pixel).head? = some [5] ∧ ([[6]] : List Pixel).head? ≠ some [5] ∧
      ([] : List Pixel).head? ≠ some [5] := by decide

/-- A decode that succeeds, polled by its host, and one that fails with the engine alone; what each has counted. -/
theorem witness_DecodeCommandComputesDec :
    (Invariant (polled decodeIssued) ∧ (polled decodeIssued).eng.op = .ready .rleDecode ∧
      (polled decodeIssued).cfgDetail = 0 ∧
      dec .exhausted (polled decodeIssued).remaining 2 3 = .ok [0x1E, 0x14, 0x0A, 0x1E, 0x14, 0x0A] 4 ∧
      decCounts (polled decodeIssued).remaining 2 3 = ⟨2, 1, 4⟩) ∧
    (Invariant decodeIssuedShort ∧ decodeIssuedShort.eng.op = .ready .rleDecode ∧ decodeIssuedShort.turns = [] ∧
      decodeIssuedShort.cfgDetail = 0 ∧
      dec .exhausted decodeIssuedShort.remaining 3 1 = .err .truncatedPayload 0x02 ∧
      decCounts decodeIssuedShort.remaining 3 1 = ⟨0, 0, 3⟩) :=
  ⟨⟨invariant_of_turns decodeIssued_invariant _ _, by decide⟩, decodeIssuedShort_invariant, by decide⟩

theorem witness_DecodeCommandComputesDec_run :
    (∃ k t, CommandRun k (polled decodeIssued) t ∧ t.busy = false) ∧
      ∃ k t, CommandRun k decodeIssuedShort t ∧ t.busy = false :=
  ⟨commandRun_of_endsWithin 7 (.start _) (by decide), commandRun_of_endsWithin 2 (.start _) (by decide)⟩

theorem witness_TurnsLetEnd : TurnsLetEnd (polled decodeIssued) ∧ TurnsLetEnd decodeIssuedShort := by
  simp only [TurnsLetEnd]
  decide

/-- V-D2. -/
theorem witness_DecodeBounds : 1 ≤ 1 ∧ dec .exhausted [0x80, 5, 0x82, 6] 4 1 = .ok [5, 6, 6, 6] 4 := by decide

theorem witness_RunLengthIsMaximal :
    let px := pixelOf [[5], [5], [6]]
    0 + 1 < 3 ∧ px 0 = px (0 + 1) := by decide

/-- Inside the sequence, and at its last pixel. -/
theorem witness_RawLengthStopsAtPair :
    let px := pixelOf [[5], [6], [6]]
    (0 < 3 ∧ (0 + 1 < 3 → px 0 ≠ px (0 + 1))) ∧ (2 < 3 ∧ (2 + 1 < 3 → px 2 ≠ px (2 + 1))) := by decide

/-- RLE_ENCODE of V-E4 past its setup, at its raw packet and at its run, with room and without. -/
def encoding (p : Nat) (limit : Option Nat) : State :=
  running .encoding 6 p (configured 3 1 1 (launched [] .exhausted limit [(0, 0x0A), (1, 0x0B), (2, 0x0B)]))

theorem witness_EncodePacketStep :
    (encoding 0 none).eng.op = .encoding ∧ (encoding 0 none).eng.pcur < (encoding 0 none).pixels ∧
      (encoding 0 none).pbuf.readBytes 0 1 ≠ (encoding 0 none).pbuf.readBytes 1 1 ∧
      (encoding 1 none).pbuf.readBytes 1 1 = (encoding 1 none).pbuf.readBytes 2 1 ∧
      (encoding 0 none).params.sinkLimit = none ∧
      ((encoding 1 (some 1)).params.sinkLimit = some 1 ∧ 1 < (encoding 1 (some 1)).sinkOut.length + 2) := by decide

/-- Room for exactly the stream, and for one byte less, where the second of the two packets of V-E4 fails. -/
theorem witness_EncodeCommandComputesEnc :
    (Invariant (encodeIssued (some 4)) ∧ (encodeIssued (some 4)).eng.op = .ready .rleEncode ∧
      (encodeIssued (some 4)).turns = [] ∧ (encodeIssued (some 4)).cfgDetail = 0 ∧
      (encodeIssued (some 4)).sinkOut.length + (enc (encodeIssued (some 4)).image).length = 4 ∧
      encPackets (encodeIssued (some 4)).image = [(1, [0x00, 0x0A]), (2, [0x81, 0x0B])]) ∧
    (Invariant (encodeIssued (some 3)) ∧ (encodeIssued (some 3)).eng.op = .ready .rleEncode ∧
      (encodeIssued (some 3)).turns = [] ∧ (encodeIssued (some 3)).cfgDetail = 0 ∧
      3 < (encodeIssued (some 3)).sinkOut.length + (enc (encodeIssued (some 3)).image).length) :=
  ⟨⟨encodeIssued_invariant.1, by decide⟩, encodeIssued_invariant.2, by decide⟩

theorem witness_EncodeCommandComputesEnc_run :
    (∃ k t, CommandRun k (encodeIssued (some 4)) t ∧ t.busy = false) ∧
      ∃ k t, CommandRun k (encodeIssued (some 3)) t ∧ t.busy = false :=
  ⟨commandRun_of_endsWithin 4 (.start _) (by decide), commandRun_of_endsWithin 3 (.start _) (by decide)⟩

/-- One pixel of each legal size. -/
theorem witness_DecodeOfEncodedPixels :
    (∀ v ∈ [[5], [6], [6]], (v : Pixel).length = 1) ∧ (∀ v ∈ [[5, 6, 7]], (v : Pixel).length = 3) ∧
      (∀ v ∈ [[5, 6, 7, 8]], (v : Pixel).length = 4) := by decide

theorem witness_EncoderOutputBounds :
    1 ≤ ([[5]] : List Pixel).length ∧ (∀ v ∈ ([[5]] : List Pixel), v.length = 1) := by decide

/-- V-E18's stream, as packets. -/
def canonicalExample : List Packet := [.raw [[0x0A], [0x0B]], .run 3 [0x0C], .raw [[0x0D]]]

theorem witness_CanonicalStreams_pixels : ∀ v ∈ ([[0x0A], [0x0B]] : List Pixel), v.length = 1 := by decide

theorem witness_CanonicalStreams : (∀ p ∈ canonicalExample, p.wf 1) ∧ canonicalPackets canonicalExample := by
  simp [canonicalExample, Packet.wf, canonicalPackets, Packet.canonical, Packet.pixels, Packet.mayPrecede,
    Packet.lastDiffers, Packet.first, Config.maxPacket]

theorem witness_BusyHazard :
    (issue 5 bare).busy = true ∧ HostAction.regRead 32 0x18 ≠ .regRead 32 0x04 ∧
      HostAction.regRead 16 0x04 ≠ .regRead 32 0x04 := by decide

/-- Each kind of access hazard at its boundary; the reserved offsets at both ends of their ranges. -/
theorem witness_AccessHazard :
    16 ≠ 32 ∧ 0x02 % 4 ≠ 0 ∧ 0x100 ≤ 0x100 ∧ bare.params.pbufBytes ≤ 64 ∧ bare.busy = false ∧
      0x38 % 4 = 0 ∧ 0x6C % 4 = 0 ∧ 0xFC % 4 = 0 := by decide

theorem witness_BufferPort :
    bare.pbuf.wf ∧ bare.busy = false ∧ 63 < bare.params.pbufBytes ∧ bare.params.pbufBytes ≤ 64 ∧
      (issue 5 bare).pbuf.wf ∧ (issue 5 bare).busy = true := by decide

/-- The window's first and last offset among the aligned ones. -/
theorem witness_RegisterMapOffsets :
    0x6C ≤ 0x6C ∧ 0x6A % 4 ≠ 0 ∧ bare.busy = false ∧ 0x00 % 4 = 0 ∧ 0xFC % 4 = 0 ∧ 0xFC < 0x100 := by decide

theorem witness_RegisterWrites :
    bare.busy = false ∧ Reg.hdrInfo ≠ .cfgWidth ∧ Reg.offset .cfgWidth < 0x40 ∧ 0x40 % 4 = 0 ∧ 0x68 % 4 = 0 := by decide

theorem witness_PbufCapIsConstant : after (step { bare with turns := [.reset] }) (fun _ => true) = some true := by decide

theorem witness_HostTakeAndPut :
    bare.busy = false ∧ bare.params.sinkLimit = none ∧
      (launched [] .exhausted (some 3) []).params.sinkLimit = some 3 := by decide

/-- A byte left, none left; room for one byte, no room. -/
theorem witness_StreamPrimitives :
    (launched [7] .exhausted none []).srcPos < (launched [7] .exhausted none []).params.src.length ∧
      bare.params.src.length ≤ bare.srcPos ∧
      (∀ limit, (launched [] .exhausted (some 1) []).params.sinkLimit = some limit →
        (launched [] .exhausted (some 1) []).sinkOut.length < limit) ∧
      ((launched [] .exhausted (some 0) []).params.sinkLimit = some 0 ∧
        0 ≤ (launched [] .exhausted (some 0) []).sinkOut.length) := by
  refine ⟨by decide, by decide, ?_, by decide⟩
  intro limit h
  simp [launched, State.launch] at h ⊢
  omega

/-- A host at line `pc` of a script, with `last`. -/
def scripted (script : List ScriptLine) (pc sub : Nat) (last : Word) : State :=
  { bare with host := ⟨script, pc, sub, last, []⟩ }

/-- Every kind of line: a register line while idle and while busy, another access, a label, `BNZ` taken and not taken,
`JMP` to a label and to none, `HALT`, and no line. -/
theorem witness_ScriptTurns :
    let script : List ScriptLine :=
      [.label 1, .rd .status, .wr .cfgWidth 3, .bnz 1 1, .jmp 1, .jmp 2, .halt, .access (.regRead 16 0), .bnz 1 2]
    let s := fun pc last => scripted script pc 0 last
    (s 1 0).host.script[(s 1 0).host.pc]? = some (.rd .status) ∧ (s 1 0).busy = false ∧
      (s 2 0).host.script[(s 2 0).host.pc]? = some (.wr .cfgWidth 3) ∧
      (s 3 0).host.script[(s 3 0).host.pc]? = some (.bnz 1 1) ∧ (s 3 0).host.last &&& 1 = 0 ∧
      (s 3 1).host.last &&& 1 ≠ 0 ∧ findLabel script 1 = some 0 ∧
      (s 4 0).host.script[(s 4 0).host.pc]? = some (.jmp 1) ∧
      (s 5 0).host.script[(s 5 0).host.pc]? = some (.jmp 2) ∧ findLabel script 2 = none ∧
      (s 6 0).host.script[(s 6 0).host.pc]? = some .halt ∧
      (s 0 0).host.script[(s 0 0).host.pc]? = some (.label 1) ∧
      (s 7 0).host.script[(s 7 0).host.pc]? = some (.access (.regRead 16 0)) ∧
      (s 8 1).host.script[(s 8 1).host.pc]? = some (.bnz 1 2) ∧ (s 8 1).host.last &&& 1 ≠ 0 ∧
      (s 9 0).host.script[(s 9 0).host.pc]? = none ∧
      (issue 5 (s 1 0)).busy = true ∧ (issue 5 (s 1 0)).host.script[(issue 5 (s 1 0)).host.pc]? = some (.rd .status) ∧
      (issue 5 (s 2 0)).busy = true ∧
      (issue 5 (s 2 0)).host.script[(issue 5 (s 2 0)).host.pc]? = some (.wr .cfgWidth 3) := by decide

/-- The poll of `WAITIDLE` while BUSY = 1: `last` takes STATUS, and FAULT stays clear. -/
theorem test_script_poll :
    after (hostStep (issue 5 (scripted (Script.waitIdle 0) 1 0 0))) (fun t => (t.host.last, t.host.pc, t.faultMark)) =
      some (0x00050001, 2, none) := by decide

/-- `TAKE`, `PUT`, and the last byte of a `PBW` and a `PBR` line at the end of PBUF; a line of no byte; a byte beyond
PBUF; and a line while BUSY = 1. -/
theorem witness_ScriptTransfers :
    let script : List ScriptLine := [.take 2, .put [1], .pbw 62 [1, 2], .pbr 62 2, .pbw 0 [], .pbr 0 0, .pbr 64 1]
    let s := fun pc sub => scripted script pc sub 0
    (s 0 0).host.script[(s 0 0).host.pc]? = some (.take 2) ∧ (s 0 0).busy = false ∧
      (s 1 0).host.script[(s 1 0).host.pc]? = some (.put [1]) ∧
      (s 2 1).host.script[(s 2 1).host.pc]? = some (.pbw 62 [1, 2]) ∧ ([1, 2] : List Byte)[(s 2 1).host.sub]? = some 2 ∧
      62 + (s 2 1).host.sub < (s 2 1).params.pbufBytes ∧
      (s 3 1).host.script[(s 3 1).host.pc]? = some (.pbr 62 2) ∧ (s 3 1).host.sub < 2 ∧
      62 + (s 3 1).host.sub < (s 3 1).params.pbufBytes ∧
      (s 4 0).host.script[(s 4 0).host.pc]? = some (.pbw 0 []) ∧ ([] : List Byte).length ≤ (s 4 0).host.sub ∧
      (s 5 0).host.script[(s 5 0).host.pc]? = some (.pbr 0 0) ∧ 0 ≤ (s 5 0).host.sub ∧
      (s 6 0).host.script[(s 6 0).host.pc]? = some (.pbr 64 1) ∧
      (s 6 0).params.pbufBytes ≤ 64 + (s 6 0).host.sub ∧
      (issue 5 (s 0 0)).busy = true ∧ (issue 5 (s 0 0)).host.script[(issue 5 (s 0 0)).host.pc]? = some (.take 2) := by
  decide

theorem witness_IdleEngineKeepsState :
    bare.eng.op = .idle ∧ { bare with turns := [.engine, .host] }.turns = .engine :: [.host] := by decide

theorem witness_PixelsAreComparedByteForByte : 3 < (configured 1 1 4 bare).channels := by decide

theorem witness_InvariantAtLaunch :
    1 ≤ bare.params.pbufBytes ∧ Memory.wf [(0, 5), (63, 6)] ∧
      ∀ c ∈ ([(0, 5), (63, 6)] : Memory), c.1 < bare.params.pbufBytes := by decide

/-- The engine's first step of a decode. -/
theorem witness_InvariantKeptByStep :
    Invariant decodeIssued ∧ after (step decodeIssued) (fun t => t.eng.op) = some .decoding :=
  ⟨decodeIssued_invariant, by decide⟩

theorem witness_FaultIsNeverCleared :
    let s := { bare with faultMark := some .busyTake, turns := [.reset] }
    s.faultMark = some .busyTake ∧ after (step s) (fun _ => true) = some true := by decide

/-- The pseudo-instructions of R75 in a row: `CFG 2, 1, 3`, `RLE_DECODE`, `WAITIDLE`. -/
theorem witness_StepStopsOnlyAtMissingLabel :
    scriptWf (Script.cfg 2 1 3 ++ Script.command 0x00000005 ++ Script.waitIdle 0) = true ∧
      scriptWf [.jmp 1] = false := by decide

theorem witness_StreamsOnlyAdvance : after (step decodeIssued) (fun _ => true) = some true := by decide

/-- A step of another command, and an address at the image's end. -/
theorem witness_PbufWriters :
    Invariant (encodeIssued (some 4)) ∧ (encodeIssued (some 4)).eng.op ≠ .decoding ∧
      after (engineStep (encodeIssued (some 4))) (fun t => t.eng.op) = some .encoding ∧
      (encodeIssued (some 4)).pixels * (encodeIssued (some 4)).channels ≤ 3 ∧
      HostAction.put [1] ≠ .bufWrite 0 0 :=
  ⟨encodeIssued_invariant.1, by decide⟩

/-- HDR_CHECK of V-H10 changes HDRINFO; so does a host write to the first and the last HDR_* register. -/
theorem witness_HdrInfoWriters :
    after (engineStep (issue 3 { bare with hdr := hdrH1 })) (fun t => t.hdrInfo) = some 0x33 ∧
      (hostAccess (.regWrite 32 0x68 0) { bare with hdrInfo := 0x33 }).2.hdrInfo = 0 ∧
      bare.busy = false ∧ 0x40 ≤ Reg.offset .hdrIdlen ∧ 0x40 ≤ Reg.offset .hdrDesc := by decide

/-- The invariant at the idle launch state. -/
theorem bare_invariant : Invariant bare where
  capacity := by decide
  pbufForm := by decide
  pbufInside := by decide
  source := by decide
  sink := trivial
  status := ⟨by decide, by decide, by decide, by decide, by decide⟩
  busyOp := by decide
  op := trivial
  staging := by decide
  info := .inl rfl

/-- HDR_CHECK just issued: its one step ends with an error. -/
theorem checkIssued_invariant : Invariant (issue 3 bare) :=
  invariant_of_issued .hdrCheck (by decide) (by decide) (by decide) (by decide) trivial ⟨_, rfl⟩ (by decide)
    (by decide) (by decide) rfl

/-- A step that issues a command, by a second host and by a line of each kind; one that ends it with an error; and a
reset. -/
theorem witness_StatusWriters :
    (Invariant { bare with turns := [.otherHost (.regWrite 32 0 3)] } ∧
      after (step { bare with turns := [.otherHost (.regWrite 32 0 3)] }) (fun t => t.busy) = some true) ∧
    (Invariant (scripted [.wr .cmd 3] 0 0 0) ∧
      after (step (scripted [.wr .cmd 3] 0 0 0)) (fun t => t.busy) = some true ∧
      after (step (scripted [.access (.regWrite 32 0 3)] 0 0 0)) (fun t => t.busy) = some true) ∧
    (Invariant (issue 3 bare) ∧
      after (step (issue 3 bare)) (fun t => (t.busy, Status.done t.status, Status.err t.status)) =
        some (false, true, true)) ∧
    Invariant { issue 3 bare with turns := [.reset] } ∧
      after (step { issue 3 bare with turns := [.reset] }) (fun t => (t.busy, Status.done t.status)) =
        some (false, false) :=
  ⟨⟨invariant_of_turns bare_invariant _ _, by decide⟩, ⟨invariant_of_turns bare_invariant _ _, by decide⟩,
    ⟨checkIssued_invariant, by decide⟩, invariant_of_turns checkIssued_invariant _ _, by decide⟩

theorem witness_EveryCommandEnds :
    Invariant (polled decodeIssuedShort) ∧ (polled decodeIssuedShort).busy = true ∧
      TurnsLetEnd (polled decodeIssuedShort) :=
  ⟨invariant_of_turns decodeIssuedShort_invariant _ _, by decide, by simp only [TurnsLetEnd]; decide⟩

/-- A reset of an idle block, and of one in the middle of a decode. -/
theorem witness_ResetEffect :
    { bare with turns := [.reset] }.turns.head? = some .reset ∧ bare.eng.op ≠ .decoding ∧
      { atPacket with turns := [.reset] }.turns.head? = some .reset ∧ atPacket.eng.op = .decoding ∧
      atPacket.pixels * atPacket.channels ≤ 128 := by decide

/-- `cmap[i]` stands at bits [8i+7:8i], and IN_COUNT's low word at the lower offset. -/
theorem test_register_layout :
    let s := { bare with hdr := { hdrH1 with cmap := ⟨1, 2, 3, 4, 5⟩ }, inCount := 0x0000000A0000000B }
    (hostAccess (.regRead 32 0x4C) s).1 = .word 0x04030201 ∧ (hostAccess (.regRead 32 0x50) s).1 = .word 5 ∧
      (hostAccess (.regRead 32 0x20) s).1 = .word 0x0B ∧ (hostAccess (.regRead 32 0x24) s).1 = .word 0x0A := by decide

/-- A second host's turn while BUSY = 0 and while BUSY = 1. -/
theorem witness_SecondHostAccess :
    let s := { bare with turns := [.otherHost (.regRead 8 0x01)] }
    s.turns = .otherHost (.regRead 8 0x01) :: [] ∧ s.busy = false ∧ (issue 5 s).busy = true ∧
      (issue 5 s).turns = .otherHost (.regRead 8 0x01) :: [] := by decide

theorem witness_LaunchState : Reg.status ≠ .pbufCapLo ∧ Reg.status ≠ .pbufCapHi := by decide

end Sys2Proof.Tests
end

section
/-! SUPPORT. What one step can do, said once for the statements about every step: the cases of a packet step, of an
abandoned decode and of a second host's access, and the parts of the state that every step keeps. -/

namespace Sys2Proof.Machine

/-! ### A packet step of RLE_DECODE -/

theorem State.length_remaining (s : State) : s.remaining.length = s.params.src.length - s.srcPos :=
  List.length_drop

/-- Taking the control byte and then `m` payload bytes takes `1 + m` bytes (R89). -/
theorem tookPayload_control (s : State) (m : Nat) :
    State.tookPayload { s with srcPos := s.srcPos + 1, inCount := s.inCount + 1 } m = s.tookPayload (1 + m) := by
  simp [State.tookPayload, BitVec.ofNat_add, BitVec.add_assoc, Nat.add_assoc]

/-- The state after a failure does not depend on what stood in the staging buffers. -/
theorem failDecode_tookPayload_zero (e : ErrorKind) (d : Byte) (s : State) :
    failDecode e d (s.tookPayload 0) = failDecode e d s := by
  simp [failDecode, State.tookPayload]

/-- From `s` to `t` a packet step has failed, with `k` source bytes taken (R89, R92, R96). -/
def PacketFails (s t : State) : Prop :=
  ∃ e d k, d.toNat < 32 ∧ k ≤ s.remaining.length ∧ t = failDecode e d (s.tookPayload k)

/-- What a packet step can do after its control byte: fail, or commit its whole payload (R89). -/
theorem packetStep_cases {n m : Nat} {expand : List Byte → List Byte} {s t : State}
    (h : packetStep n m expand s = .next t) :
    PacketFails s t ∨ (s.eng.pcur + n ≤ s.pixels ∧ m ≤ s.remaining.length ∧
      t = commitPacket n (expand (s.remaining.take m)) (s.tookPayload m)) := by
  rw [packetStep_eq] at h
  split at h
  case isTrue =>
    cases h
    exact .inl ⟨_, _, 0, by decide, Nat.zero_le _, (failDecode_tookPayload_zero ..).symm⟩
  case isFalse hroom =>
    split at h <;> cases h
    case isTrue hm => exact .inr ⟨Nat.le_of_not_lt hroom, hm, rfl⟩
    case isFalse =>
      refine .inl ⟨_, _, _, ?_, Nat.le_refl _, rfl⟩
      cases s.params.term <;> decide

@[simp] theorem length_repeatBytes (bs : List Byte) (n : Nat) : (repeatBytes bs n).length = n * bs.length := by
  simp [repeatBytes]

/-- What `exec` of a packet can do: fail, or commit `n` pixels made of at most `n` pixels' payload (R90, R91). -/
theorem exec_packet_cases {c : Byte} {s t : State} (h : exec (decodeControl c) s = .next t) :
    PacketFails s t ∨ ∃ n m bytes, s.eng.pcur + n ≤ s.pixels ∧ 1 ≤ n ∧ m ≤ n * s.channels ∧ m ≤ s.remaining.length ∧
      bytes.length = n * s.channels ∧ t = commitPacket n bytes (s.tookPayload m) := by
  unfold decodeControl at h
  generalize controlCount c = k at h
  have hpos : 1 ≤ pixelCount k := Nat.le_add_left ..
  cases hk : controlKind c <;> rw [hk] at h
  case raw =>
    have h : packetStep (pixelCount k) (payloadLength .raw k s.channels) id s = .next t := h
    refine (packetStep_cases h).imp_right ?_
    rintro ⟨hroom, hm, ht⟩
    exact ⟨_, _, _, hroom, hpos, Nat.le_refl _, hm, by simp [hm]; rfl, ht⟩
  case run =>
    have h : packetStep (pixelCount k) (payloadLength .run k s.channels) (repeatBytes · (pixelCount k)) s = .next t := h
    refine (packetStep_cases h).imp_right ?_
    rintro ⟨hroom, hm, ht⟩
    refine ⟨_, _, _, hroom, hpos, Nat.le_mul_of_pos_left _ hpos, hm, ?_, ht⟩
    rw [length_repeatBytes, List.length_take_of_le hm]
    rfl

/-- What `decode_packet()` can do: fail, or take a control byte and a payload and commit the packet (R89). -/
theorem decodePacket_cases {s t : State} (h : decodePacket s = .next t) :
    PacketFails s t ∨ ∃ n m bytes, s.eng.pcur + n ≤ s.pixels ∧ 1 ≤ n ∧ m ≤ n * s.channels ∧
      1 + m ≤ s.remaining.length ∧ bytes.length = n * s.channels ∧
      t = commitPacket n bytes (s.tookPayload (1 + m)) := by
  cases hr : s.remaining with
  | nil =>
    rw [decodePacket_nil hr] at h
    cases h
    refine .inl ⟨_, _, 0, ?_, Nat.zero_le _, (failDecode_tookPayload_zero ..).symm⟩
    cases s.params.term <;> decide
  | cons c rest =>
    rw [decodePacket_cons hr] at h
    have hrest : State.remaining { s with srcPos := s.srcPos + 1, inCount := s.inCount + 1 } = rest := by
      simpa [State.remaining] using congrArg List.tail hr
    have hlen : s.remaining.length = 1 + rest.length := by rw [hr, List.length_cons, Nat.add_comm]
    rcases exec_packet_cases h with ⟨e, d, k, hd, hk, ht⟩ | ⟨n, m, bytes, hroom, hn, hm, hmr, hb, ht⟩ <;>
      rw [tookPayload_control] at ht
    · rw [hrest] at hk
      exact .inl ⟨e, d, 1 + k, hd, by omega, ht⟩
    · rw [hrest] at hmr
      exact .inr ⟨n, m, bytes, hroom, hn, hm, by simp only [List.length_cons]; omega, hb, ht⟩

/-! ### The setup step and the encoder's packet step -/

/-- What the setup step can do: raise BAD_CONFIG, or enter its packet phase with a legal configuration (R88, R100). -/
theorem rleSetup_cases {op : EngOp} {s t : State} (h : rleSetup op s = .next t) :
    (s.cfgDetail ≠ 0 ∧ t = raise .badConfig s.cfgDetail s) ∨
      (s.cfgDetail = 0 ∧ t = { s with eng := { s.eng with op := op, pcur := 0 } }) := by
  unfold rleSetup at h
  dsimp only at h
  split at h <;> cases h
  case isTrue hd => exact .inl ⟨hd, rfl⟩
  case isFalse hd => exact .inr ⟨not_not.1 hd, rfl⟩

/-- What `exec` of RLE_DECODE can do: its setup step, a packet step, or its end step (R88, R136). -/
theorem exec_rleDecode_cases {s t : State} (h : exec .rleDecode s = .next t) :
    (s.eng.op ≠ .decoding ∧ rleSetup .decoding s = .next t) ∨
      (s.eng.op = .decoding ∧ s.eng.pcur < s.pixels ∧ decodePacket s = .next t) ∨
      (s.eng.op = .decoding ∧ t = complete s) := by
  have h : execRleDecode s = .next t := h
  unfold execRleDecode at h
  cases hop : s.eng.op <;> simp only [hop] at h
  case decoding =>
    split at h
    case isTrue hp => exact .inr (.inl ⟨rfl, hp, h⟩)
    case isFalse => cases h; exact .inr (.inr ⟨rfl, rfl⟩)
  all_goals exact .inl ⟨by simp, h⟩

/-- What `exec` of RLE_ENCODE can do: its setup step, a packet step, or its end step (R100, R136). -/
theorem exec_rleEncode_cases {s t : State} (h : exec .rleEncode s = .next t) :
    (s.eng.op ≠ .encoding ∧ rleSetup .encoding s = .next t) ∨
      (s.eng.op = .encoding ∧ s.eng.pcur < s.pixels ∧ encodePacket s = .next t) ∨
      (s.eng.op = .encoding ∧ t = complete s) := by
  have h : execRleEncode s = .next t := h
  unfold execRleEncode at h
  cases hop : s.eng.op <;> simp only [hop] at h
  case encoding =>
    split at h
    case isTrue hp => exact .inr (.inl ⟨rfl, hp, h⟩)
    case isFalse => cases h; exact .inr (.inr ⟨rfl, rfl⟩)
  all_goals exact .inl ⟨by simp, h⟩

/-- A header that HDR_CHECK finds neither a size error nor a type error in passes every check (R82). -/
theorem headerDetail_eq_zero_of_masks (h : Header) :
    headerDetail h &&& 0x0E = 0 → headerDetail h &&& 0x10 = 0 → headerDetail h = 0 := by
  unfold headerDetail
  split <;> split <;> split <;> split <;> decide

/-- What `exec` of HDR_CHECK can do (R82): raise an error that lists the failed checks, or, when none fails, write CFG
and HDRINFO. -/
theorem exec_hdrCheck_cases {s t : State} (h : exec .hdrCheck s = .next t) :
    (∃ e, t = raise e (headerDetail s.hdr) { s with hdrInfo := 0 }) ∨
      (headerDetail s.hdr = 0 ∧ t = complete (commitCheck s)) := by
  have h : execHdrCheck s = .next t := h
  unfold execHdrCheck at h
  dsimp only at h
  split at h
  case isTrue => cases h; exact .inl ⟨_, rfl⟩
  case isFalse hsizes =>
    split at h <;> cases h
    case isTrue => exact .inl ⟨_, rfl⟩
    case isFalse htype => exact .inr ⟨headerDetail_eq_zero_of_masks _ (not_not.1 hsizes) (not_not.1 htype), rfl⟩

end Sys2Proof.Machine
end

section
/-! SUPPORT. The invariant split into what speaks of the data alone and what speaks of STATUS and the command in
progress (spec/10_state.md R21, R22, R31, R33, R36), and how each operation keeps it. -/

namespace Sys2Proof.Machine

/-- The part of the invariant that speaks neither of STATUS nor of the command in progress. -/
structure DataInv (s : State) : Prop where
  capacity : 1 ≤ s.params.pbufBytes
  pbufForm : s.pbuf.wf
  pbufInside : ∀ c ∈ s.pbuf, c.1 < s.params.pbufBytes
  source : s.srcPos ≤ s.params.src.length
  sink : SinkWithin s
  staging : s.eng.stage = [] ∧ s.eng.hstage = []
  info : s.hdrInfo = 0 ∨ (headerDetail s.hdr = 0 ∧ s.hdrInfo = HdrInfo.checked s.hdr)

variable {s : State}

theorem Invariant.data (h : Invariant s) : DataInv s :=
  ⟨h.capacity, h.pbufForm, h.pbufInside, h.source, h.sink, h.staging, h.info⟩

/-- With no command in progress the invariant asks no more than the rules of STATUS. -/
theorem DataInv.idle (h : DataInv s) (hstatus : StatusOk s.status) (hbusy : s.busy = false) (hop : s.eng.op = .idle) :
    Invariant s where
  capacity := h.capacity
  pbufForm := h.pbufForm
  pbufInside := h.pbufInside
  source := h.source
  sink := h.sink
  status := hstatus
  busyOp := by simp [hbusy, hop]
  op := by simp [OpInv, hop]
  staging := h.staging
  info := h.info

/-- The invariant does not speak of FAULT, the host script and the turns to come. -/
theorem Invariant.withSurroundings (h : Invariant s) (m : Option Hazard) (x : HostState) (ts : List Turn) :
    Invariant { s with faultMark := m, host := x, turns := ts } :=
  ⟨h.capacity, h.pbufForm, h.pbufInside, h.source, h.sink, h.status, h.busyOp, h.op, h.staging, h.info⟩

theorem Invariant.busy_of_op (h : Invariant s) (hop : s.eng.op ≠ .idle) : s.busy = true := h.busyOp.2 hop

theorem Invariant.op_idle (h : Invariant s) (hb : s.busy = false) : s.eng.op = .idle := by
  by_contra hop
  simp [h.busy_of_op hop] at hb

/-! ### The operations on the data -/

/-- A failing or successful end of a command leaves the data as they are (R111, R112). -/
theorem DataInv.invariant_complete (h : DataInv s) : Invariant (complete s) :=
  DataInv.idle ⟨h.capacity, h.pbufForm, h.pbufInside, h.source, h.sink, h.staging, h.info⟩ (.completed _)
    (by simp [State.busy, Status.completed]) rfl

theorem DataInv.invariant_raise (h : DataInv s) (e : ErrorKind) {d : Byte} (hd : d.toNat < 32) :
    Invariant (raise e d s) :=
  DataInv.idle ⟨h.capacity, h.pbufForm, h.pbufInside, h.source, h.sink, h.staging, h.info⟩ (.raised _ _ _ hd)
    (by simp [State.busy, Status.raised]) rfl

/-- Source bytes that are there can be taken (R42). -/
theorem DataInv.after_tookPayload (h : DataInv s) {k : Nat} (hk : k ≤ s.remaining.length) :
    DataInv (s.tookPayload k) where
  capacity := h.capacity
  pbufForm := h.pbufForm
  pbufInside := h.pbufInside
  source := by
    have hpos := h.source
    rw [s.length_remaining] at hk
    show s.srcPos + k ≤ s.params.src.length
    omega
  sink := h.sink
  staging := ⟨rfl, rfl⟩
  info := h.info

/-- A write of bytes inside PBUF (R36). -/
theorem DataInv.after_writeBytes (h : DataInv s) {a : Nat} {bs : List Byte}
    (hfit : a + bs.length ≤ s.params.pbufBytes) : DataInv { s with pbuf := s.pbuf.writeBytes a bs } where
  capacity := h.capacity
  pbufForm := Memory.writeBytes_wf bs _ _ h.pbufForm
  pbufInside c hc := by
    rcases Memory.mem_writeBytes bs s.pbuf a hc with ⟨-, hlt⟩ | hmem
    · exact Nat.lt_of_lt_of_le hlt hfit
    · exact h.pbufInside c hmem
  source := h.source
  sink := h.sink
  staging := h.staging
  info := h.info

/-- The free draw of an image that fits in PBUF (R94). -/
theorem DataInv.after_drawImage (h : DataInv s) (hfit : s.imageBytes ≤ s.params.pbufBytes) : DataInv (drawImage s) := by
  have hw : DataInv { s with pbuf := s.pbuf.writeBytes 0 ((List.range s.imageBytes).map (Config.freeByte s.draws)) } :=
    h.after_writeBytes (by simpa using hfit)
  exact ⟨hw.capacity, hw.pbufForm, hw.pbufInside, hw.source, hw.sink, hw.staging, hw.info⟩

/-- A decode that fails with its image inside PBUF (R94, R112). -/
theorem DataInv.invariant_failDecode (h : DataInv s) (hfit : s.imageBytes ≤ s.params.pbufBytes) (e : ErrorKind)
    {d : Byte} (hd : d.toNat < 32) : Invariant (failDecode e d s) := by
  have hu : DataInv { s with eng := s.eng.unstage } :=
    ⟨h.capacity, h.pbufForm, h.pbufInside, h.source, h.sink, ⟨rfl, rfl⟩, h.info⟩
  exact (hu.after_drawImage hfit).invariant_raise e hd

/-- No more bytes than the sink has room for stay within its limit (R43). -/
theorem SinkWithin.append (h : SinkWithin s) {bs : List Byte} {k : Nat} (hroom : bs.length ≤ s.sinkRoom k) :
    SinkWithin { s with sinkOut := s.sinkOut ++ bs } := by
  unfold SinkWithin State.sinkRoom at *
  cases hl : s.params.sinkLimit with
  | none => trivial
  | some limit =>
    simp only [hl, List.length_append] at h hroom ⊢
    omega

theorem DataInv.after_appendSink (h : DataInv s) {bs : List Byte} {k : Nat} (hroom : bs.length ≤ s.sinkRoom k) :
    DataInv { s with sinkOut := s.sinkOut ++ bs } :=
  ⟨h.capacity, h.pbufForm, h.pbufInside, h.source, h.sink.append hroom, h.staging, h.info⟩

theorem DataInv.after_accepted (h : DataInv s) {bs : List Byte} {k : Nat} (hroom : bs.length ≤ s.sinkRoom k) :
    DataInv (s.accepted bs) := by
  have ha := h.after_appendSink hroom
  exact ⟨ha.capacity, ha.pbufForm, ha.pbufInside, ha.source, ha.sink, ha.staging, ha.info⟩

/-- A header that HDRINFO does not describe, with HDRINFO cleared, or one that it describes (R22, R23). -/
theorem DataInv.after_setHeader (h : DataInv s) {g : Header} {v : BitVec 7}
    (hinfo : v = 0 ∨ (headerDetail g = 0 ∧ v = HdrInfo.checked g)) : DataInv { s with hdr := g, hdrInfo := v } :=
  ⟨h.capacity, h.pbufForm, h.pbufInside, h.source, h.sink, h.staging, hinfo⟩

/-- The configuration registers are no part of it. -/
theorem DataInv.after_setConfig (h : DataInv s) (W H : BitVec 16) (C : BitVec 3) :
    DataInv { s with cfgWidth := W, cfgHeight := H, cfgChannels := C } :=
  ⟨h.capacity, h.pbufForm, h.pbufInside, h.source, h.sink, h.staging, h.info⟩

/-! ### The header commands -/

/-- `cfg_detail & 0x07` drops the capacity bit (R86). -/
theorem State.buildDetail_eq (s : State) : s.buildDetail = sizeDetail s.width s.height s.channels := by
  unfold State.buildDetail State.cfgDetail configDetail sizeDetail
  split <;> split <;> split <;> split <;> decide

theorem sizeDetail_eq_zero {W H C : Nat} : sizeDetail W H C = 0 ↔ W ≠ 0 ∧ H ≠ 0 ∧ (C = 1 ∨ C = 3 ∨ C = 4) := by
  unfold sizeDetail
  split <;> split <;> split <;> simp_all

theorem builtType_spec (C : Nat) (rle : Bool) :
    legalType (builtType C rle) = true ∧ rleType (builtType C rle) = rle := by
  unfold builtType
  split <;> cases rle <;> decide

theorem builtDesc_spec (vflip : Bool) :
    (builtDesc vflip).getLsbD 5 = !vflip ∧ (builtDesc vflip).getLsbD 4 = false := by
  cases vflip <;> decide

theorem builtBpp_spec {C : Nat} (hC : C = 1 ∨ C = 3 ∨ C = 4) :
    legalBpp (BitVec.ofNat 8 (8 * C)) = true ∧ (BitVec.ofNat 8 (8 * C)).toNat / 8 = C := by
  rcases hC with rfl | rfl | rfl <;> decide

/-- HDRINFO after HDR_BUILD describes the header that it built (R86, R87). -/
theorem built_describes (rle vflip : Bool) {W H : BitVec 16} {C : Nat} (hW : W ≠ 0) (hH : H ≠ 0)
    (hC : C = 1 ∨ C = 3 ∨ C = 4) :
    headerDetail (Header.built rle vflip W H C) = 0 ∧
      HdrInfo.built rle vflip C = HdrInfo.checked (Header.built rle vflip W H C) := by
  obtain ⟨hlegal, hrle⟩ := builtType_spec C rle
  obtain ⟨hbit5, hbit4⟩ := builtDesc_spec vflip
  obtain ⟨hbpp, hdiv⟩ := builtBpp_spec hC
  refine ⟨headerDetail_eq_zero.2 ⟨hW, hH, hbpp, hlegal⟩, ?_⟩
  unfold HdrInfo.built HdrInfo.checked Header.built
  simp only [hrle, hbit5, hbit4, hdiv]
  cases vflip <;> simp

/-- What HDR_BUILD can do: raise BAD_CONFIG, or write a header and the HDRINFO that describes it (R86). -/
theorem exec_hdrBuild_cases {rle vflip : Bool} {t : State} (h : exec (.hdrBuild rle vflip) s = .next t) :
    (s.buildDetail ≠ 0 ∧ t = raise .badConfig s.buildDetail s) ∨
      ∃ g v, headerDetail g = 0 ∧ v = HdrInfo.checked g ∧ t = complete { s with hdr := g, hdrInfo := v } := by
  have h : execHdrBuild rle vflip s = .next t := h
  unfold execHdrBuild at h
  dsimp only at h
  split at h <;> cases h
  case isTrue hd => exact .inl ⟨hd, rfl⟩
  case isFalse hd =>
    rw [not_not, s.buildDetail_eq, sizeDetail_eq_zero] at hd
    obtain ⟨hW, hH, hC⟩ := hd
    obtain ⟨hg, hv⟩ := built_describes rle vflip (W := s.cfgWidth) (H := s.cfgHeight)
      (by rintro e; simp [State.width, e] at hW) (by rintro e; simp [State.height, e] at hH) hC
    exact .inr ⟨_, _, hg, hv, rfl⟩

theorem State.buildDetail_lt (s : State) : s.buildDetail.toNat < 32 := by
  have := sizeDetail_lt s.width s.height s.channels
  rw [s.buildDetail_eq]
  omega

theorem sourceError_detail_lt (t : Terminal) (e : ErrorKind) {d : Byte} (hd : d.toNat < 32) :
    (sourceError t e d).2.toNat < 32 := by
  cases t
  · exact hd
  · show (0x00#8).toNat < 32
    decide

/-- HDR_PARSE keeps the invariant's data, and ends (R80). -/
theorem DataInv.invariant_hdrParse {t : State} (h : DataInv s) (ht : exec .hdrParse s = .next t) : Invariant t := by
  have ht : execHdrParse s = .next t := ht
  rw [execHdrParse_eq] at ht
  split at ht <;> cases ht
  case isTrue hlen => exact ((h.after_tookPayload hlen).after_setHeader (.inl rfl)).invariant_complete
  case isFalse => exact (h.after_tookPayload (Nat.le_refl _)).invariant_raise _ (sourceError_detail_lt _ _ (by decide))

theorem DataInv.invariant_hdrSerialize {t : State} (h : DataInv s) (ht : exec .hdrSerialize s = .next t) :
    Invariant t := by
  have ht : execHdrSerialize s = .next t := ht
  rw [execHdrSerialize_eq] at ht
  split at ht <;> cases ht
  case isTrue hroom => exact (h.after_accepted (bs := s.hdr.bytes) (Nat.le_of_eq hroom.symm)).invariant_complete
  case isFalse => exact (h.after_accepted (k := 18) (List.length_take_le ..)).invariant_raise _ (by decide)

theorem DataInv.invariant_hdrCheck {t : State} (h : DataInv s) (ht : exec .hdrCheck s = .next t) : Invariant t := by
  rcases exec_hdrCheck_cases ht with ⟨e, rfl⟩ | ⟨hd, rfl⟩
  · exact (h.after_setHeader (g := s.hdr) (.inl rfl)).invariant_raise e (headerDetail_lt _)
  · exact ((h.after_setHeader (.inr ⟨hd, rfl⟩)).after_setConfig ..).invariant_complete

theorem DataInv.invariant_hdrBuild {rle vflip : Bool} {t : State} (h : DataInv s)
    (ht : exec (.hdrBuild rle vflip) s = .next t) : Invariant t := by
  rcases exec_hdrBuild_cases ht with ⟨-, rfl⟩ | ⟨g, v, hg, hv, rfl⟩
  · exact h.invariant_raise _ s.buildDetail_lt
  · exact (h.after_setHeader (.inr ⟨hg, hv⟩)).invariant_complete

/-! ### The RLE commands -/

/-- A legal configuration names an image that fits in PBUF (R17, R36). -/
theorem imageBytes_le_of_legal (hcfg : s.cfgDetail = 0) : s.imageBytes ≤ s.params.pbufBytes := by
  obtain ⟨-, -, -, hfit⟩ := configDetail_eq_zero.1 hcfg
  exact hfit

/-- The pixel count of any configuration fits in PIX_COUNT (R33). -/
theorem State.pixels_lt (s : State) : s.pixels < 2 ^ 32 :=
  calc s.width * s.height < 2 ^ 16 * 2 ^ 16 := Nat.mul_lt_mul'' s.cfgWidth.isLt s.cfgHeight.isLt
    _ = 2 ^ 32 := by norm_num

/-- The counters of an RLE command in progress: PIX_COUNT is the cursor, and the packets and stream bytes are no more
than that many pixels can have (R24 to R27, R33). -/
def CountersWithin (s : State) (streamed : BitVec 64) : Prop :=
  s.eng.pcur ≤ s.pixels ∧ s.pixCount.toNat = s.eng.pcur ∧ s.pktCount.toNat ≤ s.eng.pcur ∧
    streamed.toNat ≤ s.eng.pcur * s.channels + s.pktCount.toNat

/-- A packet of `n` pixels with `k` bytes, its control byte among them, keeps the counters within their bounds. -/
theorem CountersWithin.packet {c : BitVec 64} (h : CountersWithin s c) {n k : Nat} (hn : 1 ≤ n)
    (hroom : s.eng.pcur + n ≤ s.pixels) (hk : k ≤ 1 + n * s.channels) {t : State} (hpix : t.pixels = s.pixels)
    (hch : t.channels = s.channels) (hcur : t.eng.pcur = s.eng.pcur + n)
    (hpc : t.pixCount = BitVec.ofNat 32 (s.eng.pcur + n)) (hpk : t.pktCount = s.pktCount + 1) :
    CountersWithin t (c + BitVec.ofNat 64 k) := by
  obtain ⟨-, -, hpkt, hbytes⟩ := h
  have hlt := s.pixels_lt
  have hpk' : t.pktCount.toNat = s.pktCount.toNat + 1 := by
    rw [hpk, BitVec.toNat_add]
    exact Nat.mod_eq_of_lt (by simp; omega)
  have hadd : (c + BitVec.ofNat 64 k).toNat ≤ c.toNat + k := by
    rw [BitVec.toNat_add, BitVec.toNat_ofNat, Nat.add_mod_mod]
    exact Nat.mod_le ..
  refine ⟨by omega, ?_, by omega, ?_⟩
  · rw [hpc, hcur, BitVec.toNat_ofNat]
    exact Nat.mod_eq_of_lt (by omega)
  · rw [hcur, hch, hpk', Nat.add_mul]
    omega

/-- The invariant in the packet phase of RLE_DECODE. -/
theorem opInv_decoding_iff (hop : s.eng.op = .decoding) :
    OpInv s ↔ Status.lastOp s.status = 0x05#8 ∧ s.cfgDetail = 0 ∧ CountersWithin s s.inCount ∧ s.outCount = 0 := by
  simp only [OpInv, hop, CountersWithin, and_assoc]

/-- The invariant in the packet phase of RLE_ENCODE. -/
theorem opInv_encoding_iff (hop : s.eng.op = .encoding) :
    OpInv s ↔ Status.lastOp s.status = 0x06#8 ∧ s.cfgDetail = 0 ∧ CountersWithin s s.outCount ∧ s.inCount = 0 := by
  simp only [OpInv, hop, CountersWithin, and_assoc]

/-- A command in progress goes on from data within their bounds. -/
theorem Invariant.goesOn (h : Invariant s) {t : State} (hdata : DataInv t) (hstatus : t.status = s.status)
    (hs : s.eng.op ≠ .idle) (ht : t.eng.op ≠ .idle) (hop : OpInv t) : Invariant t where
  capacity := hdata.capacity
  pbufForm := hdata.pbufForm
  pbufInside := hdata.pbufInside
  source := hdata.source
  sink := hdata.sink
  status := hstatus ▸ h.status
  busyOp := by
    have hb : s.busy = true := h.busy_of_op hs
    simp only [State.busy, hstatus, ht, ne_eq, not_false_eq_true, iff_true]
    exact hb
  op := hop
  staging := hdata.staging
  info := hdata.info

/-- A packet step of RLE_DECODE keeps the invariant (R89, R94). -/
theorem Invariant.after_decodePacket (h : Invariant s) (hop : s.eng.op = .decoding) {t : State}
    (ht : decodePacket s = .next t) : Invariant t := by
  obtain ⟨hlast, hcfg, hcount, hout⟩ := (opInv_decoding_iff hop).1 h.op
  have hfit := imageBytes_le_of_legal hcfg
  rcases decodePacket_cases ht with ⟨e, d, k, hd, hk, rfl⟩ | ⟨n, m, bytes, hroom, hn, hm, hlen, hbytes, rfl⟩
  · exact (h.data.after_tookPayload hk).invariant_failDecode hfit e hd
  · have hinside : s.eng.pcur * s.channels + bytes.length ≤ s.params.pbufBytes :=
      calc s.eng.pcur * s.channels + bytes.length = (s.eng.pcur + n) * s.channels := by rw [hbytes, Nat.add_mul]
        _ ≤ s.imageBytes := Nat.mul_le_mul_right _ hroom
        _ ≤ s.params.pbufBytes := hfit
    have hw := (h.data.after_tookPayload hlen).after_writeBytes (a := s.eng.pcur * s.channels) (bs := bytes) hinside
    have hdata : DataInv (commitPacket n bytes (s.tookPayload (1 + m))) :=
      ⟨hw.capacity, hw.pbufForm, hw.pbufInside, hw.source, hw.sink, ⟨rfl, rfl⟩, hw.info⟩
    refine h.goesOn hdata rfl (by simp [hop]) (by simp [State.tookPayload, hop])
      ((opInv_decoding_iff (by simp [State.tookPayload, hop])).2 ⟨hlast, hcfg, ?_, hout⟩)
    exact hcount.packet hn hroom (Nat.add_le_add_left hm 1) rfl rfl rfl rfl rfl

/-- A packet step of RLE_ENCODE keeps the invariant (R101). -/
theorem Invariant.after_encodePacket (h : Invariant s) (hop : s.eng.op = .encoding) (hleft : s.eng.pcur < s.pixels)
    {t : State} (ht : encodePacket s = .next t) : Invariant t := by
  obtain ⟨hlast, hcfg, hcount, hin⟩ := (opInv_encoding_iff hop).1 h.op
  rw [encodePacket_eq] at ht
  have hb := choosePacket_bounds s.px s.pixels s.eng.pcur s.channels (fun i => Memory.length_readBytes ..) hleft
  generalize choosePacket s.px s.pixels s.eng.pcur = pkt at ht hb
  obtain ⟨hn, -, hroom, -, hk⟩ := hb
  dsimp only at ht
  split at ht <;> cases ht
  case isTrue hsink =>
    have hw := h.data.after_accepted (Nat.le_of_eq hsink.symm)
    have hdata : DataInv { s.accepted pkt.2 with
        eng := { s.eng with pcur := s.eng.pcur + pkt.1 }
        pixCount := BitVec.ofNat 32 (s.eng.pcur + pkt.1)
        pktCount := s.pktCount + 1 } :=
      ⟨hw.capacity, hw.pbufForm, hw.pbufInside, hw.source, hw.sink, hw.staging, hw.info⟩
    refine h.goesOn hdata rfl (by simp [hop]) (by simp [hop])
      ((opInv_encoding_iff (by exact hop)).2 ⟨hlast, hcfg, ?_, hin⟩)
    exact hcount.packet hn hroom hk rfl rfl rfl rfl rfl
  case isFalse => exact (h.data.after_accepted (List.length_take_le ..)).invariant_raise _ (by decide)

end Sys2Proof.Machine
end

section
/-! SUPPORT. Every step keeps the invariant (spec/10_state.md R20 to R22, R33, R36, R43): by turn, and within the
engine's turn by the command in progress. -/

namespace Sys2Proof.Machine

variable {s t : State}

/-! ### The engine's turn -/

/-- The setup step keeps the invariant (R88, R100): at issue every counter is 0, which the packet phase starts from. -/
theorem Invariant.after_rleSetup {i : Instr} {op : EngOp} (h : Invariant s) (hop : s.eng.op = .ready i)
    (hphase : (i = .rleDecode ∧ op = .decoding) ∨ (i = .rleEncode ∧ op = .encoding))
    (ht : rleSetup op s = .next t) : Invariant t := by
  have hready := h.op
  simp only [OpInv, hop] at hready
  obtain ⟨-, -, hlast, hpix, hpkt, hin, hout⟩ := hready
  rcases rleSetup_cases ht with ⟨-, rfl⟩ | ⟨hcfg, rfl⟩
  · exact h.data.invariant_raise _ (configDetail_lt ..)
  · have hdata : DataInv { s with eng := { s.eng with op := op, pcur := 0 } } :=
      ⟨h.capacity, h.pbufForm, h.pbufInside, h.source, h.sink, h.staging, h.info⟩
    refine h.goesOn hdata rfl (by simp [hop]) ?_ ?_ <;> rcases hphase with ⟨rfl, rfl⟩ | ⟨rfl, rfl⟩
    · simp
    · simp
    · exact (opInv_decoding_iff rfl).2 ⟨(Option.some.inj hlast).symm, hcfg,
        by simp [CountersWithin, hpix, hpkt, hin], hout⟩
    · exact (opInv_encoding_iff rfl).2 ⟨(Option.some.inj hlast).symm, hcfg,
        by simp [CountersWithin, hpix, hpkt, hout], hin⟩

/-- The first step of a command keeps the invariant: one arm for each command (R136). -/
theorem Invariant.after_exec_ready {i : Instr} (h : Invariant s) (hop : s.eng.op = .ready i) (ht : exec i s = .next t) :
    Invariant t := by
  cases i with
  | hdrParse => exact h.data.invariant_hdrParse ht
  | hdrSerialize => exact h.data.invariant_hdrSerialize ht
  | hdrCheck => exact h.data.invariant_hdrCheck ht
  | hdrBuild rle vflip => exact h.data.invariant_hdrBuild ht
  | rleDecode =>
    rcases exec_rleDecode_cases ht with ⟨-, ht⟩ | ⟨hdec, -⟩ | ⟨hdec, -⟩
    · exact h.after_rleSetup hop (.inl ⟨rfl, rfl⟩) ht
    all_goals simp [hop] at hdec
  | rleEncode =>
    rcases exec_rleEncode_cases ht with ⟨-, ht⟩ | ⟨henc, -⟩ | ⟨henc, -⟩
    · exact h.after_rleSetup hop (.inr ⟨rfl, rfl⟩) ht
    all_goals simp [hop] at henc
  | illegal w => cases ht; exact h.data.invariant_raise _ (illegalDetail_lt w)
  | rawPacket n => have hready := h.op; simp [OpInv, hop, Instr.isCommand] at hready
  | runPacket n => have hready := h.op; simp [OpInv, hop, Instr.isCommand] at hready

/-- A step of the command in progress keeps the invariant. -/
theorem Invariant.after_exec {i : Instr} (h : Invariant s)
    (hi : s.eng.op = .ready i ∨ (i = .rleDecode ∧ s.eng.op = .decoding) ∨ (i = .rleEncode ∧ s.eng.op = .encoding))
    (ht : exec i s = .next t) : Invariant t := by
  rcases hi with hop | ⟨rfl, hop⟩ | ⟨rfl, hop⟩
  · exact h.after_exec_ready hop ht
  · rcases exec_rleDecode_cases ht with ⟨hne, -⟩ | ⟨-, -, ht⟩ | ⟨-, rfl⟩
    · exact absurd hop hne
    · exact h.after_decodePacket hop ht
    · exact h.data.invariant_complete
  · rcases exec_rleEncode_cases ht with ⟨hne, -⟩ | ⟨-, hleft, ht⟩ | ⟨-, rfl⟩
    · exact absurd hop hne
    · exact h.after_encodePacket hop hleft ht
    · exact h.data.invariant_complete

/-! ### The hosts' turns -/

/-- A command issue keeps the invariant (R110). -/
theorem Invariant.after_issue (h : Invariant s) (w : Word) : Invariant (issue w s) where
  capacity := h.capacity
  pbufForm := h.pbufForm
  pbufInside := h.pbufInside
  source := h.source
  sink := h.sink
  status := .issued _
  busyOp := by simp [State.busy, Status.issued]
  op := by
    obtain ⟨hcmd, hwf, hopcode⟩ := decodeCommand_spec w
    exact ⟨hcmd, hwf, by simpa [Status.issued] using hopcode, rfl, rfl, rfl, rfl⟩
  staging := h.staging
  info := h.info

/-- A host write to an HDR_* register: HDRINFO no longer describes HDR, and is cleared (R23, R29). -/
theorem writeReg_hdr {r : Reg} (hr : 0x40 ≤ r.offset) (v : Word) (s : State) : ∃ g, writeReg r v s = setHdr g s := by
  cases r <;> first | exact ⟨_, rfl⟩ | exact absurd hr (by decide)

/-- What a write below the HDR_* registers can do (R18): issue a command, change CFG, or nothing. -/
theorem writeReg_below_hdr {r : Reg} (hr : r.offset < 0x40) (v : Word) (s : State) :
    (r = .cmd ∧ writeReg r v s = issue v s) ∨
      ∃ W H C, writeReg r v s = { s with cfgWidth := W, cfgHeight := H, cfgChannels := C } := by
  cases r <;> first
    | exact .inl ⟨rfl, rfl⟩
    | exact .inr ⟨_, _, _, rfl⟩
    | exact absurd hr (by decide)

/-- A register write of an idle block keeps the invariant (R18, R19, R23). -/
theorem Invariant.after_writeReg (h : Invariant s) (hb : s.busy = false) (r : Reg) (v : Word) :
    Invariant (writeReg r v s) := by
  by_cases hr : 0x40 ≤ r.offset
  · obtain ⟨g, e⟩ := writeReg_hdr hr v s
    rw [e]
    exact (h.data.after_setHeader (.inl rfl)).idle h.status hb (h.op_idle hb)
  · rcases writeReg_below_hdr (Nat.lt_of_not_le hr) v s with ⟨-, e⟩ | ⟨W, H, C, e⟩ <;> rw [e]
    · exact h.after_issue v
    · exact (h.data.after_setConfig W H C).idle h.status hb (h.op_idle hb)

theorem Invariant.after_writeOffset (h : Invariant s) (hb : s.busy = false) (o : Nat) (v : Word) :
    Invariant (writeOffset o v s) := by
  unfold writeOffset
  split
  · exact h.after_writeReg hb _ v
  · exact h

/-- An access of an idle block that is no hazard keeps the invariant (R40, R44). -/
theorem Invariant.after_access (h : Invariant s) (hb : s.busy = false) {a : HostAction} (hz : accessHazard a s = none) :
    Invariant (access a s).2 := by
  have idle : ∀ {u : State}, DataInv u → u.status = s.status → u.eng = s.eng → Invariant u := fun hu hst he =>
    hu.idle (hst ▸ h.status) (by rw [State.busy, hst]; exact hb) (by rw [he]; exact h.op_idle hb)
  cases a with
  | regRead width o => exact h
  | regWrite width o v => exact h.after_writeOffset hb o v
  | bufRead x => exact h
  | bufWrite x b =>
    have hx : x < s.params.pbufBytes := by
      by_contra hx
      simp [accessHazard, hx] at hz
    exact idle (h.data.after_writeBytes (bs := [b]) hx) rfl rfl
  | take k =>
    have hu := h.data.after_tookPayload (k := (s.remaining.take k).length) (List.length_take_le' ..)
    exact idle ⟨hu.capacity, hu.pbufForm, hu.pbufInside, hu.source, hu.sink, h.staging, hu.info⟩ rfl rfl
  | put bs => exact idle (h.data.after_appendSink (k := bs.length) (List.length_take_le ..)) rfl rfl

/-- A host access keeps the invariant: while BUSY = 1 it touches FAULT alone (R132). -/
theorem Invariant.after_hostAccess (h : Invariant s) (a : HostAction) : Invariant (hostAccess a s).2 := by
  cases hb : s.busy with
  | true =>
    obtain ⟨m, e⟩ := hostAccess_busy hb a
    rw [e]
    exact h.withSurroundings m s.host s.turns
  | false =>
    rcases hostAccess_cases a s with ⟨z, -, e⟩ | ⟨hz, e⟩ <;> rw [e]
    · exact h.withSurroundings (s.faultMark.or (some z)) s.host s.turns
    · refine h.after_access hb ?_
      unfold hazardOf at hz
      split at hz
      · cases hz
      · assumption

/-- What an access by a second host can do: set FAULT while BUSY = 1, or else the same as one by the first (R124). -/
theorem otherHostAccess_cases (a : HostAction) (s : State) :
    (s.busy = true ∧ otherHostAccess a s = setFault .busySecondHost s) ∨
      (s.busy = false ∧ otherHostAccess a s = (hostAccess a s).2) := by
  unfold otherHostAccess
  cases s.busy
  · exact .inr ⟨rfl, rfl⟩
  · exact .inl ⟨rfl, rfl⟩

/-! ### Reset, and one step -/

/-- What a reset does to PBUF: a free draw of the image of a decode that it abandons, else nothing (R127, R128). -/
theorem abandonDecode_cases (s : State) :
    (s.eng.op = .decoding ∧ abandonDecode s = drawImage s) ∨ (s.eng.op ≠ .decoding ∧ abandonDecode s = s) := by
  unfold abandonDecode
  cases s.eng.op with
  | decoding => exact .inl ⟨rfl, rfl⟩
  | _ => exact .inr ⟨by simp, rfl⟩

/-- STATUS after a reset obeys the rules of STATUS (R20, R127). -/
theorem StatusOk.zero : StatusOk 0 where
  reserved := by decide
  busy := by decide
  err := by decide
  clear := by decide
  detail := by decide

/-- A reset keeps the invariant: an abandoned decode has its image inside PBUF (R127, R128). -/
theorem Invariant.after_reset (h : Invariant s) : Invariant (resetBlock s) := by
  have hdata : DataInv (abandonDecode s) := by
    rcases abandonDecode_cases s with ⟨hop, e⟩ | ⟨-, e⟩ <;> rw [e]
    · obtain ⟨-, hcfg, -⟩ := (opInv_decoding_iff hop).1 h.op
      exact h.data.after_drawImage (imageBytes_le_of_legal hcfg)
    · exact h.data
  refine DataInv.idle ⟨hdata.capacity, hdata.pbufForm, hdata.pbufInside, hdata.source, hdata.sink, ⟨rfl, rfl⟩, .inl rfl⟩
    .zero (by decide : Status.busy 0 = false) rfl

/-- One turn keeps the invariant. -/
theorem Invariant.after_takeTurn (h : Invariant s) {tn : Turn} (ht : takeTurn tn s = .next t) : Invariant t := by
  rcases takeTurn_cases ht with ⟨-, -, rfl⟩ | ⟨-, -, i, hi, ht⟩ | ⟨-, x, rfl | ⟨a, rfl⟩⟩ | ⟨a, -, rfl⟩ | ⟨-, rfl⟩
  · exact h
  · exact h.after_exec hi ht
  · exact h.withSurroundings s.faultMark x s.turns
  · exact (h.after_hostAccess a).withSurroundings _ x _
  · rcases otherHostAccess_cases a s with ⟨-, e⟩ | ⟨-, e⟩ <;> rw [e]
    · exact h.withSurroundings (s.faultMark.or (some .busySecondHost)) s.host s.turns
    · exact h.after_hostAccess a
  · exact h.after_reset

/-- One step keeps the invariant. -/
theorem Invariant.after_step (h : Invariant s) (ht : step s = .next t) : Invariant t :=
  (h.withSurroundings s.faultMark s.host s.turns.tail).after_takeTurn ht

/-- Settles O50: the invariant splits into its data and the command in progress, and every operation that a turn is made
of keeps both parts. -/
theorem invariantKeptByStep : Obligations.InvariantKeptByStep := fun _ _ h ht => h.after_step ht

end Sys2Proof.Machine
end

section
/-! SUPPORT. What every step keeps (spec/10_state.md R28, R34, R35), and what a step does to STATUS (R21). -/

namespace Sys2Proof.Machine

variable {s t : State}

/-! ### The launch data, the streams and FAULT -/

/-- What every step keeps: the launch data, the source bytes already taken, the sink's contents, and a FAULT that is set
(R34, R35, R42, R43). -/
structure StepKeeps (s t : State) : Prop where
  params : t.params = s.params
  source : s.srcPos ≤ t.srcPos
  sink : s.sinkOut <+: t.sinkOut
  fault : ∀ z, s.faultMark = some z → t.faultMark = some z

theorem StepKeeps.refl (s : State) : StepKeeps s s := ⟨rfl, Nat.le_refl _, List.prefix_refl _, fun _ hz => hz⟩

/-- An engine step keeps them, and leaves FAULT as it is. -/
theorem Keeps.stepKeeps (h : Keeps s t) : StepKeeps s t := by
  obtain ⟨hparams, hfault, -, -⟩ := h.surroundings
  exact ⟨hparams, h.source, h.sink, fun z hz => hfault.trans hz⟩

theorem stepKeeps_hostAccess (a : HostAction) (s : State) : StepKeeps s (hostAccess a s).2 := by
  obtain ⟨hparams, hsource, hsink, hfault, -, -⟩ := hostAccess_keeps a s
  exact ⟨hparams, hsource, hsink, hfault⟩

theorem stepKeeps_setFault (z : Hazard) (s : State) : StepKeeps s (setFault z s) :=
  ⟨rfl, Nat.le_refl _, List.prefix_refl _, fun y hy => by rw [setFault_faultMark, hy, Option.some_or]⟩

theorem stepKeeps_otherHostAccess (a : HostAction) (s : State) : StepKeeps s (otherHostAccess a s) := by
  rcases otherHostAccess_cases a s with ⟨-, e⟩ | ⟨-, e⟩ <;> rw [e]
  · exact stepKeeps_setFault _ s
  · exact stepKeeps_hostAccess a s

/-- A reset keeps the source, the sink and FAULT (R127). -/
theorem stepKeeps_resetBlock (s : State) : StepKeeps s (resetBlock s) := by
  have habandon : StepKeeps s (abandonDecode s) := by
    rcases abandonDecode_cases s with ⟨-, e⟩ | ⟨-, e⟩ <;> rw [e]
    · exact ⟨rfl, Nat.le_refl _, List.prefix_refl _, fun _ hz => hz⟩
    · exact .refl s
  exact ⟨habandon.params, habandon.source, habandon.sink, habandon.fault⟩

theorem takeTurn_stepKeeps {tn : Turn} (ht : takeTurn tn s = .next t) : StepKeeps s t := by
  rcases takeTurn_cases ht with ⟨-, -, rfl⟩ | ⟨-, -, i, -, hi⟩ | ⟨-, x, rfl | ⟨a, rfl⟩⟩ | ⟨a, -, rfl⟩ | ⟨-, rfl⟩
  · exact .refl t
  · exact (exec_keeps hi).stepKeeps
  · exact ⟨rfl, Nat.le_refl _, List.prefix_refl _, fun _ hz => hz⟩
  · have ha := stepKeeps_hostAccess a s
    exact ⟨ha.params, ha.source, ha.sink, ha.fault⟩
  · exact stepKeeps_otherHostAccess a s
  · exact stepKeeps_resetBlock s

theorem step_stepKeeps (ht : step s = .next t) : StepKeeps s t := by
  have hu : StepKeeps { s with turns := s.turns.tail } t := takeTurn_stepKeeps ht
  exact ⟨hu.params, hu.source, hu.sink, hu.fault⟩

/-- Settles O51: FAULT is set by a hazard alone, which keeps its first reason, and a reset leaves it. -/
theorem faultIsNeverCleared : Obligations.FaultIsNeverCleared := fun _ _ z ht hz => (step_stepKeeps ht).fault z hz

/-- Settles O53: no turn writes the launch data, takes a source byte back, or removes a byte from the sink. -/
theorem streamsOnlyAdvance : Obligations.StreamsOnlyAdvance := fun _ _ ht =>
  have h := step_stepKeeps ht
  ⟨h.params, h.source, h.sink⟩

/-! ### PBUF_CAP -/

/-- The saturated capacity fits in 64 bits (R28). -/
theorem State.toNat_pbufCap (s : State) : s.pbufCap.toNat = min s.params.pbufBytes (2 ^ 64 - 1) := by
  rw [State.pbufCap, BitVec.toNat_ofNat]
  omega

/-- A 64-bit register as a number, from its two 32-bit words. -/
theorem toNat_words (x : BitVec 64) :
    (x.extractLsb' 32 32).toNat = x.toNat / 2 ^ 32 ∧ (x.extractLsb' 0 32).toNat = x.toNat % 2 ^ 32 := by
  simp only [toNat_extract]
  omega

/-- Settles O42: the two words are those of the saturated parameter, and no step changes the parameters. -/
theorem pbufCapIsConstant : Obligations.PbufCapIsConstant := by
  refine ⟨fun s => ?_, fun s t ht => ?_⟩
  · obtain ⟨hhi, hlo⟩ := toNat_words s.pbufCap
    simp only [readReg, hhi, hlo, s.toNat_pbufCap]
    omega
  · have hcap : t.pbufCap = s.pbufCap := by rw [State.pbufCap, State.pbufCap, (step_stepKeeps ht).params]
    simp only [readReg, hcap, and_self]

/-! ### STATUS -/

/-- From `s` to `t`, on turn `tn`, the command in progress has ended (R111, R112). -/
def Ends (tn : Turn) (s t : State) : Prop :=
  tn = .engine ∧ s.busy = true ∧ t.busy = false ∧ Status.done t.status = true ∧ t.eng.op = .idle

/-- The turn `tn` writes the word `w` to CMD: a second host's access, or the line that the host script is at. -/
def WritesCmd (tn : Turn) (s : State) (w : Word) : Prop :=
  tn = .otherHost (.regWrite 32 0x00 w) ∨
    (tn = .host ∧ (s.line = some (.wr .cmd w) ∨ s.line = some (.access (.regWrite 32 0x00 w))))

/-- What one turn can do to STATUS (R21): leave it, issue a command, end one, or reset it. -/
theorem takeTurn_status {tn : Turn} (h : Invariant s) (ht : takeTurn tn s = .next t) :
    t.status = s.status ∨ (∃ w, WritesCmd tn s w ∧ Issues w s t) ∨ Ends tn s t ∨ (tn = .reset ∧ t.status = 0) := by
  rcases takeTurn_cases ht with ⟨-, -, rfl⟩ | ⟨rfl, hop, i, -, hi⟩ | ⟨rfl, -⟩ | ⟨a, rfl, rfl⟩ | ⟨rfl, rfl⟩
  · exact .inl rfl
  · rcases exec_status hi with ⟨hst, -⟩ | ⟨hidle, hbusy, hdone⟩
    · exact .inl hst
    · exact .inr (.inr (.inl ⟨rfl, h.busy_of_op hop, hbusy, hdone, hidle⟩))
  · rcases hostStep_status ht with ⟨hst, -⟩ | ⟨w, hline, hw⟩
    · exact .inl hst
    · exact .inr (.inl ⟨w, .inr ⟨rfl, hline⟩, hw⟩)
  · rcases otherHostAccess_cases a s with ⟨-, e⟩ | ⟨-, e⟩ <;> rw [e]
    · exact .inl rfl
    · rcases hostAccess_status a s with ⟨hst, -⟩ | ⟨w, rfl, hw⟩
      · exact .inl hst
      · exact .inr (.inl ⟨w, .inl rfl, hw⟩)
  · exact .inr (.inr (.inr ⟨rfl, rfl⟩))

/-- What one step can do to STATUS (R21). -/
theorem step_status (h : Invariant s) (ht : step s = .next t) :
    t.status = s.status ∨ (∃ w, WritesCmd (nextTurn s) s w ∧ Issues w s t) ∨ Ends (nextTurn s) s t ∨
      (nextTurn s = .reset ∧ t.status = 0) := by
  have hu : Invariant { s with turns := s.turns.tail } := h.withSurroundings s.faultMark s.host s.turns.tail
  have hturn := takeTurn_status hu ht
  exact hturn

/-- Settles O56: a step leaves STATUS, issues, ends or resets, and each of the last three fixes BUSY, DONE and ERR. -/
theorem statusWriters : Obligations.StatusWriters := by
  intro s t h ht line issued wasReset ended
  have hok := (h.after_step ht).status
  rcases step_status h ht with hst | ⟨w, hturn, hb, hst, hop⟩ | hend | hreset
  case inl =>
    have hbusy : t.busy = s.busy := congrArg Status.busy hst
    rw [hbusy, hst]
    exact ⟨fun h0 h1 => by simp [h0] at h1, fun h1 h0 => by simp [h0] at h1, fun h0 h1 => by simp [h0] at h1,
      fun h0 h1 => by simp [h0] at h1, fun h1 h0 => by simp [h0] at h1, fun h1 h0 => by simp [h0] at h1,
      fun hne => absurd rfl hne, h.status⟩
  case inr.inl =>
    have hissued : issued := ⟨hb, w, hst, hop, hturn⟩
    have hdone : Status.done t.status = false := by rw [hst, Status.issued, Status.done_pack]
    have herr : Status.err t.status = false := by rw [hst, Status.issued, Status.err_pack]
    exact ⟨fun _ _ => hissued, fun h1 => by simp [hb] at h1, fun _ h1 => by simp [hdone] at h1,
      fun _ h1 => by simp [herr] at h1, fun _ _ => .inl hissued, fun _ _ => .inl hissued, fun _ => .inl hissued, hok⟩
  case inr.inr.inl =>
    have hended : ended := hend
    obtain ⟨-, hb, -, hdone, -⟩ := hend
    obtain ⟨-, herr⟩ := h.status.busy hb
    exact ⟨fun h0 => by simp [hb] at h0, fun _ _ => .inl hended, fun _ _ => hended, fun _ _ => hended,
      fun _ h0 => by simp [hdone] at h0, fun h1 => by simp [herr] at h1, fun _ => .inr (.inl hended), hok⟩
  case inr.inr.inr =>
    have hzero : t.busy = false ∧ Status.done t.status = false ∧ Status.err t.status = false := by
      rw [State.busy, hreset.2]
      decide
    obtain ⟨hb, hdone, herr⟩ := hzero
    exact ⟨fun _ h1 => by simp [hb] at h1, fun _ _ => .inr hreset, fun _ h1 => by simp [hdone] at h1,
      fun _ h1 => by simp [herr] at h1, fun _ _ => .inr hreset, fun _ _ => .inr hreset, fun _ => .inr (.inr hreset),
      hok⟩

end Sys2Proof.Machine
end

section
/-! SUPPORT. The register map (spec/10_state.md R14 to R18, R22 to R29): which register stands at an offset, what it
reads as, which field a write of it sets, and what else it leaves alone; and the writers of HDRINFO (R23). -/

namespace Sys2Proof.Machine

variable {s t : State}

/-! ### Offsets -/

/-- The offsets of the map are the words of the window up to 0x68 (R18). -/
theorem Reg.offset_aligned (r : Reg) : r.offset % 4 = 0 ∧ r.offset ≤ 0x68 := by cases r <;> decide

@[simp] theorem Reg.at_offset (r : Reg) : Reg.at r.offset = some r := by cases r <;> rfl

/-- The register found at an offset stands there. -/
theorem Reg.offset_of_at {o : Nat} {r : Reg} (h : Reg.at o = some r) : r.offset = o := by
  simpa using List.find?_some h

theorem Reg.at_eq_none {o : Nat} (h : ∀ r : Reg, r.offset ≠ o) : Reg.at o = none :=
  List.find?_eq_none.2 fun r _ => by simpa using h r

theorem Reg.at_eq_none_of_beyond {o : Nat} (h : 0x6C ≤ o) : Reg.at o = none :=
  Reg.at_eq_none fun r => by have := r.offset_aligned; omega

theorem Reg.at_eq_none_of_misaligned {o : Nat} (h : o % 4 ≠ 0) : Reg.at o = none :=
  Reg.at_eq_none fun r => by have := r.offset_aligned; omega

/-- Every word from 0x40 to 0x68 is an HDR_* register (R18). -/
theorem Reg.at_hdr {o : Nat} (halign : o % 4 = 0) (hlo : 0x40 ≤ o) (hhi : o ≤ 0x68) :
    ∃ r, Reg.at o = some r ∧ 0x40 ≤ r.offset := by
  have hwords : ∀ k < 11, ∃ r ∈ Reg.all, Reg.at (0x40 + 4 * k) = some r ∧ 0x40 ≤ r.offset := by decide
  obtain ⟨r, -, hr⟩ := hwords ((o - 0x40) / 4) (by omega)
  rw [show 0x40 + 4 * ((o - 0x40) / 4) = o by omega] at hr
  exact ⟨r, hr⟩

/-! ### Accesses of an idle block inside the window -/

theorem portHazard_eq_none {o : Nat} (halign : o % 4 = 0) (hwindow : o < 0x100) : portHazard 32 o = none := by
  simp [portHazard, halign, hwindow]

theorem hostAccess_regRead (hb : s.busy = false) {o : Nat} (halign : o % 4 = 0) (hwindow : o < 0x100) :
    hostAccess (.regRead 32 o) s = (.word (readOffset o s), s) := by
  simp [hostAccess, hazardOf, accessHazard, portHazard_eq_none halign hwindow, hb, access]

theorem hostAccess_regWrite (hb : s.busy = false) {o : Nat} (halign : o % 4 = 0) (hwindow : o < 0x100) (v : Word) :
    hostAccess (.regWrite 32 o v) s = (.nothing, writeOffset o v s) := by
  simp [hostAccess, hazardOf, accessHazard, portHazard_eq_none halign hwindow, hb, access]

theorem hostAccess_readReg (hb : s.busy = false) (r : Reg) :
    hostAccess (.regRead 32 r.offset) s = (.word (readReg r s), s) := by
  obtain ⟨halign, hle⟩ := r.offset_aligned
  rw [hostAccess_regRead hb halign (by omega), readOffset, Reg.at_offset]

theorem hostAccess_writeReg (hb : s.busy = false) (r : Reg) (v : Word) :
    hostAccess (.regWrite 32 r.offset v) s = (.nothing, writeReg r v s) := by
  obtain ⟨halign, hle⟩ := r.offset_aligned
  rw [hostAccess_regWrite hb halign (by omega), writeOffset, Reg.at_offset]

theorem readOffset_of_reserved {o : Nat} (h : Reg.at o = none) (s : State) : readOffset o s = 0 := by
  rw [readOffset, h]

/-! ### What the offsets read as -/

/-- A field no wider than a word reads as its own number. -/
theorem toNat_setWidth_word {n : Nat} (x : BitVec n) (hn : n ≤ 32) : (x.setWidth 32).toNat = x.toNat :=
  BitVec.toNat_setWidth_of_le hn

/-- The bytes of a word put together from four (R29). -/
theorem bytes_of_word (a b c d : Byte) :
    (d ++ c ++ b ++ a).extractLsb' 0 8 = a ∧ (d ++ c ++ b ++ a).extractLsb' 8 8 = b ∧
      (d ++ c ++ b ++ a).extractLsb' 16 8 = c ∧ (d ++ c ++ b ++ a).extractLsb' 24 8 = d := by
  have ha := a.isLt; have hb := b.isLt; have hc := c.isLt; have hd := d.isLt
  have field : ∀ (i : Nat) (x : Byte), (d ++ c ++ b ++ a).toNat / 2 ^ i % 2 ^ 8 = x.toNat →
      (d ++ c ++ b ++ a).extractLsb' i 8 = x := fun i x hx =>
    BitVec.eq_of_toNat_eq ((toNat_extract ..).trans hx)
  refine ⟨field 0 a ?_, field 8 b ?_, field 16 c ?_, field 24 d ?_⟩ <;> simp only [toNat_append_eq] <;> omega

/-- Settles O40: the map by its entries, and each offset of the window by the register found there. -/
theorem registerMapOffsets : Obligations.RegisterMapOffsets := by
  refine ⟨?_, ⟨rfl, rfl, fun _ => Reg.at_eq_none_of_beyond, fun _ => Reg.at_eq_none_of_misaligned⟩, fun s hb => ?_⟩
  · intro r o hmem
    have hoff : r.offset = o := (by decide : ∀ e ∈ _, Reg.offset e.1 = e.2) (r, o) hmem
    exact ⟨hoff, hoff ▸ r.at_offset⟩
  · refine ⟨fun o => readOffset o s, fun o halign hwindow => hostAccess_regRead hb halign hwindow, ?_⟩
    obtain ⟨hinHi, hinLo⟩ := toNat_words s.inCount
    obtain ⟨houtHi, houtLo⟩ := toNat_words s.outCount
    obtain ⟨hcapHi, hcapLo⟩ := toNat_words s.pbufCap
    rw [s.toNat_pbufCap] at hcapHi hcapLo
    have hcmap := bytes_of_word s.hdr.cmap.c0 s.hdr.cmap.c1 s.hdr.cmap.c2 s.hdr.cmap.c3
    exact ⟨rfl, rfl, toNat_setWidth_word _ (by decide), toNat_setWidth_word _ (by decide),
      toNat_setWidth_word _ (by decide), toNat_setWidth_word _ (by decide), rfl, rfl, hinLo, hinHi, houtLo, houtHi,
      hcapLo, hcapHi, rfl, rfl, toNat_setWidth_word _ (by decide), toNat_setWidth_word _ (by decide),
      toNat_setWidth_word _ (by decide), hcmap, toNat_setWidth_word _ (by decide), toNat_setWidth_word _ (by decide),
      toNat_setWidth_word _ (by decide), toNat_setWidth_word _ (by decide), toNat_setWidth_word _ (by decide),
      toNat_setWidth_word _ (by decide), toNat_setWidth_word _ (by decide),
      fun o ho => readOffset_of_reserved (Reg.at_eq_none_of_beyond ho) s⟩

/-! ### Register writes -/

/-- How many of a read-write register's bits are used (R14 to R16, R29); the other registers take no value (R18). -/
def Reg.usedBits : Reg → Option Nat
  | .cfgWidth | .cfgHeight | .hdrXOrigin | .hdrYOrigin | .hdrWidth | .hdrHeight => some 16
  | .cfgChannels => some 3
  | .hdrIdlen | .hdrCmapType | .hdrImgType | .hdrCmapSpecHi | .hdrBpp | .hdrDesc => some 8
  | .hdrCmapSpecLo => some 32
  | .cmd | .status | .hdrInfo | .pixCount | .pktCount | .inCountLo | .inCountHi | .outCountLo | .outCountHi
  | .pbufCapLo | .pbufCapHi => none

theorem Reg.ne_cmd_of_usedBits {r : Reg} {k : Nat} (h : r.usedBits = some k) : r ≠ .cmd := by
  rintro rfl
  cases h

theorem toNat_setWidth_setWidth (v : Word) {k : Nat} (hk : k ≤ 32) :
    ((v.setWidth k).setWidth 32).toNat = v.toNat % 2 ^ k := by
  rw [toNat_setWidth_word _ hk, BitVec.toNat_setWidth]

/-- A word is put together from its own four bytes (R29). -/
theorem word_of_bytes (v : Word) :
    v.extractLsb' 24 8 ++ v.extractLsb' 16 8 ++ v.extractLsb' 8 8 ++ v.extractLsb' 0 8 = v := by
  have hv := v.isLt
  apply BitVec.eq_of_toNat_eq
  simp only [toNat_append_eq, toNat_extract]
  omega

/-- A write makes a read-write register read the used bits of the value (R18). -/
theorem readReg_writeReg_self {r : Reg} {k : Nat} (h : r.usedBits = some k) (v : Word) (s : State) :
    (readReg r (writeReg r v s)).toNat = v.toNat % 2 ^ k := by
  cases r
  case hdrCmapSpecLo =>
    cases h
    have hword : readReg .hdrCmapSpecLo (writeReg .hdrCmapSpecLo v s) = v := word_of_bytes v
    rw [hword, Nat.mod_eq_of_lt v.isLt]
  all_goals cases h
  all_goals exact toNat_setWidth_setWidth v (by decide)

/-- A write to a register that is no command changes what no other register reads as, but that one to an HDR_* register
clears HDRINFO (R18, R23). -/
theorem readReg_writeReg_ne {r r' : Reg} (hr : r ≠ .cmd) (hne : r' ≠ r) (hinfo : r' = .hdrInfo → r.offset < 0x40)
    (v : Word) (s : State) : readReg r' (writeReg r v s) = readReg r' s := by
  cases r
  case cmd => exact absurd rfl hr
  all_goals cases r' <;> first
    | rfl
    | exact absurd rfl hne
    | exact absurd (hinfo rfl) (by decide)

/-- A write to a read-only register changes nothing (R18). -/
theorem writeReg_readOnly {r : Reg} (hr : r ≠ .cmd) (h : r.usedBits = none) (v : Word) (s : State) :
    writeReg r v s = s := by
  cases r <;> first
    | rfl
    | exact absurd rfl hr
    | cases h

/-- A register write that issues no command touches CFG, HDR and HDRINFO alone (R18, R23). -/
theorem writeReg_frame {r : Reg} (hr : r ≠ .cmd) (v : Word) (s : State) :
    ∃ W H C g i,
      writeReg r v s = { s with cfgWidth := W, cfgHeight := H, cfgChannels := C, hdr := g, hdrInfo := i } := by
  by_cases hhdr : 0x40 ≤ r.offset
  · obtain ⟨g, e⟩ := writeReg_hdr hhdr v s
    exact ⟨_, _, _, _, _, e⟩
  · rcases writeReg_below_hdr (Nat.lt_of_not_le hhdr) v s with ⟨hcmd, -⟩ | ⟨W, H, C, e⟩
    · exact absurd hcmd hr
    · exact ⟨_, _, _, _, _, e⟩

theorem writeOffset_of_at {o : Nat} {r : Reg} (h : Reg.at o = some r) (v : Word) (s : State) :
    writeOffset o v s = writeReg r v s := by
  rw [writeOffset, h]

/-- A write at the offset of an HDR_* register sets HDR, clears HDRINFO and changes nothing else (R23, R29). -/
theorem writeOffset_hdr {o : Nat} (halign : o % 4 = 0) (hlo : 0x40 ≤ o) (hhi : o ≤ 0x68) (v : Word) (s : State) :
    ∃ g, writeOffset o v s = setHdr g s := by
  obtain ⟨r, hat, hr⟩ := Reg.at_hdr halign hlo hhi
  rw [writeOffset_of_at hat]
  exact writeReg_hdr hr v s

/-- Settles O41: each read-write register by its used bits, and each offset by the field that the register there
sets. -/
theorem registerWrites : Obligations.RegisterWrites := by
  intro s v hb
  have used : ∀ k, (v.setWidth k).toNat = v.toNat % 2 ^ k := fun k => BitVec.toNat_setWidth ..
  refine ⟨?_, ?_, hostAccess_readReg hb, rfl, fun o => writeOffset o v s,
    fun o halign hwindow => hostAccess_regWrite hb halign hwindow v, ⟨used 16, rfl⟩, ⟨used 16, rfl⟩, ⟨used 3, rfl⟩, ?_,
    ⟨used 8, rfl⟩, ⟨used 8, rfl⟩, ⟨used 8, rfl⟩, ⟨rfl, rfl⟩, ⟨used 8, rfl, rfl⟩, ⟨used 16, rfl⟩, ⟨used 16, rfl⟩,
    ⟨used 16, rfl⟩, ⟨used 16, rfl⟩, ⟨used 8, rfl⟩, ⟨used 8, rfl⟩⟩
  · intro r k hmem
    have hbits : r.usedBits = some k := (by decide : ∀ e ∈ _, Reg.usedBits e.1 = some e.2) (r, k) hmem
    have hr := Reg.ne_cmd_of_usedBits hbits
    refine ⟨_, hostAccess_writeReg hb r v, readReg_writeReg_self hbits v s,
      fun r' hne hinfo => readReg_writeReg_ne hr hne hinfo v s, ?_⟩
    obtain ⟨W, H, C, g, i, e⟩ := writeReg_frame hr v s
    rw [e]
    exact ⟨rfl, rfl, rfl, rfl, rfl, rfl, rfl, rfl⟩
  · intro r hmem
    have hro : r ≠ .cmd ∧ r.usedBits = none := (by decide : ∀ r ∈ _, r ≠ Reg.cmd ∧ Reg.usedBits r = none) r hmem
    rw [hostAccess_writeReg hb, writeReg_readOnly hro.1 hro.2]
  · intro o halign hlo hhi
    obtain ⟨g, e⟩ := writeOffset_hdr halign hlo hhi v s
    simp only [e]
    exact ⟨rfl, rfl⟩

/-! ### HDRINFO -/

theorem PacketFails.hdrInfo (h : PacketFails s t) : t.hdrInfo = s.hdrInfo := by
  obtain ⟨e, d, k, -, -, rfl⟩ := h
  rfl

theorem rleSetup_hdrInfo {op : EngOp} (ht : rleSetup op s = .next t) : t.hdrInfo = s.hdrInfo := by
  rcases rleSetup_cases ht with ⟨-, rfl⟩ | ⟨-, rfl⟩ <;> rfl

theorem packetStep_hdrInfo {n m : Nat} {expand : List Byte → List Byte} (ht : packetStep n m expand s = .next t) :
    t.hdrInfo = s.hdrInfo := by
  rcases packetStep_cases ht with hfail | ⟨-, -, rfl⟩
  · exact hfail.hdrInfo
  · rfl

/-- The instructions other than HDR_PARSE, HDR_CHECK and HDR_BUILD leave HDRINFO alone (R23). -/
theorem exec_hdrInfo {i : Instr} (ht : exec i s = .next t) (hparse : i ≠ .hdrParse) (hcheck : i ≠ .hdrCheck)
    (hbuild : ∀ rle vflip, i ≠ .hdrBuild rle vflip) : t.hdrInfo = s.hdrInfo := by
  cases i with
  | hdrParse => exact absurd rfl hparse
  | hdrCheck => exact absurd rfl hcheck
  | hdrBuild rle vflip => exact absurd rfl (hbuild rle vflip)
  | hdrSerialize =>
    have ht : execHdrSerialize s = .next t := ht
    rw [execHdrSerialize_eq] at ht
    split at ht <;> cases ht <;> rfl
  | rleDecode =>
    rcases exec_rleDecode_cases ht with ⟨-, ht⟩ | ⟨-, -, ht⟩ | ⟨-, rfl⟩
    · exact rleSetup_hdrInfo ht
    · rcases decodePacket_cases ht with hfail | ⟨n, m, bytes, -, -, -, -, -, rfl⟩
      · exact hfail.hdrInfo
      · rfl
    · rfl
  | rleEncode =>
    rcases exec_rleEncode_cases ht with ⟨-, ht⟩ | ⟨-, -, ht⟩ | ⟨-, rfl⟩
    · exact rleSetup_hdrInfo ht
    · rw [encodePacket_eq] at ht
      dsimp only at ht
      split at ht <;> cases ht <;> rfl
    · rfl
  | illegal w => cases ht; rfl
  | rawPacket n => exact packetStep_hdrInfo (expand := id) ht
  | runPacket n => exact packetStep_hdrInfo (expand := (repeatBytes · (pixelCount n))) ht

/-- An engine step is that of a command just issued, or of an RLE command past its setup step, or none (R136). -/
theorem engineStep_hdrInfo (ht : engineStep s = .next t) :
    t.hdrInfo = s.hdrInfo ∨ ∃ i, s.eng.op = .ready i ∧ exec i s = .next t := by
  unfold engineStep at ht
  cases hop : s.eng.op with
  | idle => rw [hop] at ht; cases ht; exact .inl rfl
  | ready i => rw [hop] at ht; exact .inr ⟨i, rfl, ht⟩
  | decoding => rw [hop] at ht; exact .inl (exec_hdrInfo (i := .rleDecode) ht (by simp) (by simp) (by simp))
  | encoding => rw [hop] at ht; exact .inl (exec_hdrInfo (i := .rleEncode) ht (by simp) (by simp) (by simp))

/-- A register write leaves HDRINFO alone, or it is one to an HDR_* register and clears it (R23). -/
theorem writeReg_hdrInfo (r : Reg) (v : Word) (s : State) :
    (writeReg r v s).hdrInfo = s.hdrInfo ∨ (0x40 ≤ r.offset ∧ (writeReg r v s).hdrInfo = 0) := by
  by_cases hr : 0x40 ≤ r.offset
  · obtain ⟨g, e⟩ := writeReg_hdr hr v s
    exact .inr ⟨hr, by rw [e]; rfl⟩
  · rcases writeReg_below_hdr (Nat.lt_of_not_le hr) v s with ⟨-, e⟩ | ⟨W, H, C, e⟩ <;> rw [e]
    · exact .inl rfl
    · exact .inl rfl

/-- An access that is no hazard has the width of the register port (R133). -/
theorem width_of_hazardOf_none {width o : Nat} {v : Word} (hz : hazardOf (.regWrite width o v) s = none) :
    width = 32 := by
  by_contra hw
  simp [hazardOf, accessHazard, portHazard, hw] at hz

/-- A host access leaves HDRINFO alone, or it is a 32-bit write at the offset of an HDR_* register and clears it
(R23). -/
theorem hostAccess_hdrInfo (a : HostAction) (s : State) :
    (hostAccess a s).2.hdrInfo = s.hdrInfo ∨
      ((hostAccess a s).2.hdrInfo = 0 ∧ ∃ o v, a = .regWrite 32 o v ∧ 0x40 ≤ o ∧ o ≤ 0x68) := by
  rcases hostAccess_cases a s with ⟨z, -, e⟩ | ⟨hz, e⟩ <;> rw [e]
  · exact .inl rfl
  · cases a with
    | regWrite width o v =>
      obtain rfl := width_of_hazardOf_none hz
      show (writeOffset o v s).hdrInfo = _ ∨ (writeOffset o v s).hdrInfo = 0 ∧ _
      cases hat : Reg.at o with
      | none => rw [writeOffset, hat]; exact .inl rfl
      | some r =>
        obtain rfl := Reg.offset_of_at hat
        rw [writeOffset_of_at hat]
        exact (writeReg_hdrInfo r v s).imp_right fun ⟨hr, h0⟩ => ⟨h0, _, _, rfl, hr, r.offset_aligned.2⟩
    | _ => exact .inl rfl

/-- Settles O55: by the command of the engine step, and by the register of the host access. -/
theorem hdrInfoWriters : Obligations.HdrInfoWriters := by
  refine ⟨fun s t ht hne => ?_, fun s a hne => (hostAccess_hdrInfo a s).resolve_left hne, fun s r v hb hr => ?_⟩
  · obtain ⟨i, hop, hi⟩ := (engineStep_hdrInfo ht).resolve_left hne
    rw [hop]
    by_contra hother
    simp only [EngOp.ready.injEq, not_or, not_exists] at hother
    obtain ⟨hparse, hcheck, hbuild⟩ := hother
    exact hne (exec_hdrInfo hi hparse hcheck hbuild)
  · obtain ⟨g, e⟩ := writeReg_hdr hr v s
    rw [hostAccess_writeReg hb, e, setHdr_hdrInfo]

end Sys2Proof.Machine
end

section
/-! SUPPORT. The configuration check (spec/10_state.md R17): `cfg_detail` as a sum, and the commands that raise it. -/

namespace Sys2Proof.Machine

/-- `cfg_detail` without the capacity bit, as a sum (R17). -/
theorem sizeDetail_eq_ofNat (W H C : Nat) :
    sizeDetail W H C =
      BitVec.ofNat 8
        ((if W = 0 then 1 else 0) + (if H = 0 then 2 else 0) + (if C = 1 ∨ C = 3 ∨ C = 4 then 0 else 4)) := by
  unfold sizeDetail
  split <;> split <;> split <;> decide

/-- `cfg_detail`, as a sum (R17). -/
theorem configDetail_eq_ofNat (W H C cap : Nat) :
    configDetail W H C cap =
      BitVec.ofNat 8 ((if W = 0 then 1 else 0) + (if H = 0 then 2 else 0) + (if C = 1 ∨ C = 3 ∨ C = 4 then 0 else 4) +
        (if cap < W * H * C then 8 else 0)) := by
  unfold configDetail sizeDetail
  split <;> split <;> split <;> split <;> decide

/-- A raised error touches nothing but STATUS and ENG (R112). -/
theorem raise_ends_untouched (e : ErrorKind) (d : Byte) (s : State) :
    EndsErr e.code d s (raise e d s) ∧ SameConfig s (raise e d s) ∧ SameHeader s (raise e d s) ∧
      (raise e d s).pbuf = s.pbuf ∧ SameSource s (raise e d s) ∧ SameSink s (raise e d s) ∧
      SameProgress s (raise e d s) ∧ SameSurroundings s (raise e d s) :=
  ⟨⟨rfl, rfl⟩, ⟨rfl, rfl, rfl⟩, ⟨rfl, rfl⟩, rfl, ⟨rfl, rfl⟩, ⟨rfl, rfl⟩, ⟨rfl, rfl⟩, ⟨rfl, rfl, rfl, rfl⟩⟩

theorem rleSetup_badConfig {op : EngOp} {s : State} (h : s.cfgDetail ≠ 0) :
    rleSetup op s = .next (raise .badConfig s.cfgDetail s) :=
  if_pos h

theorem execHdrBuild_badConfig {rle vflip : Bool} {s : State} (h : s.buildDetail ≠ 0) :
    execHdrBuild rle vflip s = .next (raise .badConfig s.buildDetail s) :=
  if_pos h

/-- The first step of an RLE command is its setup step (R136). -/
theorem exec_rle_ready {s : State} {i : Instr} (hi : i = .rleDecode ∨ i = .rleEncode) (hop : s.eng.op = .ready i) :
    ∃ op, exec i s = rleSetup op s := by
  rcases hi with rfl | rfl
  · exact ⟨.decoding, by show execRleDecode s = _; rw [execRleDecode, hop]⟩
  · exact ⟨.encoding, by show execRleEncode s = _; rw [execRleEncode, hop]⟩

theorem ofNat_ne_zero {d : Nat} (hlt : d < 256) (hd : d ≠ 0) : BitVec.ofNat 8 d ≠ 0 := by
  simpa [← BitVec.toNat_inj, Nat.mod_eq_of_lt hlt] using hd

/-- Settles O18: `cfg_detail` as a sum decides the branch of the setup step and of HDR_BUILD, which raises it. -/
theorem badConfigurationRaises : Obligations.BadConfigurationRaises := by
  intro s W H C size d untouched
  have hsize : size ≤ 7 := by simp only [size]; split <;> split <;> split <;> decide
  have hd : d ≤ size + 8 := by simp only [d]; split <;> omega
  refine ⟨fun i hi hop hne => ?_, fun rle vflip hne => ?_⟩
  · have hdetail : s.cfgDetail = BitVec.ofNat 8 d := configDetail_eq_ofNat ..
    obtain ⟨op, e⟩ := exec_rle_ready hi hop
    rw [e, rleSetup_badConfig (hdetail ▸ ofNat_ne_zero (by omega) hne), hdetail]
    exact ⟨_, rfl, raise_ends_untouched .badConfig _ s⟩
  · have hdetail : s.buildDetail = BitVec.ofNat 8 size := s.buildDetail_eq.trans (sizeDetail_eq_ofNat ..)
    have e : exec (.hdrBuild rle vflip) s = _ := execHdrBuild_badConfig (hdetail ▸ ofNat_ne_zero (by omega) hne)
    rw [e, hdetail]
    exact ⟨_, rfl, raise_ends_untouched .badConfig _ s⟩

end Sys2Proof.Machine
end

section
/-! SUPPORT. The memory of the block as its users see it (spec/20_memory.md R36 to R44): the host's accesses to the
buffer and the streams, the stream primitives, pixels, and the writers of PBUF. -/

namespace Sys2Proof.Machine

variable {s t : State} {a : HostAction}

/-! ### Hazards, and accesses that are none -/

/-- While BUSY = 0 an access has its own effect unless it is an access hazard (R133). -/
theorem hostAccess_of_idle (hb : s.busy = false) (hz : accessHazard a s = none) : hostAccess a s = access a s := by
  simp [hostAccess, hazardOf, hz, hb]

/-- An access that is a hazard gives nothing, sets FAULT and has no other effect (R35, R132, R133). -/
theorem hostAccess_of_hazard {z : Hazard} (hz : hazardOf a s = some z) :
    ∃ t, hostAccess a s = (.nothing, t) ∧ t.faultMark ≠ none ∧ { t with faultMark := s.faultMark } = s :=
  ⟨setFault z s, by rw [hostAccess, hz], by simp, rfl⟩

/-- An access hazard is recorded whether the block is busy or not (R133). -/
theorem hazardOf_of_accessHazard {z : Hazard} (h : accessHazard a s = some z) : hazardOf a s = some z := by
  rw [hazardOf, h]

/-- While BUSY = 1 an access that the busy hazard excludes is a hazard (R132). -/
theorem hazardOf_of_busy {z : Hazard} (hb : s.busy = true) (h : busyHazard a = some z) :
    ∃ y, hazardOf a s = some y := by
  cases hz : accessHazard a s with
  | some y => exact ⟨y, hazardOf_of_accessHazard hz⟩
  | none => exact ⟨z, by simp [hazardOf, hz, hb, h]⟩

/-! ### The buffer port (R40) -/

/-- The accesses of the buffer port at one address. -/
theorem accessHazard_buffer {x : Nat} {v : Byte} (ha : a = .bufRead x ∨ a = .bufWrite x v) (s : State) :
    accessHazard a s = if x < s.params.pbufBytes then none else some .outsideBuffer := by
  rcases ha with rfl | rfl <;> rfl

theorem busyHazard_buffer {x : Nat} {v : Byte} (ha : a = .bufRead x ∨ a = .bufWrite x v) :
    busyHazard a = some .busyBuffer := by
  rcases ha with rfl | rfl <;> rfl

/-- A buffer access that fails one of the two preconditions of R40 is a hazard. -/
theorem hazardOf_buffer {x : Nat} {v : Byte} (ha : a = .bufRead x ∨ a = .bufWrite x v)
    (hpre : s.busy = true ∨ s.params.pbufBytes ≤ x) : ∃ z, hazardOf a s = some z := by
  rcases hpre with hb | hx
  · exact hazardOf_of_busy hb (busyHazard_buffer ha)
  · exact ⟨_, hazardOf_of_accessHazard (by rw [accessHazard_buffer ha, if_neg (Nat.not_lt.2 hx)])⟩

/-- Settles O39: inside PBUF the memory's laws of one write, and outside the preconditions a hazard. -/
theorem bufferPort : Obligations.BufferPort := by
  intro s x v hform
  refine ⟨fun hb hx => ?_, fun hpre a ha => ?_⟩
  · have inside : ∀ {a : HostAction}, a = .bufRead x ∨ a = .bufWrite x v → hostAccess a s = access a s := fun ha =>
      hostAccess_of_idle hb (by rw [accessHazard_buffer ha, if_pos hx])
    exact ⟨inside (.inl rfl), _, inside (.inr rfl), Memory.read_write_self _ _ _ hform,
      fun _ hy => Memory.read_write_ne _ _ hy, rfl⟩
  · obtain ⟨z, hz⟩ := hazardOf_buffer ha hpre
    exact hostAccess_of_hazard hz

/-! ### The streams (R42 to R44) -/

theorem State.sinkOpen_iff :
    s.sinkOpen = true ↔ ∀ limit, s.params.sinkLimit = some limit → s.sinkOut.length < limit := by
  unfold State.sinkOpen
  cases s.params.sinkLimit <;> simp

/-- The sink accepts a byte while it is open (R43). -/
theorem sinkWrite_of_open (h : s.sinkOpen = true) (b : Byte) :
    sinkWrite b s = (true, { s with sinkOut := s.sinkOut ++ [b], outCount := s.outCount + 1 }) :=
  if_pos h

/-- A sink at its limit refuses the byte and nothing changes (R43). -/
theorem sinkWrite_of_not_open (h : s.sinkOpen ≠ true) (b : Byte) : sinkWrite b s = (false, s) :=
  if_neg h

/-- The bytes that the host puts, with no limit on the sink. -/
theorem take_sinkRoom_unlimited (h : s.params.sinkLimit = none) (bs : List Byte) :
    bs.take (s.sinkRoom bs.length) = bs := by
  rw [State.sinkRoom, h, List.take_length]

/-- The bytes that the host puts, of which a limited sink takes the first ones (R44). -/
theorem take_sinkRoom_limited {limit : Nat} (h : s.params.sinkLimit = some limit) (bs : List Byte) :
    bs.take (s.sinkRoom bs.length) = bs.take (limit - s.sinkOut.length) := by
  simp only [State.sinkRoom, h, List.take_eq_take_iff]
  omega

/-- Settles O44: by whether the source still holds a byte, and by whether the sink is open. -/
theorem streamPrimitives : Obligations.StreamPrimitives := by
  intro s b
  refine ⟨fun h => srcRead_cons (List.drop_eq_getElem_cons h), fun h => srcRead_nil (List.drop_eq_nil_of_le h),
    fun h => sinkWrite_of_open (State.sinkOpen_iff.2 h) b, fun limit hlimit hfull => sinkWrite_of_not_open ?_ b⟩
  intro hopen
  have hroom := State.sinkOpen_iff.1 hopen limit hlimit
  omega

/-- Settles O43: neither access is an access hazard, so while BUSY = 0 each has its own effect. -/
theorem hostTakeAndPut : Obligations.HostTakeAndPut := by
  intro s k bs hb
  refine ⟨?_, hostPut bs s, hostAccess_of_idle hb rfl, rfl, fun hnone => ?_, fun limit hlimit => ?_⟩
  · have htaken : (s.remaining.take k).length = min k (s.params.src.length - s.srcPos) := by
      rw [List.length_take, s.length_remaining]
    rw [hostAccess_of_idle hb rfl, access, hostTake, htaken]
    rfl
  · rw [hostPut, take_sinkRoom_unlimited hnone]
  · rw [hostPut, take_sinkRoom_limited hlimit]

/-! ### Pixels (R37, R38) -/

theorem Memory.getElem?_readBytes (m : Memory) (x : Nat) {n k : Nat} (hk : k < n) :
    (m.readBytes x n)[k]? = some (m.read (x + k)) := by
  simp [Memory.readBytes, hk]

/-- Two byte sequences of a memory are equal exactly when they are equal byte for byte. -/
theorem Memory.readBytes_eq_iff (m : Memory) (x y n : Nat) :
    m.readBytes x n = m.readBytes y n ↔ ∀ k, k < n → m.read (x + k) = m.read (y + k) := by
  simp [Memory.readBytes, List.map_inj_left]

/-- Settles O48: a pixel is a byte sequence of PBUF. -/
theorem pixelsAreComparedByteForByte : Obligations.PixelsAreComparedByteForByte := fun s _ _ =>
  ⟨Memory.length_readBytes .., Memory.readBytes_eq_iff .., fun _ => s.pbuf.getElem?_readBytes _,
    fun _ _ _ => s.pbuf.getElem?_readBytes _⟩

/-! ### The writers of PBUF (R39) -/

theorem rleSetup_pbuf {op : EngOp} (ht : rleSetup op s = .next t) : t.pbuf = s.pbuf := by
  rcases rleSetup_cases ht with ⟨-, rfl⟩ | ⟨-, rfl⟩ <;> rfl

/-- A command's engine step leaves PBUF alone, unless it is one of RLE_DECODE past its setup (R39). -/
theorem exec_pbuf {i : Instr} (ht : exec i s = .next t) (hcmd : i.isCommand = true)
    (hdec : i = .rleDecode → s.eng.op ≠ .decoding) : t.pbuf = s.pbuf := by
  cases i with
  | hdrParse =>
    have ht : execHdrParse s = .next t := ht
    rw [execHdrParse_eq] at ht
    split at ht <;> cases ht <;> rfl
  | hdrSerialize =>
    have ht : execHdrSerialize s = .next t := ht
    rw [execHdrSerialize_eq] at ht
    split at ht <;> cases ht <;> rfl
  | hdrCheck => rcases exec_hdrCheck_cases ht with ⟨e, rfl⟩ | ⟨-, rfl⟩ <;> rfl
  | hdrBuild rle vflip => rcases exec_hdrBuild_cases ht with ⟨-, rfl⟩ | ⟨g, v, -, -, rfl⟩ <;> rfl
  | rleDecode =>
    rcases exec_rleDecode_cases ht with ⟨-, ht⟩ | ⟨hop, -⟩ | ⟨hop, -⟩
    · exact rleSetup_pbuf ht
    all_goals exact absurd hop (hdec rfl)
  | rleEncode =>
    rcases exec_rleEncode_cases ht with ⟨-, ht⟩ | ⟨-, -, ht⟩ | ⟨-, rfl⟩
    · exact rleSetup_pbuf ht
    · rw [encodePacket_eq] at ht
      dsimp only at ht
      split at ht <;> cases ht <;> rfl
    · rfl
  | illegal w => cases ht; rfl
  | rawPacket n => cases hcmd
  | runPacket n => cases hcmd

/-- A free draw leaves every address beyond the image alone (R94). -/
theorem drawImage_pbuf_outside {x : Nat} (hx : s.imageBytes ≤ x) : (drawImage s).pbuf.read x = s.pbuf.read x :=
  Memory.read_writeBytes_outside _ _ _ (.inr (by simpa using hx))

/-- A failed decode leaves every address beyond the image alone (R94). -/
theorem PacketFails.pbuf_outside (h : PacketFails s t) {x : Nat} (hx : s.imageBytes ≤ x) :
    t.pbuf.read x = s.pbuf.read x := by
  obtain ⟨e, d, k, -, -, rfl⟩ := h
  exact drawImage_pbuf_outside (s := { s.tookPayload k with eng := s.eng.unstage }) hx

/-- A packet of RLE_DECODE leaves every address beyond the image alone: it commits no pixel from `N` on (R89, R92). -/
theorem decodePacket_pbuf_outside (ht : decodePacket s = .next t) {x : Nat} (hx : s.imageBytes ≤ x) :
    t.pbuf.read x = s.pbuf.read x := by
  rcases decodePacket_cases ht with hfail | ⟨n, m, bytes, hroom, -, -, -, hbytes, rfl⟩
  · exact hfail.pbuf_outside hx
  · have hend : s.eng.pcur * s.channels + bytes.length ≤ x :=
      calc s.eng.pcur * s.channels + bytes.length = (s.eng.pcur + n) * s.channels := by rw [hbytes, Nat.add_mul]
        _ ≤ s.imageBytes := Nat.mul_le_mul_right _ hroom
        _ ≤ x := hx
    exact Memory.read_writeBytes_outside _ _ _ (.inr hend)

/-- A step of RLE_DECODE, in any phase, leaves every address beyond the image alone. -/
theorem exec_rleDecode_pbuf_outside (ht : exec .rleDecode s = .next t) {x : Nat} (hx : s.imageBytes ≤ x) :
    t.pbuf.read x = s.pbuf.read x := by
  rcases exec_rleDecode_cases ht with ⟨-, ht⟩ | ⟨-, -, ht⟩ | ⟨-, rfl⟩
  · rw [rleSetup_pbuf ht]
  · exact decodePacket_pbuf_outside ht hx
  · rfl

theorem Invariant.isCommand_of_ready (h : Invariant s) {i : Instr} (hop : s.eng.op = .ready i) : i.isCommand = true := by
  have hready := h.op
  simp only [OpInv, hop] at hready
  exact hready.1

/-- What an engine step can be from a state of the invariant: nothing, or a step of a command, which in the decoder's
packet phase is RLE_DECODE (R31, R136). -/
theorem Invariant.engineStep_cases (h : Invariant s) (ht : engineStep s = .next t) :
    t = s ∨ ∃ i, i.isCommand = true ∧ (s.eng.op = .decoding → i = .rleDecode) ∧ exec i s = .next t := by
  unfold engineStep at ht
  cases hop : s.eng.op with rw [hop] at ht
  | idle => cases ht; exact .inl rfl
  | ready i => exact .inr ⟨i, h.isCommand_of_ready hop, nofun, ht⟩
  | decoding => exact .inr ⟨.rleDecode, rfl, fun _ => rfl, ht⟩
  | encoding => exact .inr ⟨.rleEncode, rfl, nofun, ht⟩

/-- An engine step leaves PBUF alone but in the packet phase of RLE_DECODE (R39). -/
theorem Invariant.engineStep_pbuf (h : Invariant s) (ht : engineStep s = .next t) (hop : s.eng.op ≠ .decoding) :
    t.pbuf = s.pbuf := by
  rcases h.engineStep_cases ht with rfl | ⟨i, hcmd, -, hi⟩
  · rfl
  · exact exec_pbuf hi hcmd fun _ => hop

/-- No engine step changes an address beyond the image (R39, R94). -/
theorem Invariant.engineStep_pbuf_outside (h : Invariant s) (ht : engineStep s = .next t) {x : Nat}
    (hx : s.imageBytes ≤ x) : t.pbuf.read x = s.pbuf.read x := by
  by_cases hop : s.eng.op = .decoding
  · rcases h.engineStep_cases ht with rfl | ⟨i, -, hdec, hi⟩
    · rfl
    · obtain rfl := hdec hop
      exact exec_rleDecode_pbuf_outside hi hx
  · rw [h.engineStep_pbuf ht hop]

theorem writeOffset_pbuf (o : Nat) (v : Word) (s : State) : (writeOffset o v s).pbuf = s.pbuf := by
  cases hat : Reg.at o with
  | none => rw [writeOffset, hat]
  | some r =>
    rw [writeOffset_of_at hat]
    cases r <;> rfl

/-- A host access that is no write through the buffer port leaves PBUF alone (R39, R40). -/
theorem hostAccess_pbuf (ha : ∀ x v, a ≠ .bufWrite x v) (s : State) : (hostAccess a s).2.pbuf = s.pbuf := by
  rcases hostAccess_cases a s with ⟨z, -, e⟩ | ⟨-, e⟩ <;> rw [e]
  · rfl
  · cases a with
    | bufWrite x v => exact absurd rfl (ha x v)
    | regWrite width o v => exact writeOffset_pbuf o v s
    | _ => rfl

/-- Settles O54: of the commands RLE_DECODE alone writes PBUF, and only its packets do, inside the image. -/
theorem pbufWriters : Obligations.PbufWriters :=
  ⟨fun _ _ _ h ht => ⟨h.engineStep_pbuf ht, h.engineStep_pbuf_outside ht⟩, fun s _ ha => hostAccess_pbuf ha s⟩

end Sys2Proof.Machine
end

section
/-! SUPPORT. The two code spaces (spec/30_encoding.md R61 to R67, R70): the fields of a command word and of a control
byte as arithmetic on its number, and how decoding and encoding undo each other. -/

namespace Sys2Proof

/-! ### Command words (R61 to R63) -/

theorem toNat_opField (w : Word) : (opField w).toNat = w.toNat % 256 := by
  rw [opField, BitVec.extractLsb'_toNat, Nat.shiftRight_zero]

theorem opField_eq_ofNat (w : Word) : opField w = BitVec.ofNat 8 w.toNat :=
  BitVec.eq_of_toNat_eq (by rw [toNat_opField, BitVec.toNat_ofNat])

theorem flagField_eq_zero_iff {w : Word} : flagField w = 0 ↔ w.toNat / 256 % 4 = 0 := by
  rw [← BitVec.toNat_inj, flagField, Machine.toNat_extract]
  rfl

theorem reservedField_eq_zero_iff {w : Word} : reservedField w = 0 ↔ w.toNat / 1024 = 0 := by
  have hw := w.isLt
  rw [← BitVec.toNat_inj, reservedField, Machine.toNat_extract]
  simp only [BitVec.ofNat_eq_ofNat, BitVec.toNat_ofNat]
  omega

theorem opField_eq_four_iff {w : Word} : opField w = 0x04 ↔ w.toNat % 256 = 4 := by
  rw [← BitVec.toNat_inj, toNat_opField]
  rfl

/-- `legal(w)` in arithmetic on the word's number (R63). -/
theorem legalWord_iff {w : Word} :
    legalWord w = true ↔
      (1 ≤ w.toNat % 256 ∧ w.toNat % 256 ≤ 6) ∧ w.toNat / 1024 = 0 ∧
        (w.toNat % 256 = 4 ∨ w.toNat / 256 % 4 = 0) := by
  simp only [legalWord, definedOpcode, Bool.and_eq_true, Bool.or_eq_true, beq_iff_eq, decide_eq_true_eq,
    opField_eq_four_iff, flagField_eq_zero_iff, reservedField_eq_zero_iff, toNat_opField, and_assoc]

/-- The legal command words: one for each command, and HDR_BUILD's with each value of its two flags (R62, R75). -/
def legalWords : List Word := [0x001, 0x002, 0x003, 0x004, 0x104, 0x204, 0x304, 0x005, 0x006]

theorem mem_legalWords_of_legalWord {w : Word} (h : legalWord w = true) : w ∈ legalWords := by
  have hcases : w.toNat = 1 ∨ w.toNat = 2 ∨ w.toNat = 3 ∨ w.toNat = 4 ∨ w.toNat = 0x104 ∨ w.toNat = 0x204 ∨
      w.toNat = 0x304 ∨ w.toNat = 5 ∨ w.toNat = 6 := by
    have hlegal := legalWord_iff.1 h
    omega
  simpa [legalWords, ← BitVec.toNat_inj] using hcases

theorem decodeCommand_of_illegal {w : Word} (h : legalWord w = false) : decodeCommand w = .illegal w := by
  rw [decodeCommand, h]
  rfl

/-- Encoding gives a command word back, legal or not (R63, R109). -/
theorem encode_decodeCommand (w : Word) : encode (decodeCommand w) = .command w := by
  cases h : legalWord w with
  | false => rw [decodeCommand_of_illegal h, encode]
  | true =>
    have hmem := mem_legalWords_of_legalWord h
    simp only [legalWords, List.mem_cons, List.not_mem_nil, or_false] at hmem
    rcases hmem with rfl | rfl | rfl | rfl | rfl | rfl | rfl | rfl | rfl <;> rfl

/-! ### Control bytes (R65 to R67) -/

theorem toNat_controlCount (c : Byte) : (controlCount c).toNat = c.toNat % 128 := by
  rw [controlCount, BitVec.extractLsb'_toNat, Nat.shiftRight_zero]

theorem controlKind_of_lt {c : Byte} (h : c.toNat < 128) : controlKind c = .raw := by
  have hbit : c.getLsbD 7 = false := by
    rw [Machine.getLsbD_eq_decide]
    simp
    omega
  rw [controlKind, hbit]
  rfl

theorem controlKind_of_ge {c : Byte} (h : 128 ≤ c.toNat) : controlKind c = .run := by
  have hc := c.isLt
  have hbit : c.getLsbD 7 = true := by
    rw [Machine.getLsbD_eq_decide]
    simp
    omega
  rw [controlKind, hbit]
  rfl

theorem decodeControl_of_lt {c : Byte} (h : c.toNat < 128) : decodeControl c = .rawPacket (controlCount c) := by
  rw [decodeControl, controlKind_of_lt h]

theorem decodeControl_of_ge {c : Byte} (h : 128 ≤ c.toNat) : decodeControl c = .runPacket (controlCount c) := by
  rw [decodeControl, controlKind_of_ge h]

/-- The number of a control byte, from its kind bit and its count (R65). -/
theorem toNat_controlByte (k : BitVec 1) (n : BitVec 7) : (k ++ n : Byte).toNat = k.toNat * 128 + n.toNat :=
  Machine.toNat_append_eq k n

/-- The count stands below the kind bit (R65). -/
theorem controlCount_append (k : BitVec 1) (n : BitVec 7) : controlCount (k ++ n) = n := by
  have hn := n.isLt
  apply BitVec.eq_of_toNat_eq
  rw [toNat_controlCount, toNat_controlByte]
  omega

theorem decodeControl_raw (n : BitVec 7) : decodeControl (0#1 ++ n) = .rawPacket n := by
  have hlt : (0#1 ++ n : Byte).toNat < 128 := by
    rw [toNat_controlByte]
    simp [n.isLt]
  rw [decodeControl_of_lt hlt, controlCount_append]

theorem decodeControl_run (n : BitVec 7) : decodeControl (1#1 ++ n) = .runPacket n := by
  have hge : 128 ≤ (1#1 ++ n : Byte).toNat := by
    rw [toNat_controlByte]
    simp
  rw [decodeControl_of_ge hge, controlCount_append]

/-- A kind bit that is the byte's top bit, with the byte's count, makes up the byte (R65). -/
theorem append_controlCount {k : BitVec 1} {c : Byte} (h : c.toNat / 128 = k.toNat) : k ++ controlCount c = c := by
  apply BitVec.eq_of_toNat_eq
  rw [toNat_controlByte, toNat_controlCount]
  omega

/-- Encoding gives a control byte back (R65, R70). -/
theorem encode_decodeControl (c : Byte) : encode (decodeControl c) = .control c := by
  have hc := c.isLt
  by_cases h : c.toNat < 128
  · have hbit : c.toNat / 128 = (0#1).toNat := Nat.div_eq_of_lt h
    rw [decodeControl_of_lt h, encode, append_controlCount hbit]
  · have hbit : c.toNat / 128 = (1#1).toNat := by
      rw [BitVec.toNat_ofNat]
      omega
    rw [decodeControl_of_ge (Nat.le_of_not_lt h), encode, append_controlCount hbit]

theorem wf_decodeControl (c : Byte) : (decodeControl c).wf = true := by
  unfold decodeControl
  cases controlKind c <;> rfl

/-! ### The obligations -/

/-- Settles O1: the commands by their words, ILLEGAL by the word it keeps, the packets by kind bit and count. -/
theorem decodeOfEncode : Obligations.DecodeOfEncode := by
  intro i hwf
  cases i with
  | hdrParse => rfl
  | hdrSerialize => rfl
  | hdrCheck => rfl
  | hdrBuild rle vflip => cases rle <;> cases vflip <;> rfl
  | rleDecode => rfl
  | rleEncode => rfl
  | illegal w => exact decodeCommand_of_illegal (by simpa [Instr.wf] using hwf)
  | rawPacket n => exact decodeControl_raw n
  | runPacket n => exact decodeControl_run n

/-- Settles O2: a command word by the nine legal ones and the rest, a control byte by its kind bit. -/
theorem encodeOfDecode : Obligations.EncodeOfDecode := by
  intro e
  cases e with
  | command w =>
    obtain ⟨-, hwf, -⟩ := decodeCommand_spec w
    exact ⟨encode_decodeCommand w, hwf⟩
  | control c => exact ⟨encode_decodeControl c, wf_decodeControl c⟩

/-- Settles O3: R63's conditions are `legalWord`, no legal word decodes to ILLEGAL, and the opcode is the OP byte. -/
theorem legalCommandWords : Obligations.LegalCommandWords := by
  intro w legal
  have hlegal : legalWord w = true ↔ legal := legalWord_iff
  refine ⟨fun h => ⟨fun v hv => ?_, ?_⟩, fun h => ?_⟩
  · -- an ILLEGAL that is decoded would carry an illegal word, and encodes as `w` itself
    obtain ⟨-, hwf, -⟩ := decodeCommand_spec w
    have hw := encode_decodeCommand w
    rw [hv] at hwf hw
    obtain rfl : v = w := Encoded.command.inj hw
    simp [Instr.wf, hlegal.2 h] at hwf
  · obtain ⟨-, -, hop⟩ := decodeCommand_spec w
    rw [hop, opField_eq_ofNat]
  · exact decodeCommand_of_illegal (Bool.eq_false_iff.2 fun hw => h (hlegal.1 hw))

/-- Settles O4: each word and byte is decoded. -/
theorem sampleWordsDecode : Obligations.SampleWordsDecode := by
  unfold Obligations.SampleWordsDecode
  decide

/-- Settles O5: the kind bit says which side of 128 the byte is on, and the count is the rest of it. -/
theorem controlByteCountAndLength : Obligations.ControlByteCountAndLength := by
  intro c C
  have hc := c.isLt
  have hcount : pixelCount (controlCount c) = c.toNat % 128 + 1 := by rw [pixelCount, toNat_controlCount]
  refine ⟨fun h => ?_, fun h => ?_, hcount⟩
  · have hraw : pixelCount (controlCount c) = c.toNat + 1 := by omega
    refine ⟨_, decodeControl_of_lt h, hraw, ?_⟩
    rw [packetLength, controlKind_of_lt h, payloadLength, hraw]
  · refine ⟨_, decodeControl_of_ge h, by omega, ?_⟩
    rw [packetLength, controlKind_of_ge h, payloadLength]

end Sys2Proof
end

section
/-! SUPPORT. The turns of the host script, line by line (spec/30_encoding.md R74, R75): what a line's one host access
leaves of the block and gives the script. -/

namespace Sys2Proof.Machine

variable {s : State} {a : HostAction}

/-! ### A line's host access -/

@[simp] theorem receive_script (h : HostState) (r : HostResult) (first : Bool) :
    (h.receive r first).script = h.script := by cases r <;> rfl

@[simp] theorem receive_pc (h : HostState) (r : HostResult) (first : Bool) : (h.receive r first).pc = h.pc := by
  cases r <;> rfl

@[simp] theorem receive_sub (h : HostState) (r : HostResult) (first : Bool) : (h.receive r first).sub = h.sub := by
  cases r <;> rfl

@[simp] theorem advance_script (h : HostState) : h.advance.script = h.script := rfl

theorem hostAccess_host (a : HostAction) (s : State) : (hostAccess a s).2.host = s.host := by
  obtain ⟨-, -, -, -, -, hhost⟩ := hostAccess_keeps a s
  exact hhost

/-- The block's part of the state after a host access does not depend on the script's own state. -/
theorem hostAccess_restore_host (a : HostAction) (s : State) (x : HostState) :
    { { (hostAccess a s).2 with host := x } with host := s.host } = (hostAccess a s).2 := by
  rw [← hostAccess_host a s]

/-- What a turn on a line of one host access is (R74). -/
theorem runAction_spec (a : HostAction) (s : State) :
    ∃ t, runAction a s = .next t ∧ { t with host := s.host } = (hostAccess a s).2 ∧
      t.host = (s.host.receive (hostAccess a s).1 true).advance :=
  ⟨_, rfl, hostAccess_restore_host .., rfl⟩

/-- What a turn on a line of `n` byte accesses is (R74). -/
theorem runByte_spec (a : HostAction) (n : Nat) (s : State) :
    ∃ t, runByte a n s = .next t ∧ { t with host := s.host } = (hostAccess a s).2 ∧
      t.host =
        let h := s.host.receive (hostAccess a s).1 (s.host.sub == 0)
        if s.host.sub + 1 < n then { h with sub := s.host.sub + 1 } else h.advance := by
  refine ⟨_, rfl, hostAccess_restore_host .., ?_⟩
  simp only [receive_sub]

/-- An access that is a hazard gives the line nothing (log entry 7). -/
theorem runAction_of_hazard {z : Hazard} (hz : hazardOf a s = some z) :
    runAction a s = .next { setFault z s with host := s.host.advance } := by
  have hacc : hostAccess a s = (.nothing, setFault z s) := by rw [hostAccess, hz]
  rw [runAction, hacc, HostState.receive]

/-! ### What the accesses give -/

/-- STATUS can be read whatever BUSY is (R132). -/
theorem hostAccess_readStatus (s : State) :
    hostAccess (.regRead 32 (Reg.offset .status)) s = (.word (readReg .status s), s) := by
  cases hb : s.busy with
  | false => exact hostAccess_readReg hb .status
  | true =>
    have hz : hazardOf (.regRead 32 (Reg.offset .status)) s = none := by rw [hazardOf, hb]; rfl
    rw [hostAccess, hz]
    rfl

/-- While BUSY = 1 a read of any other register, and any register write, is a hazard (R132). -/
theorem hazardOf_registerLine (hb : s.busy = true) :
    (∀ r : Reg, r ≠ .status → ∃ z, hazardOf (.regRead 32 r.offset) s = some z) ∧
      ∀ (r : Reg) v, ∃ z, hazardOf (.regWrite 32 r.offset v) s = some z := by
  refine ⟨fun r hr => hazardOf_of_busy (z := .busyRegRead) hb ?_, fun r v => hazardOf_of_busy hb rfl⟩
  have hoff : r.offset ≠ Reg.offset .status := by
    intro h
    have hat := r.at_offset
    rw [h, Reg.at_offset, Option.some.injEq] at hat
    exact hr hat.symm
  exact if_neg hoff

theorem hostAccess_of_hazard_result {z : Hazard} (hz : hazardOf a s = some z) : (hostAccess a s).1 = .nothing := by
  rw [hostAccess, hz]

/-- An access with no answer gives none, a hazard or not. -/
theorem hostAccess_no_result (h : (access a s).1 = .nothing) : (hostAccess a s).1 = .nothing := by
  rcases hostAccess_cases a s with ⟨z, -, e⟩ | ⟨-, e⟩ <;> rw [e]
  exact h

theorem hostAccess_take_result (k : Nat) (s : State) :
    (hostAccess (.take k) s).1 = if s.busy then .nothing else .bytes (s.remaining.take k) := by
  cases hb : s.busy with
  | false => rw [hostAccess_of_idle hb rfl]; rfl
  | true =>
    obtain ⟨z, hz⟩ := hazardOf_of_busy (a := .take k) hb rfl
    exact hostAccess_of_hazard_result hz

theorem hostAccess_bufRead_result (x : Nat) (s : State) :
    (hostAccess (.bufRead x) s).1 =
      if s.busy = true ∨ s.params.pbufBytes ≤ x then .nothing else .bytes [s.pbuf.read x] := by
  split
  case isTrue hpre =>
    obtain ⟨z, hz⟩ := hazardOf_buffer (v := 0) (.inl rfl) hpre
    exact hostAccess_of_hazard_result hz
  case isFalse hpre =>
    simp only [not_or, Bool.not_eq_true, Nat.not_le] at hpre
    obtain ⟨hb, hx⟩ := hpre
    have hz : accessHazard (.bufRead x) s = none := if_pos hx
    rw [hostAccess_of_idle hb hz]
    rfl

/-! ### The lines -/

theorem hostStep_of_line {line : ScriptLine} (h : s.host.script[s.host.pc]? = some line) :
    hostStep s = runLine line s := by rw [hostStep, h]

theorem hostStep_of_end (h : s.host.script[s.host.pc]? = none) : hostStep s = .next s := by rw [hostStep, h]

/-- A taken `BNZ` and a `JMP` are the same jump (R74). -/
theorem runLine_jump {line : ScriptLine} {m : Word} {l : Nat}
    (h : (line = .bnz m l ∧ s.host.last &&& m ≠ 0) ∨ line = .jmp l) : runLine line s = jumpTo l s := by
  rcases h with ⟨rfl, hm⟩ | rfl
  · exact if_pos hm
  · rfl

theorem runLine_bnz_not_taken {m : Word} (l : Nat) (h : s.host.last &&& m = 0) :
    runLine (.bnz m l) s = .next { s with host := s.host.advance } :=
  if_neg (not_not.2 h)

theorem jumpTo_of_label {l k : Nat} (h : findLabel s.host.script l = some k) :
    jumpTo l s = .next { s with host := { s.host with pc := k, sub := 0 } } := by rw [jumpTo, h]

theorem jumpTo_of_no_label {l : Nat} (h : findLabel s.host.script l = none) :
    jumpTo l s = .fault (.undefinedLabel l) := by rw [jumpTo, h]

/-- Settles O45: one line of a script after the other, each by its one host access or its one jump. -/
theorem scriptTurns : Obligations.ScriptTurns := by
  refine ⟨fun s hend => hostStep_of_end hend, ?_⟩
  intro s line hline onward
  rw [hostStep_of_line hline]
  refine ⟨?rd, ?wr, ?busy, ?access, ?label, ?bnz, ?jump, ?halt⟩
  case rd =>
    rintro r rfl hread
    have hacc : hostAccess (.regRead 32 r.offset) s = (.word (readReg r s), s) := by
      rcases hread with hb | rfl
      · exact hostAccess_readReg hb r
      · exact hostAccess_readStatus s
    rw [runLine, runAction, hacc]
    rfl
  case wr =>
    rintro r v rfl hb
    rw [runLine, runAction, hostAccess_writeReg hb]
    rfl
  case busy =>
    intro hb hkind
    obtain ⟨hrd, hwr⟩ := hazardOf_registerLine hb
    have hrun : ∃ z, runLine line s = .next { setFault z s with host := s.host.advance } := by
      rcases hkind with ⟨r, hr, rfl⟩ | ⟨r, v, rfl⟩
      · obtain ⟨z, hz⟩ := hrd r hr
        exact ⟨z, runAction_of_hazard hz⟩
      · obtain ⟨z, hz⟩ := hwr r v
        exact ⟨z, runAction_of_hazard hz⟩
    obtain ⟨z, hz⟩ := hrun
    exact ⟨_, hz, by simp, rfl, rfl⟩
  case access =>
    rintro a rfl
    obtain ⟨t, ht, hblock, hhost⟩ := runAction_spec a s
    refine ⟨t, ht, hblock, ?_⟩
    rw [hhost]
    exact ⟨receive_script .., congrArg (· + 1) (receive_pc ..), rfl⟩
  case label =>
    rintro l rfl
    rfl
  case bnz =>
    rintro m l rfl hm
    exact runLine_bnz_not_taken l hm
  case jump =>
    intro m l htaken
    rw [runLine_jump htaken]
    exact ⟨fun k hk => jumpTo_of_label hk, jumpTo_of_no_label⟩
  case halt =>
    rintro rfl
    rfl

/-- Settles O46: the block's state by the one host access, the script's by what that access gave. -/
theorem scriptTransfers : Obligations.ScriptTransfers := by
  intro s line hline onward byteDone
  rw [hostStep_of_line hline]
  refine ⟨?take, ?put, ?pbw, ?pbr⟩
  case take =>
    rintro k rfl
    obtain ⟨t, ht, hblock, hhost⟩ := runAction_spec (.take k) s
    refine ⟨t, ht, hblock, ?_⟩
    rw [hhost, hostAccess_take_result]
    cases s.busy <;> rfl
  case put =>
    rintro bs rfl
    obtain ⟨t, ht, hblock, hhost⟩ := runAction_spec (.put bs) s
    refine ⟨t, ht, hblock, ?_⟩
    rw [hhost, hostAccess_no_result rfl]
    rfl
  case pbw =>
    rintro addr bs rfl
    refine ⟨fun b hb => ?_, fun hdone => ?_⟩
    · obtain ⟨t, ht, hblock, hhost⟩ := runByte_spec (.bufWrite (addr + s.host.sub) b) bs.length s
      refine ⟨t, ?_, hblock, ?_⟩
      · rw [runLine, hb]
        exact ht
      · rw [hhost, hostAccess_no_result rfl]
        rfl
    · rw [runLine, List.getElem?_eq_none hdone]
      rfl
  case pbr =>
    rintro addr n rfl
    refine ⟨fun hleft => ?_, fun hdone => if_neg (Nat.not_lt.2 hdone)⟩
    obtain ⟨t, ht, hblock, hhost⟩ := runByte_spec (.bufRead (addr + s.host.sub)) n s
    refine ⟨t, (if_pos hleft).trans ht, hblock, ?_⟩
    rw [hhost, hostAccess_bufRead_result]
    by_cases hpre : s.busy = true ∨ s.params.pbufBytes ≤ addr + s.host.sub
    · simp only [if_pos hpre, byteDone]
      split <;> rfl
    · simp only [if_neg hpre, byteDone, beq_iff_eq, HostState.receive]
      split <;> rfl

end Sys2Proof.Machine
end

section
/-! SUPPORT. When a step stops the machine (spec/30_encoding.md R74; log entry 11): which turns answer a next
state with the same script, and the labels that a well-formed script has. -/

namespace Sys2Proof.Machine

theorem mem_scriptLabels {script : List ScriptLine} {l : Nat} : l ∈ scriptLabels script ↔ .label l ∈ script := by
  simp only [scriptLabels, List.mem_filterMap]
  constructor
  · rintro ⟨line, hmem, hlabel⟩
    cases line <;> cases hlabel
    exact hmem
  · exact fun hmem => ⟨_, hmem, rfl⟩

/-- A label that a line of the script bears is found (R74). -/
theorem findLabel_ne_none {script : List ScriptLine} {l : Nat} (h : l ∈ scriptLabels script) :
    findLabel script l ≠ none := by
  intro hnone
  have hno := List.findIdx?_eq_none_iff.1 hnone _ (mem_scriptLabels.1 h)
  simp at hno

/-- In a well-formed script every line's jump finds its label. -/
theorem findLabel_of_scriptWf {script : List ScriptLine} (hwf : scriptWf script = true) {line : ScriptLine}
    (hline : line ∈ script) {l : Nat} (hl : l ∈ line.targets) : findLabel script l ≠ none := by
  simp only [scriptWf, Bool.and_eq_true, List.all_eq_true, List.contains_iff_mem] at hwf
  exact findLabel_ne_none (hwf.2 line hline l hl)

/-- A turn answers a next state with the same script. -/
def TurnAnswers (r : Result) (script : List ScriptLine) : Prop := ∃ t, r = .next t ∧ t.host.script = script

/-- What a jump can do: answer, or stop at a label that no line bears (log entry 11). -/
theorem jumpTo_answers_or_stops (l : Nat) (s : State) :
    TurnAnswers (jumpTo l s) s.host.script ∨
      (findLabel s.host.script l = none ∧ jumpTo l s = .fault (.undefinedLabel l)) :=
  (jumpTo_cases l s).imp_left fun ⟨_, _, e⟩ => ⟨_, e, rfl⟩

theorem runAction_answers (a : HostAction) (s : State) : TurnAnswers (runAction a s) s.host.script :=
  ⟨_, rfl, by simp⟩

theorem runByte_answers (a : HostAction) (n : Nat) (s : State) : TurnAnswers (runByte a n s) s.host.script := by
  refine ⟨_, rfl, ?_⟩
  dsimp only
  split <;> simp

theorem skipLine_answers (s : State) : TurnAnswers (skipLine s) s.host.script := ⟨_, rfl, rfl⟩

/-- What a turn on a line can do: answer, or stop at a jump of the line to a label that no line bears. -/
theorem runLine_answers_or_stops (line : ScriptLine) (s : State) :
    TurnAnswers (runLine line s) s.host.script ∨
      ∃ l ∈ line.targets, findLabel s.host.script l = none ∧ runLine line s = .fault (.undefinedLabel l) := by
  cases line with
  | wr r v => exact .inl (runAction_answers _ s)
  | rd r => exact .inl (runAction_answers _ s)
  | take k => exact .inl (runAction_answers _ s)
  | put bs => exact .inl (runAction_answers _ s)
  | access a => exact .inl (runAction_answers _ s)
  | pbw addr bs =>
    rw [runLine]
    split
    · exact .inl (runByte_answers _ _ s)
    · exact .inl (skipLine_answers s)
  | pbr addr n =>
    rw [runLine]
    split
    · exact .inl (runByte_answers _ _ s)
    · exact .inl (skipLine_answers s)
  | bnz m l =>
    rw [runLine]
    split
    · exact (jumpTo_answers_or_stops l s).imp_right fun h => ⟨l, List.mem_singleton_self l, h⟩
    · exact .inl (skipLine_answers s)
  | jmp l => exact (jumpTo_answers_or_stops l s).imp_right fun h => ⟨l, List.mem_singleton_self l, h⟩
  | halt => exact .inl ⟨s, rfl, rfl⟩
  | label l => exact .inl (skipLine_answers s)

/-- A line of the script jumps to label `l`, which no line of it bears. -/
def MissingLabel (l : Nat) (s : State) : Prop :=
  (∃ line ∈ s.host.script, l ∈ line.targets) ∧ findLabel s.host.script l = none

theorem hostStep_answers_or_stops (s : State) :
    TurnAnswers (hostStep s) s.host.script ∨ ∃ l, MissingLabel l s ∧ hostStep s = .fault (.undefinedLabel l) := by
  cases hline : s.host.script[s.host.pc]? with
  | none => exact .inl ⟨s, hostStep_of_end hline, rfl⟩
  | some line =>
    rw [hostStep_of_line hline]
    refine (runLine_answers_or_stops line s).imp_right ?_
    rintro ⟨l, hl, hnone, hstop⟩
    exact ⟨l, ⟨⟨line, List.mem_of_getElem? hline, hl⟩, hnone⟩, hstop⟩

theorem exec_answers (i : Instr) (s : State) : TurnAnswers (exec i s) s.host.script := by
  obtain ⟨t, ht⟩ := exec_next i s
  obtain ⟨-, -, hhost, -⟩ := (exec_keeps ht).surroundings
  exact ⟨t, ht, congrArg HostState.script hhost⟩

theorem engineStep_answers (s : State) : TurnAnswers (engineStep s) s.host.script := by
  unfold engineStep
  split
  · exact ⟨s, rfl, rfl⟩
  all_goals exact exec_answers _ s

theorem otherHostAccess_host (a : HostAction) (s : State) : (otherHostAccess a s).host = s.host := by
  rcases otherHostAccess_cases a s with ⟨-, e⟩ | ⟨-, e⟩ <;> rw [e]
  · rfl
  · exact hostAccess_host a s

theorem resetBlock_host (s : State) : (resetBlock s).host = s.host := by
  show (abandonDecode s).host = s.host
  rcases abandonDecode_cases s with ⟨-, e⟩ | ⟨-, e⟩ <;> rw [e]
  rfl

/-- What a turn can do: answer, or, on the host's turn, stop at a label that no line bears. -/
theorem takeTurn_answers_or_stops (tn : Turn) (s : State) :
    TurnAnswers (takeTurn tn s) s.host.script ∨
      ∃ l, MissingLabel l s ∧ tn = .host ∧ takeTurn tn s = .fault (.undefinedLabel l) := by
  cases tn with
  | engine => exact .inl (engineStep_answers s)
  | host => exact (hostStep_answers_or_stops s).imp_right fun ⟨l, hl, hstop⟩ => ⟨l, hl, rfl, hstop⟩
  | otherHost a => exact .inl ⟨_, rfl, congrArg HostState.script (otherHostAccess_host a s)⟩
  | reset => exact .inl ⟨_, rfl, congrArg HostState.script (resetBlock_host s)⟩

theorem step_answers_or_stops (s : State) :
    TurnAnswers (step s) s.host.script ∨
      ∃ l, MissingLabel l s ∧ nextTurn s = .host ∧ step s = .fault (.undefinedLabel l) :=
  takeTurn_answers_or_stops (nextTurn s) { s with turns := s.turns.tail }

/-- Settles O52: of the four turns the host's alone can stop, at a jump, and a well-formed script has every label. -/
theorem stepStopsOnlyAtMissingLabel : Obligations.StepStopsOnlyAtMissingLabel := by
  refine ⟨fun s => ?_, fun s hwf => ?_⟩
  · rcases step_answers_or_stops s with ⟨t, ht, -⟩ | ⟨l, ⟨-, hnone⟩, hturn, hstop⟩
    · exact .inl ⟨t, ht⟩
    · exact .inr ⟨l, hstop, hturn, hnone⟩
  · rcases step_answers_or_stops s with hanswer | ⟨l, ⟨⟨line, hline, hl⟩, hnone⟩, -, -⟩
    · exact hanswer
    · exact absurd hnone (findLabel_of_scriptWf hwf hline hl)

end Sys2Proof.Machine
end

section
/-! SUPPORT. The words of the opcode table placed for the next step (log entries 13, 18), and the step that runs
them. -/

namespace Sys2Proof.Machine

/-- A command word placed for the next step is the command in progress, and the turn is the engine's (log entry 13). -/
theorem step_withCommand (s : State) (w : Word) :
    step (s.withCommand w) = exec (decodeCommand w) (issue w s) := rfl

/-- The state in which the decoder's packet step finds a placed control byte: its turn is taken (log entry 13). -/
def State.atControlByte (s : State) (c : Byte) : State := { s.withControlByte c with turns := s.turns }

/-- The state in which the packet of a placed control byte runs: the byte is taken and counted (R89). -/
def State.afterControlByte (s : State) (c : Byte) : State :=
  { s.atControlByte c with srcPos := (s.atControlByte c).srcPos + 1, inCount := (s.atControlByte c).inCount + 1 }

/-- RLE_DECODE takes a packet step while pixels are missing (R88). -/
theorem exec_rleDecode_packet {s : State} (hop : s.eng.op = .decoding) (hleft : s.eng.pcur < s.pixels) :
    exec .rleDecode s = decodePacket s := by
  show execRleDecode s = decodePacket s
  rw [execRleDecode, hop]
  exact if_pos hleft

/-- A control byte placed for the next step is the source's next byte, with RLE_DECODE in its packet phase. -/
theorem step_withControlByte (s : State) (c : Byte) :
    step (s.withControlByte c) = exec (decodeControl c) (s.afterControlByte c) := by
  have hrest : (s.atControlByte c).remaining = c :: zeroPayload := List.drop_left
  have hleft : (s.atControlByte c).eng.pcur < (s.atControlByte c).pixels := (by decide : 0 < 128 * 1)
  calc step (s.withControlByte c) = exec .rleDecode (s.atControlByte c) := rfl
    _ = decodePacket (s.atControlByte c) := exec_rleDecode_packet rfl hleft
    _ = exec (decodeControl c) (s.afterControlByte c) := decodePacket_cons hrest

/-- Settles O8: a packet row's byte by the source's next byte, a command row's word by the command in progress. -/
theorem stepRunsFetchWord : Obligations.StepRunsFetchWord := by
  intro s nbits w i hi
  unfold decodeTableWord at hi
  unfold State.withFetchWord
  by_cases h8 : nbits = 8
  · rw [if_pos h8] at hi ⊢
    obtain rfl := Option.some.inj hi
    exact ⟨_, step_withControlByte .., rfl, rfl, rfl, rfl, rfl⟩
  · rw [if_neg h8] at hi ⊢
    obtain ⟨-, hdecode⟩ := Option.ite_none_right_eq_some.1 hi
    obtain rfl := Option.some.inj hdecode
    exact ⟨_, step_withCommand .., rfl, rfl, rfl, rfl, rfl⟩

end Sys2Proof.Machine
end

section
/-! SUPPORT. The header record as bytes and as fields (spec/40_header_codec.md R77 to R79, spec/20_memory.md R45): a
16-bit field is its two bytes, the low one first, and an 18-byte record is its bytes in order. -/

namespace Sys2Proof.Machine

/-! ### 16-bit fields -/

theorem toNat_le16 (b0 b1 : Byte) : (le16 b0 b1).toNat = b0.toNat + 256 * b1.toNat := by
  rw [le16, toNat_append_eq]
  omega

/-- The low and the high byte of a 16-bit field, from its number (R45). -/
theorem le16bytes_eq (v : BitVec 16) :
    le16bytes v = [BitVec.ofNat 8 (v.toNat % 256), BitVec.ofNat 8 (v.toNat / 256)] := by
  have byte : ∀ i n, v.toNat / 2 ^ i % 2 ^ 8 = n % 2 ^ 8 → v.extractLsb' i 8 = BitVec.ofNat 8 n := fun i n h =>
    BitVec.eq_of_toNat_eq (by rw [toNat_extract, h, BitVec.toNat_ofNat])
  rw [le16bytes, byte 0 (v.toNat % 256) (by omega), byte 8 (v.toNat / 256) (by omega)]

theorem le16_le16bytes (v : BitVec 16) : le16 (v.extractLsb' 0 8) (v.extractLsb' 8 8) = v := by
  have hv := v.isLt
  apply BitVec.eq_of_toNat_eq
  rw [toNat_le16, toNat_extract, toNat_extract]
  omega

theorem le16bytes_le16 (b0 b1 : Byte) : le16bytes (le16 b0 b1) = [b0, b1] := by
  have h0 := b0.isLt
  have h1 := b1.isLt
  have hlo : (b0.toNat + 256 * b1.toNat) % 256 = b0.toNat := by omega
  have hhi : (b0.toNat + 256 * b1.toNat) / 256 = b1.toNat := by omega
  simp only [le16bytes_eq, toNat_le16, hlo, hhi, BitVec.ofNat_toNat, BitVec.setWidth_eq]

/-! ### The record -/

@[simp] theorem Header.length_bytes (h : Header) : h.bytes.length = 18 := rfl

/-- A record is its bytes at the offsets in order. -/
theorem map_byteAt_range (r : List Byte) : (List.range r.length).map (byteAt r) = r := by
  apply List.ext_getElem
  · simp
  · intro i _ hi
    simp [byteAt, hi]

theorem Header.fields_bytes (h : Header) : Header.fields h.bytes = h := by
  show Header.mk h.idlen h.cmaptype h.imgtype h.cmap (le16 (h.xorg.extractLsb' 0 8) (h.xorg.extractLsb' 8 8))
    (le16 (h.yorg.extractLsb' 0 8) (h.yorg.extractLsb' 8 8)) (le16 (h.width.extractLsb' 0 8) (h.width.extractLsb' 8 8))
    (le16 (h.height.extractLsb' 0 8) (h.height.extractLsb' 8 8)) h.bpp h.desc = h
  simp only [le16_le16bytes]

theorem Header.bytes_fields {r : List Byte} (hr : r.length = 18) : (Header.fields r).bytes = r :=
  calc (Header.fields r).bytes = (List.range 18).map (byteAt r) := by
        simp only [Header.bytes, Header.fields, le16bytes_le16]
        rfl
    _ = r := by rw [← hr, map_byteAt_range]

/-- Settles O10: each 16-bit field is its two bytes, and a record is its bytes in order. -/
theorem fieldsAndBytesAreInverse : Obligations.FieldsAndBytesAreInverse :=
  ⟨fun h => ⟨h.fields_bytes, h.length_bytes⟩, fun _ => Header.bytes_fields⟩

end Sys2Proof.Machine
end

section
/-! SUPPORT. HDR_PARSE and HDR_SERIALIZE (spec/40_header_codec.md R80, R81): a record taken from the source or
written to the sink, as a whole or cut short. -/

namespace Sys2Proof.Machine

/-- An error raised after steps that left STATUS alone (R112). -/
theorem endsErr_raise {s u : State} (hu : u.status = s.status) (e : ErrorKind) (d : Byte) :
    EndsErr e.code d s (raise e d u) :=
  ⟨by rw [raise_status, hu, Status.raised], rfl⟩

/-- A success after steps that left STATUS alone (R111). -/
theorem endsOk_complete {s u : State} (hu : u.status = s.status) : EndsOk s (complete u) :=
  ⟨by rw [complete_status, hu, Status.completed], rfl⟩

/-! ### HDR_PARSE (R80) -/

variable {s : State}

theorem exec_hdrParse_whole (h : 18 ≤ s.remaining.length) :
    exec .hdrParse s = .next (complete { s with
      srcPos := s.srcPos + 18
      inCount := s.inCount + 18
      hdr := Header.fields (s.remaining.take 18)
      hdrInfo := 0
      eng := s.eng.unstage }) :=
  (execHdrParse_eq s).trans (if_pos h)

theorem exec_hdrParse_short (h : s.remaining.length < 18) :
    exec .hdrParse s =
      .next (raise (sourceError s.params.term .headerError 0x01).1 (sourceError s.params.term .headerError 0x01).2
        (s.tookPayload s.remaining.length)) :=
  (execHdrParse_eq s).trans (if_neg (Nat.not_le.2 h))

/-- Settles O11: by whether the source still holds a whole record. -/
theorem hdrParseEffect : Obligations.HdrParseEffect := by
  refine ⟨by decide, fun s => ?_⟩
  rcases Nat.lt_or_ge s.remaining.length 18 with hshort | hwhole
  · refine ⟨_, exec_hdrParse_short hshort, ⟨rfl, rfl, rfl⟩, rfl, ⟨rfl, rfl⟩, ⟨rfl, rfl⟩, ⟨rfl, rfl, rfl, rfl⟩, rfl,
      fun h => absurd h (Nat.not_le.2 hshort), fun _ => ⟨⟨rfl, rfl⟩, rfl, rfl, fun hterm => ?_, fun hterm => ?_⟩⟩
    · rw [hterm]
      exact endsErr_raise (by rfl) .headerError 0x01
    · rw [hterm]
      exact endsErr_raise (by rfl) .sourceUnavailable 0x00
  · refine ⟨_, exec_hdrParse_whole hwhole, ⟨rfl, rfl, rfl⟩, rfl, ⟨rfl, rfl⟩, ⟨rfl, rfl⟩, ⟨rfl, rfl, rfl, rfl⟩, rfl,
      fun _ => ?_, fun h => absurd hwhole (Nat.not_le.2 h)⟩
    exact ⟨endsOk_complete (by rfl), rfl, rfl, rfl, rfl, rfl, rfl, rfl, toNat_le16 .., toNat_le16 .., toNat_le16 ..,
      toNat_le16 .., rfl, rfl⟩

/-! ### HDR_SERIALIZE (R81) -/

/-- The sink has room for `k > 0` bytes exactly when its limit, if it has one, is `k` bytes away (R43). -/
theorem State.sinkRoom_eq_self_iff {k : Nat} (hk : 0 < k) :
    s.sinkRoom k = k ↔ ∀ limit, s.params.sinkLimit = some limit → s.sinkOut.length + k ≤ limit := by
  unfold State.sinkRoom
  cases s.params.sinkLimit with
  | none => simp
  | some limit =>
    simp only [Option.some.injEq, forall_eq']
    omega

theorem exec_hdrSerialize_room (h : s.sinkRoom 18 = 18) :
    exec .hdrSerialize s = .next (complete (s.accepted s.hdr.bytes)) :=
  (execHdrSerialize_eq s).trans (if_pos h)

theorem exec_hdrSerialize_full (h : s.sinkRoom 18 ≠ 18) :
    exec .hdrSerialize s = .next (raise .sinkUnavailable 0x00 (s.accepted (s.hdr.bytes.take (s.sinkRoom 18)))) :=
  (execHdrSerialize_eq s).trans (if_neg h)

/-- Settles O12: by whether the sink has room for the whole record. -/
theorem hdrSerializeEffect : Obligations.HdrSerializeEffect := by
  refine ⟨by decide, fun s => ?_⟩
  have hiff := s.sinkRoom_eq_self_iff (k := 18) (by decide)
  by_cases hroom : s.sinkRoom 18 = 18
  · refine ⟨_, exec_hdrSerialize_room hroom, ⟨rfl, rfl, rfl⟩, ⟨rfl, rfl⟩, rfl, ⟨rfl, rfl⟩, ⟨rfl, rfl⟩,
      ⟨rfl, rfl, rfl, rfl⟩, rfl, fun _ => ⟨endsOk_complete (by rfl), ?_, rfl⟩, fun limit hlimit hfull => ?_⟩
    · simp only [complete_sinkOut, State.accepted, Header.bytes, le16bytes_eq]
      rfl
    · exact absurd (hiff.1 hroom limit hlimit) (Nat.not_le.2 hfull)
  · refine ⟨_, exec_hdrSerialize_full hroom, ⟨rfl, rfl, rfl⟩, ⟨rfl, rfl⟩, rfl, ⟨rfl, rfl⟩, ⟨rfl, rfl⟩,
      ⟨rfl, rfl, rfl, rfl⟩, rfl, fun hall => absurd (hiff.2 hall) hroom, fun limit hlimit hfull => ?_⟩
    have hk : s.sinkRoom 18 = limit - s.sinkOut.length := by
      rw [State.sinkRoom, hlimit]
      exact Nat.min_eq_right (by omega)
    refine ⟨endsErr_raise (by rfl) .sinkUnavailable 0x00, ?_, ?_⟩
    · simp only [raise_sinkOut, State.accepted, hk, Header.bytes, le16bytes_eq]
      rfl
    · rw [raise_outCount, State.accepted, List.length_take_of_le (s.sinkRoom_le 18), hk]

end Sys2Proof.Machine
end

section
/-! SUPPORT. HDR_CHECK and HDR_BUILD (spec/40_header_codec.md R82, R83, R86, R87): the checks and their DETAIL as a
sum, the HDRINFO each of the two writes, and the two against each other. -/

namespace Sys2Proof.Machine

variable {s : State}

/-! ### HDR_CHECK (R82, R83) -/

/-- The checks of HDR_CHECK that raise HEADER_ERROR (R82). -/
def Header.SizesLegal (h : Header) : Prop := h.width ≠ 0 ∧ h.height ≠ 0 ∧ (h.bpp = 8 ∨ h.bpp = 24 ∨ h.bpp = 32)

/-- The check of HDR_CHECK that raises UNSUPPORTED_TYPE_CODE (R82). -/
def Header.TypeLegal (h : Header) : Prop := h.imgtype = 2 ∨ h.imgtype = 3 ∨ h.imgtype = 10 ∨ h.imgtype = 11

theorem legalBpp_iff {b : Byte} : legalBpp b = true ↔ b = 8 ∨ b = 24 ∨ b = 32 := by
  simp [legalBpp, or_assoc]

theorem legalType_iff {t : Byte} : legalType t = true ↔ t = 2 ∨ t = 3 ∨ t = 10 ∨ t = 11 := by
  simp [legalType, or_assoc]

theorem rleType_iff {t : Byte} : rleType t = true ↔ t = 10 ∨ t = 11 := by
  simp [rleType]

/-- The DETAIL of HDR_CHECK, as a sum (R82). -/
theorem headerDetail_eq_ofNat (h : Header) :
    headerDetail h =
      BitVec.ofNat 8 ((if h.width = 0 then 2 else 0) + (if h.height = 0 then 4 else 0) +
        (if h.bpp = 8 ∨ h.bpp = 24 ∨ h.bpp = 32 then 0 else 8) +
        (if h.imgtype = 2 ∨ h.imgtype = 3 ∨ h.imgtype = 10 ∨ h.imgtype = 11 then 0 else 16)) := by
  simp only [headerDetail, legalBpp_iff, legalType_iff]
  split <;> split <;> split <;> split <;> decide

theorem headerDetail_sizes_eq_zero {h : Header} : headerDetail h &&& 0x0E = 0 ↔ h.SizesLegal := by
  simp only [headerDetail, Header.SizesLegal, legalBpp_iff]
  split <;> split <;> split <;> split <;> simp_all

theorem headerDetail_type_eq_zero {h : Header} : headerDetail h &&& 0x10 = 0 ↔ h.TypeLegal := by
  simp only [headerDetail, Header.TypeLegal, legalType_iff]
  split <;> split <;> split <;> split <;> simp_all

/-- A header whose type code alone is illegal has that bit alone in its DETAIL (R82). -/
theorem headerDetail_of_type_illegal {h : Header} (hsizes : h.SizesLegal) (htype : ¬ h.TypeLegal) :
    headerDetail h = 0x10 := by
  obtain ⟨hW, hH, hbpp⟩ := hsizes
  rw [Header.TypeLegal] at htype
  rw [headerDetail_eq_ofNat, if_neg hW, if_neg hH, if_pos hbpp, if_neg htype]
  rfl

theorem exec_hdrCheck_sizes_illegal (h : ¬ s.hdr.SizesLegal) :
    exec .hdrCheck s = .next (raise .headerError (headerDetail s.hdr) { s with hdrInfo := 0 }) :=
  if_pos (mt headerDetail_sizes_eq_zero.1 h)

theorem exec_hdrCheck_type_illegal (hsizes : s.hdr.SizesLegal) (htype : ¬ s.hdr.TypeLegal) :
    exec .hdrCheck s = .next (raise .unsupportedTypeCode (headerDetail s.hdr) { s with hdrInfo := 0 }) :=
  (if_neg (not_not.2 (headerDetail_sizes_eq_zero.2 hsizes))).trans
    (if_pos (mt headerDetail_type_eq_zero.1 htype))

theorem exec_hdrCheck_legal (hsizes : s.hdr.SizesLegal) (htype : s.hdr.TypeLegal) :
    exec .hdrCheck s = .next (complete (commitCheck s)) :=
  (if_neg (not_not.2 (headerDetail_sizes_eq_zero.2 hsizes))).trans
    (if_neg (not_not.2 (headerDetail_type_eq_zero.2 htype)))

/-- A legal pixel depth is a channel count in bits (R16, R82). -/
theorem channels_of_legalBpp {b : Byte} (h : b = 8 ∨ b = 24 ∨ b = 32) :
    b.toNat / 8 = 1 ∨ b.toNat / 8 = 3 ∨ b.toNat / 8 = 4 := by
  rcases h with rfl | rfl | rfl <;> decide

theorem toNat_channelField {C : Nat} (h : C = 1 ∨ C = 3 ∨ C = 4) : (BitVec.ofNat 3 C).toNat = C := by
  rcases h with rfl | rfl | rfl <;> rfl

/-- What the HDRINFO of a checked header says (R83). -/
theorem HdrInfo.fields_checked {h : Header} (hbpp : h.bpp = 8 ∨ h.bpp = 24 ∨ h.bpp = 32) :
    HdrInfo.valid (HdrInfo.checked h) = true ∧ HdrInfo.rle (HdrInfo.checked h) = rleType h.imgtype ∧
      HdrInfo.vflipNeeded (HdrInfo.checked h) = !h.desc.getLsbD 5 ∧
      HdrInfo.hflipNeeded (HdrInfo.checked h) = h.desc.getLsbD 4 ∧
      (HdrInfo.channels (HdrInfo.checked h)).toNat = h.bpp.toNat / 8 := by
  have hC := channels_of_legalBpp hbpp
  unfold HdrInfo.checked
  generalize rleType h.imgtype = rle, h.desc.getLsbD 5 = bit5, h.desc.getLsbD 4 = bit4, h.bpp.toNat / 8 = C at hC ⊢
  rcases hC with rfl | rfl | rfl <;> revert rle bit5 bit4 <;> decide

/-- Settles O13: by which of the checks fail. -/
theorem hdrCheckEffect : Obligations.HdrCheckEffect := by
  refine ⟨by decide, fun s => ?_⟩
  by_cases hsizes : s.hdr.SizesLegal
  · by_cases htype : s.hdr.TypeLegal
    · have ⟨_, _, hbpp⟩ := hsizes
      obtain ⟨hvalid, hrle, hvflip, hhflip, hch⟩ := HdrInfo.fields_checked hbpp
      refine ⟨_, exec_hdrCheck_legal hsizes htype, rfl, rfl, ⟨rfl, rfl⟩, ⟨rfl, rfl⟩, ⟨rfl, rfl⟩, ⟨rfl, rfl, rfl, rfl⟩,
        rfl, fun _ => ?_, fun h => absurd hsizes h, fun h => absurd htype h.2⟩
      exact ⟨endsOk_complete (by rfl), rfl, rfl, toNat_channelField (channels_of_legalBpp hbpp), hvalid,
        (Bool.eq_iff_iff.1 hrle).trans rleType_iff, hvflip, hhflip, hch⟩
    · refine ⟨_, exec_hdrCheck_type_illegal hsizes htype, rfl, rfl, ⟨rfl, rfl⟩, ⟨rfl, rfl⟩, ⟨rfl, rfl⟩,
        ⟨rfl, rfl, rfl, rfl⟩, rfl, fun h => absurd h.2 htype, fun h => absurd hsizes h,
        fun _ => ⟨?_, rfl, rfl, rfl, rfl⟩⟩
      rw [headerDetail_of_type_illegal hsizes htype]
      exact endsErr_raise (by rfl) .unsupportedTypeCode 0x10
  · refine ⟨_, exec_hdrCheck_sizes_illegal hsizes, rfl, rfl, ⟨rfl, rfl⟩, ⟨rfl, rfl⟩, ⟨rfl, rfl⟩, ⟨rfl, rfl, rfl, rfl⟩,
      rfl, fun h => absurd h.1 hsizes, fun _ => ⟨?_, rfl, rfl, rfl, rfl⟩, fun h => absurd h.1 hsizes⟩
    rw [headerDetail_eq_ofNat]
    exact endsErr_raise (by rfl) .headerError _

/-! ### HDR_BUILD (R86, R87) -/

/-- The configurations from which HDR_BUILD makes a header (R86). -/
def State.BuildLegal (s : State) : Prop :=
  s.cfgWidth ≠ 0 ∧ s.cfgHeight ≠ 0 ∧ (s.channels = 1 ∨ s.channels = 3 ∨ s.channels = 4)

theorem State.width_eq_zero_iff : s.width = 0 ↔ s.cfgWidth = 0 := BitVec.toNat_inj (y := 0)

theorem State.height_eq_zero_iff : s.height = 0 ↔ s.cfgHeight = 0 := BitVec.toNat_inj (y := 0)

theorem State.buildDetail_eq_zero_iff : s.buildDetail = 0 ↔ s.BuildLegal := by
  rw [s.buildDetail_eq, sizeDetail_eq_zero, ne_eq, ne_eq, width_eq_zero_iff, height_eq_zero_iff]
  rfl

/-- The DETAIL of HDR_BUILD, as a sum (R86). -/
theorem State.buildDetail_eq_ofNat (s : State) :
    s.buildDetail =
      BitVec.ofNat 8 ((if s.cfgWidth = 0 then 1 else 0) + (if s.cfgHeight = 0 then 2 else 0) +
        (if s.channels = 1 ∨ s.channels = 3 ∨ s.channels = 4 then 0 else 4)) := by
  simp only [s.buildDetail_eq, sizeDetail_eq_ofNat, width_eq_zero_iff, height_eq_zero_iff]

theorem exec_hdrBuild_legal (rle vflip : Bool) (h : s.BuildLegal) :
    exec (.hdrBuild rle vflip) s = .next (complete { s with
      hdr := Header.built rle vflip s.cfgWidth s.cfgHeight s.channels
      hdrInfo := HdrInfo.built rle vflip s.channels }) :=
  if_neg (not_not.2 (State.buildDetail_eq_zero_iff.2 h))

theorem exec_hdrBuild_illegal (rle vflip : Bool) (h : ¬ s.BuildLegal) :
    exec (.hdrBuild rle vflip) s = .next (raise .badConfig s.buildDetail s) :=
  execHdrBuild_badConfig (mt State.buildDetail_eq_zero_iff.1 h)

theorem toNat_builtType (C : Nat) (rle : Bool) :
    (builtType C rle).toNat = if C = 1 then (if rle then 11 else 3) else (if rle then 10 else 2) := by
  unfold builtType
  split <;> split <;> rfl

theorem toNat_builtBpp {C : Nat} (hC : C = 1 ∨ C = 3 ∨ C = 4) : (BitVec.ofNat 8 (8 * C)).toNat = 8 * C := by
  rcases hC with rfl | rfl | rfl <;> rfl

/-- What the HDRINFO of a built header says (R86): it is the one that HDR_CHECK would write (R87). -/
theorem HdrInfo.fields_built (rle vflip : Bool) {C : Nat} (hC : C = 1 ∨ C = 3 ∨ C = 4) :
    HdrInfo.valid (HdrInfo.built rle vflip C) = true ∧ HdrInfo.rle (HdrInfo.built rle vflip C) = rle ∧
      HdrInfo.vflipNeeded (HdrInfo.built rle vflip C) = vflip ∧
      HdrInfo.hflipNeeded (HdrInfo.built rle vflip C) = false ∧
      (HdrInfo.channels (HdrInfo.built rle vflip C)).toNat = C := by
  obtain ⟨-, hinfo⟩ := built_describes rle vflip (W := 1) (H := 1) (by decide) (by decide) hC
  obtain ⟨hbpp, hdiv⟩ := builtBpp_spec hC
  obtain ⟨hbit5, hbit4⟩ := builtDesc_spec vflip
  obtain ⟨hvalid, hrle, hvflip, hhflip, hch⟩ :=
    HdrInfo.fields_checked (h := Header.built rle vflip 1 1 C) (legalBpp_iff.1 hbpp)
  rw [hinfo]
  refine ⟨hvalid, hrle.trans (builtType_spec C rle).2, hvflip.trans ?_, hhflip.trans hbit4, hch.trans hdiv⟩
  show (!(builtDesc vflip).getLsbD 5) = vflip
  rw [hbit5, Bool.not_not]

/-- Settles O14: by whether the configuration is legal. -/
theorem hdrBuildEffect : Obligations.HdrBuildEffect := by
  refine ⟨by decide, fun rle vflip s => ?_⟩
  by_cases hlegal : s.BuildLegal
  · have ⟨_, _, hC⟩ := hlegal
    obtain ⟨hvalid, hrle, hvflip, hhflip, hch⟩ := HdrInfo.fields_built rle vflip hC
    refine ⟨_, exec_hdrBuild_legal rle vflip hlegal, ⟨rfl, rfl, rfl⟩, rfl, ⟨rfl, rfl⟩, ⟨rfl, rfl⟩, ⟨rfl, rfl⟩,
      ⟨rfl, rfl, rfl, rfl⟩, rfl, fun _ => ?_, fun h => absurd hlegal h⟩
    exact ⟨endsOk_complete (by rfl), rfl, rfl, toNat_builtType .., rfl, rfl, rfl, rfl, rfl,
      toNat_builtBpp hC, rfl, hvalid, hrle, hvflip, hhflip, hch⟩
  · refine ⟨_, exec_hdrBuild_illegal rle vflip hlegal, ⟨rfl, rfl, rfl⟩, rfl, ⟨rfl, rfl⟩, ⟨rfl, rfl⟩, ⟨rfl, rfl⟩,
      ⟨rfl, rfl, rfl, rfl⟩, rfl, fun h => absurd h hlegal, fun _ => ⟨?_, rfl, rfl⟩⟩
    rw [s.buildDetail_eq_ofNat]
    exact endsErr_raise (by rfl) .badConfig _

/-- HDR_BUILD without an error had a legal configuration (R86). -/
theorem buildLegal_of_no_error {rle vflip : Bool} {t : State} (ht : exec (.hdrBuild rle vflip) s = .next t)
    (herr : Status.err t.status = false) : s.BuildLegal := by
  by_contra hlegal
  rw [exec_hdrBuild_illegal rle vflip hlegal] at ht
  cases ht
  simp [Status.raised] at herr

/-- Settles O15: the built header passes every check, and its HDRINFO is the one the check writes. -/
theorem builtHeaderPassesCheck : Obligations.BuiltHeaderPassesCheck := by
  intro rle vflip s t ht herr
  have hlegal := buildLegal_of_no_error ht herr
  rw [exec_hdrBuild_legal rle vflip hlegal] at ht
  cases ht
  obtain ⟨hW, hH, hC⟩ := hlegal
  obtain ⟨hdetail, hinfo⟩ := built_describes rle vflip hW hH hC
  have hch : BitVec.ofNat 3 ((BitVec.ofNat 8 (8 * s.channels)).toNat / 8) = s.cfgChannels := by
    rw [(builtBpp_spec hC).2, State.channels, BitVec.ofNat_toNat, BitVec.setWidth_eq]
  refine ⟨_, exec_hdrCheck_legal (headerDetail_sizes_eq_zero.1 ?_) (headerDetail_type_eq_zero.1 ?_),
    endsOk_complete (by rfl), ⟨rfl, rfl, hch⟩, hinfo.symm, rfl⟩
  all_goals
    show headerDetail (Header.built rle vflip s.cfgWidth s.cfgHeight s.channels) &&& _ = 0
    rw [hdetail]
    rfl

end Sys2Proof.Machine
end

section
/-! SUPPORT. The steps of RLE_DECODE and its packets one by one (spec/41_rle_decode.md R88 to R96): the setup and the
end step, the control byte, and the three ways a packet step goes: overrun, payload cut short, commit. -/

namespace Sys2Proof.Machine

variable {s : State}

/-! ### The setup step and the end step (R88, R95, R100) -/

theorem rleSetup_legal {op : EngOp} (h : s.cfgDetail = 0) :
    rleSetup op s = .next { s with eng := { s.eng with op := op, pcur := 0 } } :=
  if_neg (not_not.2 h)

theorem exec_rleDecode_ready (hop : s.eng.op = .ready .rleDecode) : exec .rleDecode s = rleSetup .decoding s := by
  show execRleDecode s = _
  rw [execRleDecode, hop]

theorem exec_rleEncode_ready (hop : s.eng.op = .ready .rleEncode) : exec .rleEncode s = rleSetup .encoding s := by
  show execRleEncode s = _
  rw [execRleEncode, hop]

theorem exec_rleDecode_end (hop : s.eng.op = .decoding) (hdone : s.pixels ≤ s.eng.pcur) :
    exec .rleDecode s = .next (complete s) := by
  show execRleDecode s = _
  rw [execRleDecode, hop]
  exact if_neg (Nat.not_lt.2 hdone)

theorem exec_rleEncode_end (hop : s.eng.op = .encoding) (hdone : s.pixels ≤ s.eng.pcur) :
    exec .rleEncode s = .next (complete s) := by
  show execRleEncode s = _
  rw [execRleEncode, hop]
  exact if_neg (Nat.not_lt.2 hdone)

/-- Settles O19: the configuration has no detail, so the setup step enters the packet phase. -/
theorem rleSetupStep : Obligations.RleSetupStep := by
  intro s i phase hi hop hW hH hC hfit
  have hlegal : s.cfgDetail = 0 :=
    configDetail_eq_zero.2 ⟨mt State.width_eq_zero_iff.1 hW, mt State.height_eq_zero_iff.1 hH, hC, hfit⟩
  rcases hi with ⟨rfl, rfl⟩ | ⟨rfl, rfl⟩
  · rw [exec_rleDecode_ready hop, rleSetup_legal hlegal]
  · rw [exec_rleEncode_ready hop, rleSetup_legal hlegal]

/-- Settles O20: the step is `complete()` alone. -/
theorem rleEndStep : Obligations.RleEndStep := by
  intro s i hi hdone
  have hcomplete : exec i s = .next (complete s) := by
    rcases hi with ⟨rfl, hop⟩ | ⟨rfl, hop⟩
    · exact exec_rleDecode_end hop hdone
    · exact exec_rleEncode_end hop hdone
  exact ⟨_, hcomplete, endsOk_complete rfl, ⟨rfl, rfl, rfl⟩, ⟨rfl, rfl⟩, rfl, ⟨rfl, rfl⟩, ⟨rfl, rfl⟩, ⟨rfl, rfl⟩,
    ⟨rfl, rfl, rfl, rfl⟩, rfl⟩

/-! ### The control byte (R89) -/

/-- While pixels are missing, RLE_DECODE takes the control byte at `SRC_POS` and runs its packet. -/
theorem exec_rleDecode_control {c : Byte} (hop : s.eng.op = .decoding) (hleft : s.eng.pcur < s.pixels)
    (hsrc : s.params.src[s.srcPos]? = some c) :
    exec .rleDecode s = exec (decodeControl c) { s with srcPos := s.srcPos + 1, inCount := s.inCount + 1 } := by
  rw [exec_rleDecode_packet hop hleft, decodePacket_cons (State.remaining_of_getElem? hsrc)]

/-- An engine step in the decoder's packet phase is a step of RLE_DECODE (R136). -/
theorem engineStep_decoding (hop : s.eng.op = .decoding) : engineStep s = exec .rleDecode s := by
  rw [engineStep, hop]

theorem step_of_engine_turn {ts : List Turn} (h : s.turns = .engine :: ts) :
    step s = engineStep { s with turns := ts } := by
  simp [step, nextTurn, h, takeTurn]

/-- With no turn chosen a busy block lets the engine act (log entry 3). -/
theorem step_of_default_turn (hturns : s.turns = []) (hb : s.busy = true) : step s = engineStep s := by
  have hs : { s with turns := s.turns.tail } = s := by rw [hturns, List.tail_nil, ← hturns]
  rw [step, hs, nextTurn, hturns]
  simp [defaultTurn, hb, takeTurn]

/-- Settles O7: the step is the engine's, and the engine's is RLE_DECODE's. -/
theorem stepRunsPacketAtSource : Obligations.StepRunsPacketAtSource := by
  intro s c ts hop hleft hsrc
  have hexec := exec_rleDecode_control hop hleft hsrc
  refine ⟨fun hturns => ?_, fun hturns hb => ?_, hexec⟩
  · let u : State := { s with turns := ts }
    calc step s = engineStep u := step_of_engine_turn hturns
      _ = exec .rleDecode u := engineStep_decoding hop
      _ = _ := exec_rleDecode_control hop hleft hsrc
  · rw [step_of_default_turn hturns hb, engineStep_decoding hop, hexec]

/-! ### What a packet step does (R89) -/

section
variable {n m : Nat} {expand : List Byte → List Byte}

theorem packetStep_overrun (h : s.pixels < s.eng.pcur + n) :
    packetStep n m expand s = .next (failDecode .overrun 0x00 (s.tookPayload 0)) := by
  rw [packetStep_eq, if_pos h, failDecode_tookPayload_zero]

theorem packetStep_short (hroom : s.eng.pcur + n ≤ s.pixels) (hshort : s.remaining.length < m) :
    packetStep n m expand s = .next (failDecode (sourceError s.params.term .truncatedPayload 0x02).1
      (sourceError s.params.term .truncatedPayload 0x02).2 (s.tookPayload s.remaining.length)) := by
  rw [packetStep_eq, if_neg (Nat.not_lt.2 hroom), if_neg (Nat.not_le.2 hshort)]

theorem packetStep_whole (hroom : s.eng.pcur + n ≤ s.pixels) (hwhole : m ≤ s.remaining.length) :
    packetStep n m expand s = .next (commitPacket n (expand (s.remaining.take m)) (s.tookPayload m)) := by
  rw [packetStep_eq, if_neg (Nat.not_lt.2 hroom), if_pos hwhole]

end

/-! ### A failing packet step (R92, R94, R96) -/

/-- A decode that fails with `k` bytes taken: it ends with its error, counts no pixel and no packet, and leaves PBUF
outside the image, the configuration, HDR, the sink and the launch data alone (R94, R112). -/
theorem failDecode_effect (e : ErrorKind) (d : Byte) (k : Nat) (s : State) :
    let t := failDecode e d (s.tookPayload k)
    EndsErr e.code d s t ∧ SameProgress s t ∧ (∀ a, s.pixels * s.channels ≤ a → t.pbuf.read a = s.pbuf.read a) ∧
      SameConfig s t ∧ SameHeader s t ∧ SameSink s t ∧ SameSurroundings s t :=
  ⟨endsErr_raise (by rfl) e d, ⟨rfl, rfl⟩,
    fun _ ha => drawImage_pbuf_outside (s := { s.tookPayload k with eng := s.eng.unstage }) ha, ⟨rfl, rfl, rfl⟩, ⟨rfl, rfl⟩,
    ⟨rfl, rfl⟩, ⟨rfl, rfl, rfl, rfl⟩⟩

/-- The error of a source that ends where the decoder needs a byte, by its terminal (R89, R96). -/
theorem endsErr_sourceError {t : State} {d : Byte}
    (h : EndsErr (sourceError s.params.term .truncatedPayload d).1.code
      (sourceError s.params.term .truncatedPayload d).2 s t) :
    (s.params.term = .exhausted → EndsErr 5 d s t) ∧ (s.params.term = .failed → EndsErr 1 0x00 s t) := by
  cases hterm : s.params.term with
  | exhausted => rw [hterm] at h; exact ⟨fun _ => h, nofun⟩
  | failed => rw [hterm] at h; exact ⟨nofun, fun _ => h⟩

/-- Both packet kinds are packet steps of `n + 1` pixels; their payload lengths differ (R90, R91). -/
theorem exec_packet_eq_packetStep (s : State) {i : Instr} {n : BitVec 7} {m : Nat}
    (h : (i = .rawPacket n ∧ m = (n.toNat + 1) * s.channels) ∨ (i = .runPacket n ∧ m = s.channels)) :
    ∃ expand, exec i s = packetStep (n.toNat + 1) m expand s := by
  rcases h with ⟨rfl, rfl⟩ | ⟨rfl, rfl⟩
  · exact ⟨id, rfl⟩
  · exact ⟨(repeatBytes · (pixelCount n)), rfl⟩

/-- A packet of either kind with too many pixels fails before it reads its payload (R92). -/
theorem exec_packet_overrun {i : Instr} {n : BitVec 7} (hi : i = .rawPacket n ∨ i = .runPacket n)
    (h : s.pixels < s.eng.pcur + n.toNat + 1) :
    exec i s = .next (failDecode .overrun 0x00 (s.tookPayload 0)) := by
  obtain ⟨m, hm⟩ : ∃ m, (i = .rawPacket n ∧ m = (n.toNat + 1) * s.channels) ∨ (i = .runPacket n ∧ m = s.channels) :=
    hi.elim (fun hraw => ⟨_, .inl ⟨hraw, rfl⟩⟩) fun hrun => ⟨_, .inr ⟨hrun, rfl⟩⟩
  obtain ⟨expand, e⟩ := exec_packet_eq_packetStep s hm
  rw [e, packetStep_overrun h]

theorem decodeControl_packet (c : Byte) :
    decodeControl c = .rawPacket (controlCount c) ∨ decodeControl c = .runPacket (controlCount c) :=
  (Nat.lt_or_ge c.toNat 128).imp decodeControl_of_lt decodeControl_of_ge

/-- Settles O23: the overrun check fails the packet with no payload byte taken, and before it one control byte was. -/
theorem overrunComesFirst : Obligations.OverrunComesFirst := by
  refine ⟨fun s n i hi hover => ?_, fun s c hop hleft hsrc hover => ?_⟩
  · obtain ⟨hends, hprogress, houtside, hframe⟩ := failDecode_effect .overrun 0x00 0 s
    exact ⟨_, exec_packet_overrun hi hover, hends, ⟨rfl, BitVec.add_zero _⟩, hprogress, houtside, hframe⟩
  · let u : State := { s with srcPos := s.srcPos + 1, inCount := s.inCount + 1 }
    have hstep : exec .rleDecode s = .next (failDecode .overrun 0x00 (u.tookPayload 0)) := by
      rw [exec_rleDecode_control hop hleft hsrc]
      exact exec_packet_overrun (decodeControl_packet c) (by rw [toNat_controlCount]; exact hover)
    obtain ⟨hends, hprogress, -⟩ := failDecode_effect .overrun 0x00 0 u
    exact ⟨_, hstep, ⟨hends.status, hends.op⟩, rfl, BitVec.add_zero _, hprogress⟩

/-- Settles O24: the packet step takes the bytes that are left and fails. -/
theorem payloadCutShort : Obligations.PayloadCutShort := by
  intro s n i m hi hroom hshort
  obtain ⟨expand, e⟩ := exec_packet_eq_packetStep s hi
  obtain ⟨hends, hprogress, houtside, hframe⟩ := failDecode_effect (sourceError s.params.term .truncatedPayload 0x02).1
    (sourceError s.params.term .truncatedPayload 0x02).2 s.remaining.length s
  obtain ⟨hexhausted, hfailed⟩ := endsErr_sourceError hends
  exact ⟨_, e.trans (packetStep_short hroom hshort), hexhausted, hfailed, rfl, rfl, hprogress, houtside, hframe⟩

/-- RLE_DECODE fails at a source that is used up, with nothing taken (R96). -/
theorem exec_rleDecode_no_control (hop : s.eng.op = .decoding) (hleft : s.eng.pcur < s.pixels)
    (hnil : s.remaining = []) :
    exec .rleDecode s = .next (failDecode (sourceError s.params.term .truncatedPayload 0x01).1
      (sourceError s.params.term .truncatedPayload 0x01).2 (s.tookPayload 0)) := by
  rw [exec_rleDecode_packet hop hleft, decodePacket_nil hnil, failDecode_tookPayload_zero]

/-- Settles O25: the step fails with no byte taken. -/
theorem noControlByte : Obligations.NoControlByte := by
  intro s hop hleft hnil
  obtain ⟨hends, hprogress, houtside, hframe⟩ := failDecode_effect (sourceError s.params.term .truncatedPayload 0x01).1
    (sourceError s.params.term .truncatedPayload 0x01).2 0 s
  obtain ⟨hexhausted, hfailed⟩ := endsErr_sourceError hends
  exact ⟨_, exec_rleDecode_no_control hop hleft hnil, hexhausted, hfailed, ⟨rfl, BitVec.add_zero _⟩, hprogress, houtside,
    hframe⟩

/-! ### A packet step that commits (R89 to R91) -/

/-- A written byte sequence is read back at its offsets. -/
theorem Memory.read_writeBytes_byteAt {p : Memory} (hp : p.wf) (a : Nat) (bs : List Byte) {j : Nat}
    (hj : j < bs.length) : (p.writeBytes a bs).read (a + j) = byteAt bs j := by
  rw [Memory.read_writeBytes_inside bs p a j hp hj, byteAt, List.getD_eq_getElem]

theorem byteAt_take {bs : List Byte} {m j : Nat} (hj : j < m) : byteAt (bs.take m) j = byteAt bs j := by
  simp [byteAt, List.getElem?_take_of_lt hj]

theorem repeatBytes_succ (bs : List Byte) (n : Nat) : repeatBytes bs (n + 1) = bs ++ repeatBytes bs n := by
  simp [repeatBytes, List.replicate_succ]

/-- A byte of a repeated sequence is the byte of the sequence itself, in each copy (R89). -/
theorem byteAt_repeatBytes {bs : List Byte} {n i j : Nat} (hi : i < n) (hj : j < bs.length) :
    byteAt (repeatBytes bs n) (i * bs.length + j) = byteAt bs j := by
  induction n generalizing i with
  | zero => omega
  | succ n ih =>
    rw [repeatBytes_succ]
    cases i with
    | zero => rw [Nat.zero_mul, Nat.zero_add, byteAt, List.getD_append _ _ _ _ hj, byteAt]
    | succ i =>
      have hoffset : (i + 1) * bs.length + j = bs.length + (i * bs.length + j) := by rw [Nat.succ_mul]; omega
      rw [hoffset, byteAt, List.getD_append_right _ _ _ _ (Nat.le_add_right ..), Nat.add_sub_cancel_left]
      exact ih (by omega)

/-- A packet of `n` pixels commits its bytes to PBUF from `pcur*C` on and leaves every other address alone (R89). -/
theorem commitPacket_pbuf_read {n m : Nat} {bytes : List Byte} (hwf : s.pbuf.wf) (hlen : bytes.length = n * s.channels) :
    let t := commitPacket n bytes (s.tookPayload m)
    (∀ j, j < n * s.channels → t.pbuf.read (s.eng.pcur * s.channels + j) = byteAt bytes j) ∧
      ∀ a, a < s.eng.pcur * s.channels ∨ (s.eng.pcur + n) * s.channels ≤ a → t.pbuf.read a = s.pbuf.read a := by
  refine ⟨fun j hj => Memory.read_writeBytes_byteAt hwf _ _ (hlen ▸ hj), fun a ha => ?_⟩
  refine Memory.read_writeBytes_outside _ _ _ ?_
  show a < s.eng.pcur * s.channels ∨ s.eng.pcur * s.channels + bytes.length ≤ a
  rwa [hlen, ← Nat.add_mul]

/-- Settles O21: the committed bytes are the payload itself. -/
theorem rawPacketEffect : Obligations.RawPacketEffect := by
  intro s n hwf k C hroom hwhole
  have hstep : exec (.rawPacket n) s = _ := packetStep_whole (expand := id) hroom hwhole
  obtain ⟨hinside, houtside⟩ :=
    commitPacket_pbuf_read (m := k * C) (bytes := s.remaining.take (k * C)) hwf (List.length_take_of_le hwhole)
  exact ⟨_, hstep, fun j hj => (hinside j hj).trans (byteAt_take hj), houtside, rfl, rfl, rfl, rfl, rfl, rfl, rfl,
    ⟨rfl, rfl, rfl⟩, ⟨rfl, rfl⟩, ⟨rfl, rfl⟩, ⟨rfl, rfl, rfl, rfl⟩⟩

/-- Settles O22: the committed bytes are `n + 1` copies of the one pixel. -/
theorem runPacketEffect : Obligations.RunPacketEffect := by
  intro s n hwf k C hroom hwhole
  have hstep : exec (.runPacket n) s = _ := packetStep_whole (expand := (repeatBytes · k)) hroom hwhole
  have hpixel : (s.remaining.take C).length = C := List.length_take_of_le hwhole
  obtain ⟨hinside, houtside⟩ := commitPacket_pbuf_read (m := C) (bytes := repeatBytes (s.remaining.take C) k) hwf
    (by rw [length_repeatBytes, hpixel])
  refine ⟨_, hstep, fun i j hi hj => ?_, houtside, rfl, rfl, rfl, rfl, rfl, rfl, rfl, ⟨rfl, rfl, rfl⟩, ⟨rfl, rfl⟩, ⟨rfl, rfl⟩,
    ⟨rfl, rfl, rfl, rfl⟩⟩
  have hin : i * C + j < k * C :=
    calc i * C + j < (i + 1) * C := by rw [Nat.succ_mul]; omega
      _ ≤ k * C := Nat.mul_le_mul_right C hi
  have hcopy : byteAt (repeatBytes (s.remaining.take C) k) (i * C + j) = byteAt (s.remaining.take C) j := by
    have hcopy := byteAt_repeatBytes hi (hpixel.symm ▸ hj : j < (s.remaining.take C).length)
    rwa [hpixel] at hcopy
  rw [Nat.add_mul, Nat.add_assoc]
  exact (hinside _ hin).trans (hcopy.trans (byteAt_take hj))

end Sys2Proof.Machine
end

section
/-! SUPPORT. The function `dec` and its counts (spec/41_rle_decode.md R97, R98): the recursion without its fuel, the
induction along it, and the bounds of a successful decode. -/

namespace Sys2Proof.Machine

/-- The pixel count of the packet that a control byte begins (R66). -/
abbrev controlPixels (c : Byte) : Nat := pixelCount (controlCount c)

/-- The payload length of the packet that a control byte begins (R67). -/
abbrev controlPayload (c : Byte) (C : Nat) : Nat := payloadLength (controlKind c) (controlCount c) C

/-! ### A control byte's packet -/

theorem controlPixels_eq (c : Byte) : controlPixels c = c.toNat % 128 + 1 := by
  rw [controlPixels, pixelCount, toNat_controlCount]

theorem controlPixels_bounds (c : Byte) : 1 ≤ controlPixels c ∧ controlPixels c ≤ 128 := by
  rw [controlPixels_eq]
  omega

theorem controlPayload_eq (c : Byte) (C : Nat) :
    controlPayload c C = if c.toNat < 128 then (c.toNat % 128 + 1) * C else C := by
  rw [← controlPixels_eq]
  split
  case isTrue h => rw [controlPayload, controlKind_of_lt h, payloadLength]
  case isFalse h => rw [controlPayload, controlKind_of_ge (Nat.le_of_not_lt h), payloadLength]

/-- A payload has one pixel's bytes at least and its packet's pixels' bytes at most. -/
theorem controlPayload_bounds (c : Byte) (C : Nat) : C ≤ controlPayload c C ∧ controlPayload c C ≤ controlPixels c * C := by
  have hpixel : C ≤ controlPixels c * C := Nat.le_mul_of_pos_left _ (controlPixels_bounds c).1
  rw [controlPayload]
  cases controlKind c with
  | raw => exact ⟨hpixel, Nat.le_refl _⟩
  | run => exact ⟨Nat.le_refl _, hpixel⟩

/-- The bytes of a packet, from a source that holds its payload (R90, R91). -/
theorem expandPayload_take (c : Byte) (s : List Byte) (C : Nat) :
    expandPayload c (s.take (controlPayload c C)) =
      if c.toNat < 128 then s.take (controlPayload c C)
      else (List.replicate (c.toNat % 128 + 1) (s.take C)).flatten := by
  rw [← controlPixels_eq]
  split
  case isTrue h => rw [expandPayload, controlKind_of_lt h]
  case isFalse h => rw [expandPayload, controlPayload, controlKind_of_ge (Nat.le_of_not_lt h), payloadLength, repeatBytes]

theorem length_expandPayload {c : Byte} {C : Nat} {payload : List Byte} (h : payload.length = controlPayload c C) :
    (expandPayload c payload).length = controlPixels c * C := by
  rw [controlPayload] at h
  unfold expandPayload
  cases hk : controlKind c <;> rw [hk] at h
  case raw => exact h
  case run => rw [length_repeatBytes, h, payloadLength]

/-! ### The recursion of R97 -/

section
variable {t : Terminal} {C : Nat}

/-- One round of the recursion: a control byte with pixels left to decode. -/
theorem decFuel_cons (fuel : Nat) (c : Byte) (s : List Byte) {r : Nat} (hr : 0 < r) :
    decFuel t C (fuel + 1) (c :: s) r =
        (if r < controlPixels c then .err .overrun 0x00
        else if s.length < controlPayload c C then streamEnd t 0x02
        else (decFuel t C fuel (s.drop (controlPayload c C)) (r - controlPixels c)).after
          (expandPayload c (s.take (controlPayload c C))) (1 + controlPayload c C)) ∧
      decCountsFuel C (fuel + 1) (c :: s) r =
        (if r < controlPixels c then ⟨0, 0, 1⟩
        else if s.length < controlPayload c C then ⟨0, 0, 1 + s.length⟩
        else
          let rest := decCountsFuel C fuel (s.drop (controlPayload c C)) (r - controlPixels c)
          ⟨controlPixels c + rest.pixels, 1 + rest.packets, 1 + controlPayload c C + rest.taken⟩) := by
  obtain ⟨r, rfl⟩ := Nat.exists_eq_succ_of_ne_zero hr.ne'
  exact ⟨rfl, rfl⟩

theorem decFuel_zero_pixels (fuel : Nat) (s : List Byte) :
    decFuel t C fuel s 0 = .ok [] 0 ∧ decCountsFuel C fuel s 0 = ⟨0, 0, 0⟩ := by
  cases fuel <;> exact ⟨rfl, rfl⟩

theorem decFuel_nil (fuel : Nat) {r : Nat} (hr : 0 < r) :
    decFuel t C (fuel + 1) [] r = streamEnd t 0x01 ∧ decCountsFuel C (fuel + 1) [] r = ⟨0, 0, 0⟩ := by
  obtain ⟨r, rfl⟩ := Nat.exists_eq_succ_of_ne_zero hr.ne'
  exact ⟨rfl, rfl⟩

/-- Any fuel that is enough for a packet per pixel gives the same result and the same counts. -/
theorem decFuel_eq_decFuel (fuel : Nat) : ∀ {fuel' r : Nat} (s : List Byte), r ≤ fuel → r ≤ fuel' →
    decFuel t C fuel s r = decFuel t C fuel' s r ∧ decCountsFuel C fuel s r = decCountsFuel C fuel' s r := by
  induction fuel with
  | zero =>
    intro fuel' r s h h'
    obtain rfl := Nat.le_zero.1 h
    simp only [decFuel_zero_pixels (t := t), and_self]
  | succ fuel ih =>
    intro fuel' r s h h'
    rcases Nat.eq_zero_or_pos r with rfl | hr
    · simp only [decFuel_zero_pixels (t := t), and_self]
    obtain ⟨fuel', rfl⟩ := Nat.exists_eq_succ_of_ne_zero (Nat.ne_of_gt (Nat.lt_of_lt_of_le hr h'))
    cases s with
    | nil => simp only [decFuel_nil (t := t) (C := C) _ hr, and_self]
    | cons c s =>
      have hpos := (controlPixels_bounds c).1
      obtain ⟨hdec, hcounts⟩ := ih (fuel' := fuel') (r := r - controlPixels c) (s.drop (controlPayload c C)) (by omega)
        (by omega)
      simp only [decFuel_cons (t := t) (C := C) _ _ _ hr, hdec, hcounts, and_self]

theorem dec_zero (s : List Byte) : dec t s 0 C = .ok [] 0 ∧ decCounts s 0 C = ⟨0, 0, 0⟩ := decFuel_zero_pixels 0 s

theorem dec_nil {r : Nat} (hr : 0 < r) : dec t [] r C = streamEnd t 0x01 ∧ decCounts [] r C = ⟨0, 0, 0⟩ := by
  obtain ⟨fuel, rfl⟩ := Nat.exists_eq_succ_of_ne_zero hr.ne'
  exact decFuel_nil fuel hr

/-- `dec` at a control byte (R97). -/
theorem dec_cons (c : Byte) (s : List Byte) {r : Nat} (hr : 0 < r) :
    dec t (c :: s) r C =
        (if r < controlPixels c then .err .overrun 0x00
        else if s.length < controlPayload c C then streamEnd t 0x02
        else (dec t (s.drop (controlPayload c C)) (r - controlPixels c) C).after
          (expandPayload c (s.take (controlPayload c C))) (1 + controlPayload c C)) ∧
      decCounts (c :: s) r C =
        (if r < controlPixels c then ⟨0, 0, 1⟩
        else if s.length < controlPayload c C then ⟨0, 0, 1 + s.length⟩
        else
          let rest := decCounts (s.drop (controlPayload c C)) (r - controlPixels c) C
          ⟨controlPixels c + rest.pixels, 1 + rest.packets, 1 + controlPayload c C + rest.taken⟩) := by
  obtain ⟨fuel, rfl⟩ := Nat.exists_eq_succ_of_ne_zero hr.ne'
  have hpos := (controlPixels_bounds c).1
  obtain ⟨hdec, hcounts⟩ := decFuel_eq_decFuel (t := t) (C := C) fuel (fuel' := fuel + 1 - controlPixels c)
    (s.drop (controlPayload c C)) (by omega) (Nat.le_refl _)
  rw [dec, decCounts, dec, decCounts, ← hdec, ← hcounts]
  exact decFuel_cons fuel c s hr

variable {c : Byte} {s : List Byte} {r : Nat}

theorem dec_overrun (hr : 0 < r) (hover : r < controlPixels c) :
    dec t (c :: s) r C = .err .overrun 0x00 ∧ decCounts (c :: s) r C = ⟨0, 0, 1⟩ := by
  simpa only [if_pos hover] using dec_cons (t := t) (C := C) c s hr

theorem dec_short (hroom : controlPixels c ≤ r) (hshort : s.length < controlPayload c C) :
    dec t (c :: s) r C = streamEnd t 0x02 ∧ decCounts (c :: s) r C = ⟨0, 0, 1 + s.length⟩ := by
  have hr := Nat.lt_of_lt_of_le (controlPixels_bounds c).1 hroom
  simpa only [if_neg (Nat.not_lt.2 hroom), if_pos hshort] using dec_cons (t := t) (C := C) c s hr

theorem dec_whole (hroom : controlPixels c ≤ r) (hwhole : controlPayload c C ≤ s.length) :
    let rest := decCounts (s.drop (controlPayload c C)) (r - controlPixels c) C
    dec t (c :: s) r C = (dec t (s.drop (controlPayload c C)) (r - controlPixels c) C).after
        (expandPayload c (s.take (controlPayload c C))) (1 + controlPayload c C) ∧
      decCounts (c :: s) r C =
        ⟨controlPixels c + rest.pixels, 1 + rest.packets, 1 + controlPayload c C + rest.taken⟩ := by
  have hr := Nat.lt_of_lt_of_le (controlPixels_bounds c).1 hroom
  simpa only [if_neg (Nat.not_lt.2 hroom), if_neg (Nat.not_lt.2 hwhole)] using dec_cons (t := t) (C := C) c s hr

end

theorem streamEnd_eq (t : Terminal) (d : Byte) :
    streamEnd t d = if t = .exhausted then .err .truncatedPayload d else .err .sourceUnavailable 0x00 := by
  cases t <;> rfl

/-- Settles O26: the fuel left over does not matter, and a control byte's count and payload are in its number. -/
theorem decFollowsItsRecursion : Obligations.DecFollowsItsRecursion := by
  intro t C cut
  have hcut : ∀ d, streamEnd t d = cut d := streamEnd_eq t
  refine ⟨dec_zero, fun r hr => hcut 0x01 ▸ dec_nil hr, fun c s r hr => ?_⟩
  intro n m p rest
  have hn : controlPixels c = n := controlPixels_eq c
  have hm : controlPayload c C = m := controlPayload_eq c C
  have hp : expandPayload c (s.take (controlPayload c C)) = p := by rw [expandPayload_take, hm]
  clear_value n m p
  subst hn hm hp
  refine ⟨dec_overrun hr, fun hroom hshort => hcut 0x02 ▸ dec_short hroom hshort, fun hroom hwhole => ?_⟩
  obtain ⟨hdec, hcounts⟩ := dec_whole (t := t) hroom hwhole
  exact ⟨hcounts, fun q u hok => by rw [hdec, hok, DecResult.after], fun e d herr => by rw [hdec, herr, DecResult.after]⟩

/-! ### The bounds of a successful decode (R98) -/

/-- What `dec` answers is a success only where one of two cases holds: no pixel left, or a packet with its payload before
a success for the rest (R97). -/
theorem dec_ok_cases {t : Terminal} {C r : Nat} {s q : List Byte} {u : Nat} (h : dec t s r C = .ok q u) :
    (r = 0 ∧ q = [] ∧ u = 0) ∨ ∃ c s' q' u', s = c :: s' ∧ controlPixels c ≤ r ∧ controlPayload c C ≤ s'.length ∧
      dec t (s'.drop (controlPayload c C)) (r - controlPixels c) C = .ok q' u' ∧
      q = expandPayload c (s'.take (controlPayload c C)) ++ q' ∧ u = 1 + controlPayload c C + u' := by
  rcases Nat.eq_zero_or_pos r with rfl | hr
  · rw [(dec_zero s).1] at h
    cases h
    exact .inl ⟨rfl, rfl, rfl⟩
  · cases s with
    | nil => rw [(dec_nil hr).1] at h; cases h
    | cons c s' =>
      rcases Nat.lt_or_ge r (controlPixels c) with hover | hroom
      · rw [(dec_overrun hr hover).1] at h; cases h
      rcases Nat.lt_or_ge s'.length (controlPayload c C) with hshort | hwhole
      · rw [(dec_short hroom hshort).1] at h; cases h
      rw [(dec_whole hroom hwhole).1] at h
      cases hrest : dec t (s'.drop (controlPayload c C)) (r - controlPixels c) C with
      | err e d => rw [hrest] at h; cases h
      | ok q' u' =>
        rw [hrest] at h
        cases h
        exact .inr ⟨c, s', q', u', rfl, hroom, hwhole, hrest, rfl, rfl⟩

/-- Settles O28: by induction on the pixels left; a packet has 1 to 128 of them, and between one pixel's and all its
pixels' bytes. -/
theorem decodeBounds : Obligations.DecodeBounds := by
  intro t s N C q u hC hdec
  induction N using Nat.strongRecOn generalizing s q u with
  | ind r ih =>
    rcases dec_ok_cases hdec with ⟨rfl, rfl, rfl⟩ | ⟨c, s, q', u', rfl, hroom, hwhole, hrest, rfl, rfl⟩
    · simp
    · obtain ⟨hn1, hn128⟩ := controlPixels_bounds c
      obtain ⟨hpayload, hpayload'⟩ := controlPayload_bounds c C
      have hbytes := length_expandPayload (List.length_take_of_le hwhole)
      obtain ⟨hq, hus, hu, hlow⟩ := ih (r - controlPixels c) (by omega) _ _ _ hrest
      generalize controlPixels c = n at *
      generalize controlPayload c C = m at *
      obtain ⟨r, rfl⟩ := Nat.exists_eq_add_of_le hroom
      rw [Nat.add_sub_cancel_left] at hq hu hlow
      have hpackets : (n + r + 127) / 128 ≤ (r + 127) / 128 + 1 := by omega
      refine ⟨?_, ?_, ?_, ?_⟩
      · rw [List.length_append, hbytes, hq, Nat.add_mul]
      · rw [List.length_drop] at hus
        rw [List.length_cons]
        omega
      · rw [Nat.add_mul]
        omega
      · calc (n + r + 127) / 128 * (1 + C) ≤ ((r + 127) / 128 + 1) * (1 + C) := Nat.mul_le_mul_right _ hpackets
          _ = (r + 127) / 128 * (1 + C) + (1 + C) := Nat.succ_mul ..
          _ ≤ 1 + m + u' := by omega

end Sys2Proof.Machine
end

section
/-! SUPPORT. Runs of a command (spec/70_reset_and_hazards.md R132, R136): the induction along a run, and that a run to
the end exists where the engine's steps are bounded. -/

namespace Sys2Proof.Machine

/-! ### What one step of a run leaves alone -/

theorem SameSurroundings.trans {s t u : State} (h : SameSurroundings s t) (h' : SameSurroundings t u) :
    SameSurroundings s u := by
  obtain ⟨hparams, hfault, hhost, hturns⟩ := h
  obtain ⟨hparams', hfault', hhost', hturns'⟩ := h'
  exact ⟨hparams'.trans hparams, hfault'.trans hfault, hhost'.trans hhost, hturns'.trans hturns⟩

theorem SameSurroundings.turns {s t : State} (h : SameSurroundings s t) : t.turns = s.turns := by
  obtain ⟨-, -, -, hturns⟩ := h
  exact hturns

/-- An engine step answers, and leaves the launch data, FAULT, the host and the turns alone. -/
theorem engineStep_next (s : State) : ∃ t, engineStep s = .next t ∧ SameSurroundings s t := by
  have command : ∀ i, ∃ t, exec i s = .next t ∧ SameSurroundings s t := fun i =>
    (exec_next i s).imp fun _ ht => ⟨ht, (exec_keeps ht).surroundings⟩
  cases hop : s.eng.op with
  | idle => exact ⟨s, by rw [engineStep, hop], (Keeps.refl s).surroundings⟩
  | ready i => simpa only [engineStep, hop] using command i
  | decoding => simpa only [engineStep, hop] using command .rleDecode
  | encoding => simpa only [engineStep, hop] using command .rleEncode

/-- A step of a run takes its turn from the turns chosen. -/
theorem step_busy_turns {s t : State} (hb : s.busy = true) (hreset : nextTurn s ≠ .reset) (ht : step s = .next t) :
    t.turns = s.turns.tail := by
  by_cases he : nextTurn s = .engine
  · obtain ⟨u, hu, hsame⟩ := engineStep_next { s with turns := s.turns.tail }
    rw [step_engine he ht] at hu
    cases hu
    exact hsame.turns
  · obtain ⟨m, x, rfl⟩ := step_host_busy hb he hreset ht
    rfl

/-! ### Along a run -/

/-- A property of a run's states that every engine step keeps and that speaks of neither FAULT, the host nor the turns
holds along the run, whatever the hosts do (R132). -/
theorem CommandRun.induct {P : Nat → State → Prop} {k : Nat} {s v : State} (hr : CommandRun k s v) (hstart : P 0 s)
    (hothers : ∀ {k v} m x ts, P k v → v.busy = true → P k { v with faultMark := m, host := x, turns := ts })
    (hengine : ∀ {k v w}, P k v → v.busy = true → engineStep v = .next w → P (k + 1) w) : P k v := by
  induction hr with
  | start => exact hstart
  | @engine k s v w _ hb he ht ih =>
    exact hengine (hothers v.faultMark v.host v.turns.tail (ih hstart) hb) hb (step_engine he ht)
  | host _ hb he hreset ht ih =>
    obtain ⟨m, x, rfl⟩ := step_host_busy hb he hreset ht
    exact hothers m x _ (ih hstart) hb

theorem CommandRun.extend {k : Nat} {s v w : State} (hr : CommandRun k s v) (hb : v.busy = true)
    (hreset : nextTurn v ≠ .reset) (hw : step v = .next w) : ∃ k', CommandRun k' s w := by
  by_cases he : nextTurn v = .engine
  · exact ⟨_, hr.engine hb he hw⟩
  · exact ⟨_, hr.host hb he hreset hw⟩

/-! ### A run to the end -/

/-- A chosen turn of a list that lets the command end is no reset, and the step that takes it answers with the same
script (log entry 11). -/
theorem TurnsLetEnd.step_next {s : State} (h : TurnsLetEnd s) {tn : Turn} {ts : List Turn} (hturns : s.turns = tn :: ts) :
    nextTurn s ≠ .reset ∧ ∃ t, step s = .next t ∧ t.host.script = s.host.script := by
  obtain ⟨hreset, hwf⟩ := h
  have hmem : nextTurn s ∈ s.turns := by simp [nextTurn, hturns]
  refine ⟨fun e => hreset (e ▸ hmem), ?_⟩
  rcases step_answers_or_stops s with hanswer | ⟨l, ⟨⟨line, hline, hl⟩, hnone⟩, hhost, -⟩
  · exact hanswer
  · exact absurd hnone (findLabel_of_scriptWf (hwf (hhost ▸ hmem)) hline hl)

/-- The chosen turns can all be taken, if the command does not end before. -/
theorem CommandRun.take_turns {s : State} (ts : List Turn) : ∀ {k : Nat} {v : State}, CommandRun k s v → v.turns = ts →
    TurnsLetEnd v → ∃ k' w, CommandRun k' s w ∧ (w.busy = false ∨ w.turns = []) := by
  induction ts with
  | nil => exact fun hr hturns _ => ⟨_, _, hr, .inr hturns⟩
  | cons tn ts ih =>
    intro k v hr hturns hlet
    cases hb : v.busy with
    | false => exact ⟨k, v, hr, .inl hb⟩
    | true =>
      obtain ⟨hreset, w, hw, hscript⟩ := hlet.step_next hturns
      have htail : w.turns = ts := by rw [step_busy_turns hb hreset hw, hturns, List.tail_cons]
      have hsub : ∀ tn' ∈ w.turns, tn' ∈ v.turns := fun tn' h => by
        rw [htail] at h
        rw [hturns]
        exact List.mem_cons_of_mem _ h
      obtain ⟨k', hr'⟩ := hr.extend hb hreset hw
      exact ih hr' htail ⟨fun h => hlet.1 (hsub _ h), fun h => hscript ▸ hlet.2 (hsub _ h)⟩

/-- With no turn chosen the engine's steps alone end a command whose runs have at most `B` of them (log entry 3). -/
theorem CommandRun.end_by_default {s : State} {B : Nat} (hbound : ∀ k v, CommandRun k s v → k ≤ B) {k : Nat} {v : State}
    (hr : CommandRun k s v) (hturns : v.turns = []) :
    ∃ k' t, CommandRun k' s t ∧ t.busy = false ∧ SameSurroundings v t := by
  induction hleft : B + 1 - k generalizing k v with
  | zero =>
    have hk := hbound k v hr
    omega
  | succ left ih =>
    cases hb : v.busy with
    | false => exact ⟨k, v, hr, hb, (Keeps.refl v).surroundings⟩
    | true =>
      obtain ⟨w, hw, hsame⟩ := engineStep_next v
      have he : nextTurn v = .engine := by simp [nextTurn, hturns, defaultTurn, hb]
      have hr' := hr.engine hb he ((step_of_default_turn hturns hb).trans hw)
      obtain ⟨k', t, hrun, hidle, hsame'⟩ := ih hr' (hsame.turns.trans hturns) (by omega)
      exact ⟨k', t, hrun, hidle, hsame.trans hsame'⟩

/-- A command whose runs have at most `B` engine steps ends, if the chosen turns let it (R136; log entry 3). -/
theorem commandRun_to_end {s : State} {B : Nat} (hbound : ∀ k v, CommandRun k s v → k ≤ B) (hlet : TurnsLetEnd s) :
    ∃ k t, CommandRun k s t ∧ t.busy = false ∧ (s.turns = [] → SameSurroundings s t) := by
  by_cases hnil : s.turns = []
  · obtain ⟨k, t, hr, hidle, hsame⟩ := CommandRun.end_by_default hbound (.start s) hnil
    exact ⟨k, t, hr, hidle, fun _ => hsame⟩
  · obtain ⟨k, v, hr, hidle | hturns⟩ := CommandRun.take_turns s.turns (.start s) rfl hlet
    · exact ⟨k, v, hr, hidle, fun h => absurd h hnil⟩
    · obtain ⟨k', t, hr', hidle, -⟩ := CommandRun.end_by_default hbound hr hturns
      exact ⟨k', t, hr', hidle, fun h => absurd h hnil⟩

end Sys2Proof.Machine
end

section
/-! SUPPORT. RLE_DECODE computes `dec` (spec/41_rle_decode.md R88 to R97): each of its steps beside one round of the
recursion, what holds of a running decode with respect to the state it was issued in, and how it ends. -/

namespace Sys2Proof.Machine

variable {s t u : State}

/-! ### A step beside a round of the recursion -/

/-- What `dec` says of the pixels that are missing and the bytes that are left (R97). -/
def State.decLeft (s : State) : DecResult := dec s.params.term s.remaining (s.pixels - s.eng.pcur) s.channels

/-- What a decode has still to count. -/
def State.countsLeft (s : State) : DecCounts := decCounts s.remaining (s.pixels - s.eng.pcur) s.channels

/-- A step of RLE_DECODE in its packet phase, with what `dec` says before it and after it: the end step, a packet step that
fails with `k` bytes taken, or one that takes `k` bytes and commits `n` pixels. -/
inductive DecodeStep (s : State) : State → Prop where
  | ends : s.pixels ≤ s.eng.pcur → s.decLeft = .ok [] 0 → s.countsLeft = ⟨0, 0, 0⟩ → DecodeStep s (complete s)
  | fails {e : ErrorKind} {d : Byte} {k : Nat} : k ≤ 1 + (s.pixels - s.eng.pcur) * s.channels → s.decLeft = .err e d →
      s.countsLeft = ⟨0, 0, k⟩ → DecodeStep s (failDecode e d (s.tookPayload k))
  | commits {n k : Nat} {bytes : List Byte} {t : State} : t = commitPacket n bytes (s.tookPayload k) → 1 ≤ n →
      s.eng.pcur + n ≤ s.pixels → k ≤ 1 + (s.pixels - s.eng.pcur) * s.channels → bytes.length = n * s.channels →
      s.decLeft = t.decLeft.after bytes k →
      s.countsLeft = ⟨n + t.countsLeft.pixels, 1 + t.countsLeft.packets, k + t.countsLeft.taken⟩ → DecodeStep s t

/-- The packet of a control byte as a packet step (R89 to R91). -/
theorem exec_decodeControl (c : Byte) (s : State) :
    exec (decodeControl c) s = packetStep (controlPixels c) (controlPayload c s.channels) (expandPayload c) s := by
  unfold decodeControl controlPayload
  cases hk : controlKind c with
  | raw =>
    have hexpand : expandPayload c = id := by
      funext payload
      rw [expandPayload, hk, id]
    rw [hexpand]
    rfl
  | run =>
    have hexpand : expandPayload c = (repeatBytes · (controlPixels c)) := by
      funext payload
      rw [expandPayload, hk]
    rw [hexpand]
    rfl

/-- A packet step, its control byte included, goes the way of `dec` at that byte: an overrun, a payload cut short, or a
packet (R89, R92, R97). -/
theorem decodeStep_control {c : Byte} {rest : List Byte} (hr : s.remaining = c :: rest) (hleft : s.eng.pcur < s.pixels)
    (ht : decodePacket s = .next t) : DecodeStep s t := by
  let v : State := { s with srcPos := s.srcPos + 1, inCount := s.inCount + 1 }
  have hrest : v.remaining = rest := by simpa [State.remaining] using congrArg List.tail hr
  have htook : ∀ k, v.tookPayload k = s.tookPayload (1 + k) := tookPayload_control s
  have hstep : packetStep (controlPixels c) (controlPayload c s.channels) (expandPayload c) v = .next t :=
    (exec_decodeControl c v).symm.trans ((decodePacket_cons hr).symm.trans ht)
  rcases Nat.lt_or_ge (s.pixels - s.eng.pcur) (controlPixels c) with hover | hroom
  · rw [packetStep_overrun (s := v) (show s.pixels < s.eng.pcur + controlPixels c by omega), htook] at hstep
    cases hstep
    obtain ⟨hdec, hcounts⟩ :=
      dec_overrun (t := s.params.term) (C := s.channels) (s := rest) (Nat.sub_pos_of_lt hleft) hover
    rw [← hr] at hdec hcounts
    exact .fails (Nat.le_add_right _ _) hdec hcounts
  have hroom' : s.eng.pcur + controlPixels c ≤ s.pixels := by omega
  have hpayload : controlPayload c s.channels ≤ (s.pixels - s.eng.pcur) * s.channels :=
    (controlPayload_bounds c s.channels).2.trans (Nat.mul_le_mul_right _ hroom)
  rcases Nat.lt_or_ge rest.length (controlPayload c s.channels) with hshort | hwhole
  · rw [packetStep_short (s := v) hroom' (hrest ▸ hshort), htook, hrest] at hstep
    cases hstep
    obtain ⟨hdec, hcounts⟩ := dec_short (t := s.params.term) hroom hshort
    rw [← hr] at hdec hcounts
    exact .fails (by omega) hdec hcounts
  · rw [packetStep_whole (s := v) hroom' (hrest ▸ hwhole), htook, hrest] at hstep
    cases hstep
    have hdrop : (s.tookPayload (1 + controlPayload c s.channels)).remaining =
        rest.drop (controlPayload c s.channels) := by
      show s.params.src.drop (s.srcPos + (1 + controlPayload c s.channels)) = _
      rw [← hrest, ← Nat.add_assoc, ← List.drop_drop]
      rfl
    obtain ⟨hdec, hcounts⟩ := dec_whole (t := s.params.term) hroom hwhole
    rw [← hdrop, ← Nat.sub_add_eq, ← hr] at hdec hcounts
    exact .commits rfl (controlPixels_bounds c).1 hroom' (by omega)
      (length_expandPayload (List.length_take_of_le hwhole)) hdec hcounts

/-- A step in the packet phase goes the way of `dec`: no pixel missing, no control byte, or a packet (R88, R97). -/
theorem decodeStep_of_exec (hop : s.eng.op = .decoding) (ht : exec .rleDecode s = .next t) : DecodeStep s t := by
  rcases Nat.lt_or_ge s.eng.pcur s.pixels with hleft | hdone
  · cases hr : s.remaining with
    | nil =>
      rw [exec_rleDecode_no_control hop hleft hr] at ht
      cases ht
      obtain ⟨hdec, hcounts⟩ := dec_nil (t := s.params.term) (C := s.channels) (Nat.sub_pos_of_lt hleft)
      rw [← hr] at hdec hcounts
      exact .fails (Nat.zero_le _) hdec hcounts
    | cons c rest => exact decodeStep_control hr hleft ((exec_rleDecode_packet hop hleft).symm.trans ht)
  · rw [exec_rleDecode_end hop hdone] at ht
    cases ht
    obtain ⟨hdec, hcounts⟩ := dec_zero (t := s.params.term) (C := s.channels) s.remaining
    have hnone := Nat.sub_eq_zero_of_le hdone
    exact .ends hdone (by rw [State.decLeft, hnone, hdec]) (by rw [State.countsLeft, hnone, hcounts])

/-! ### What a run of RLE_DECODE leaves alone -/

theorem SameConfig.pixels (h : SameConfig s t) : t.pixels = s.pixels := by
  obtain ⟨hW, hH, -⟩ := h
  rw [State.pixels, State.width, State.height, hW, hH, State.pixels, State.width, State.height]

theorem SameConfig.channels (h : SameConfig s t) : t.channels = s.channels := by
  obtain ⟨-, -, hC⟩ := h
  rw [State.channels, hC, State.channels]

/-- From `s` to `t` a decode has left alone what it never writes: the launch data, the configuration, HDR, the sink and
PBUF outside the image (R94). -/
structure DecodeFrame (s t : State) : Prop where
  params : t.params = s.params
  config : SameConfig s t
  header : SameHeader s t
  sink : SameSink s t
  outside : ∀ a, s.pixels * s.channels ≤ a → t.pbuf.read a = s.pbuf.read a

theorem DecodeFrame.trans (h : DecodeFrame s t) (h' : DecodeFrame t u) : DecodeFrame s u where
  params := h'.params.trans h.params
  config := by
    obtain ⟨hW, hH, hC⟩ := h.config
    obtain ⟨hW', hH', hC'⟩ := h'.config
    exact ⟨hW'.trans hW, hH'.trans hH, hC'.trans hC⟩
  header := by
    obtain ⟨hhdr, hinfo⟩ := h.header
    obtain ⟨hhdr', hinfo'⟩ := h'.header
    exact ⟨hhdr'.trans hhdr, hinfo'.trans hinfo⟩
  sink := by
    obtain ⟨hsink, hout⟩ := h.sink
    obtain ⟨hsink', hout'⟩ := h'.sink
    exact ⟨hsink'.trans hsink, hout'.trans hout⟩
  outside a ha := by
    rw [h'.outside a (by rwa [h.config.pixels, h.config.channels]), h.outside a ha]

/-- A step in the packet phase of RLE_DECODE leaves these alone. -/
theorem DecodeStep.frame (h : DecodeStep s t) (ht : exec .rleDecode s = .next t) : DecodeFrame s t := by
  have houtside : ∀ a, s.pixels * s.channels ≤ a → t.pbuf.read a = s.pbuf.read a := fun _ =>
    exec_rleDecode_pbuf_outside ht
  cases h with
  | ends => exact ⟨rfl, ⟨rfl, rfl, rfl⟩, ⟨rfl, rfl⟩, ⟨rfl, rfl⟩, houtside⟩
  | fails => exact ⟨rfl, ⟨rfl, rfl, rfl⟩, ⟨rfl, rfl⟩, ⟨rfl, rfl⟩, houtside⟩
  | commits e => subst e; exact ⟨rfl, ⟨rfl, rfl, rfl⟩, ⟨rfl, rfl⟩, ⟨rfl, rfl⟩, houtside⟩

/-! ### The bytes of the image, and the counters -/

/-- Bytes written right after a range are read back with it. -/
theorem Memory.readBytes_writeBytes_append {p : Memory} (hp : p.wf) (l : Nat) (bs : List Byte) :
    (p.writeBytes l bs).readBytes 0 (l + bs.length) = p.readBytes 0 l ++ bs := by
  have hbelow : ∀ j ∈ List.range l, (p.writeBytes l bs).read (0 + j) = p.read (0 + j) := fun j hj =>
    Memory.read_writeBytes_outside bs p l (.inl (by simpa using hj))
  have hinside : ∀ j ∈ List.range bs.length, (p.writeBytes l bs).read (0 + (l + j)) = byteAt bs j := fun j hj => by
    rw [Nat.zero_add, Memory.read_writeBytes_byteAt hp l bs (List.mem_range.1 hj)]
  rw [Memory.readBytes, List.range_add, List.map_append, List.map_map, Memory.readBytes]
  refine congrArg₂ _ (List.map_congr_left hbelow) ?_
  exact (List.map_congr_left hinside).trans (map_byteAt_range bs)

theorem toNat_add_ofNat {w : Nat} (x : BitVec w) {k : Nat} (h : x.toNat + k < 2 ^ w) :
    (x + BitVec.ofNat w k).toNat = x.toNat + k := by
  rw [BitVec.toNat_add, BitVec.toNat_ofNat, Nat.add_mod_mod, Nat.mod_eq_of_lt h]

/-- IN_COUNT does not wrap while a decode takes the bytes that the missing pixels can have (R33). -/
theorem CountersWithin.inCount_add (h : CountersWithin s s.inCount) {k : Nat}
    (hk : k ≤ 1 + (s.pixels - s.eng.pcur) * s.channels) :
    (s.inCount + BitVec.ofNat 64 k).toNat = s.inCount.toNat + k := by
  obtain ⟨hcur, -, hpkt, hin⟩ := h
  have hpixels := s.pixels_lt
  have himage : s.pixels * s.channels < 2 ^ 32 * 8 :=
    Nat.mul_lt_mul'' hpixels (show s.cfgChannels.toNat < 2 ^ 3 from s.cfgChannels.isLt)
  have hsplit : s.eng.pcur * s.channels + (s.pixels - s.eng.pcur) * s.channels = s.pixels * s.channels := by
    rw [← Nat.add_mul, Nat.add_sub_cancel' hcur]
  exact toNat_add_ofNat _ (by omega)

/-- PKT_COUNT does not wrap while pixels are missing (R33). -/
theorem CountersWithin.pktCount_add {c : BitVec 64} (h : CountersWithin s c) (hleft : s.eng.pcur < s.pixels) :
    (s.pktCount + 1).toNat = s.pktCount.toNat + 1 := by
  obtain ⟨-, -, hpkt, -⟩ := h
  have hpixels := s.pixels_lt
  exact toNat_add_ofNat s.pktCount (k := 1) (by omega)

theorem DecResult.after_after (r : DecResult) (p p' : List Byte) (k k' : Nat) :
    (r.after p k).after p' k' = r.after (p' ++ p) (k' + k) := by
  cases r <;> simp [DecResult.after, Nat.add_assoc]

@[simp] theorem DecResult.after_nil_zero (r : DecResult) : r.after [] 0 = r := by
  cases r <;> simp [DecResult.after]

/-! ### A running decode, and its end -/

/-- What `dec` says of the image and the source from `SRC_POS` on (R97). -/
def State.decoded (s : State) : DecResult := dec s.params.term s.remaining s.pixels s.channels

/-- What a decode of the image from `SRC_POS` on counts. -/
def State.decodedCounts (s : State) : DecCounts := decCounts s.remaining s.pixels s.channels

/-- `u` is a state in the packet phase of the RLE_DECODE issued in `s`: the result and the counts of `dec` at `s` are those
of the pixels committed and the bytes taken so far, followed by those of what is left. -/
structure DecodesFrom (s u : State) : Prop where
  inv : Invariant u
  op : u.eng.op = .decoding
  frame : DecodeFrame s u
  status : u.status = s.status
  srcPos : u.srcPos = s.srcPos + u.inCount.toNat
  result : s.decoded = u.decLeft.after (u.pbuf.readBytes 0 (u.eng.pcur * u.channels)) u.inCount.toNat
  counts : s.decodedCounts = ⟨u.eng.pcur + u.countsLeft.pixels, u.pktCount.toNat + u.countsLeft.packets,
    u.inCount.toNat + u.countsLeft.taken⟩

/-- The RLE_DECODE issued in `s` has ended in `t` as `dec` says (R94, R95, R97). -/
structure DecodeEnds (s t : State) : Prop where
  idle : t.busy = false
  frame : DecodeFrame s t
  ok : ∀ q k, s.decoded = .ok q k → EndsOk s t ∧ t.pbuf.readBytes 0 (s.pixels * s.channels) = q ∧
    s.decodedCounts.taken = k ∧ s.decodedCounts.pixels = s.pixels
  err : ∀ e d, s.decoded = .err e d → EndsErr e.code d s t
  pixCount : t.pixCount.toNat = s.decodedCounts.pixels
  pktCount : t.pktCount.toNat = s.decodedCounts.packets
  inCount : t.inCount.toNat = s.decodedCounts.taken
  srcPos : t.srcPos = s.srcPos + s.decodedCounts.taken

theorem EndsOk.not_busy (h : EndsOk s t) : t.busy = false := by simp [State.busy, h.status]

theorem EndsErr.not_busy {c : BitVec 4} {d : Byte} (h : EndsErr c d s t) : t.busy = false := by
  simp [State.busy, h.status]

theorem DecodesFrom.countersWithin (h : DecodesFrom s u) : CountersWithin u u.inCount := by
  obtain ⟨-, -, hcount, -⟩ := (opInv_decoding_iff h.op).1 h.inv.op
  exact hcount

/-- The setup step begins the packet phase with nothing taken and nothing counted (R88). -/
theorem decodesFrom_setup (h : Invariant s) (hop : s.eng.op = .ready .rleDecode) (hcfg : s.cfgDetail = 0) :
    DecodesFrom s { s with eng := { s.eng with op := .decoding, pcur := 0 } } := by
  have hready := h.op
  simp only [OpInv, hop] at hready
  obtain ⟨-, -, -, -, hpkt, hin, -⟩ := hready
  have hin : s.inCount.toNat = 0 := by rw [hin]; rfl
  have hpkt : s.pktCount.toNat = 0 := by rw [hpkt]; rfl
  have hstep := (exec_rleDecode_ready hop).trans (rleSetup_legal hcfg)
  refine ⟨h.after_exec (.inl hop) hstep, rfl, ⟨rfl, ⟨rfl, rfl, rfl⟩, ⟨rfl, rfl⟩, ⟨rfl, rfl⟩, fun _ _ => rfl⟩, rfl, ?_, ?_, ?_⟩
  · show s.srcPos = s.srcPos + s.inCount.toNat
    rw [hin, Nat.add_zero]
  · show s.decoded = s.decoded.after (s.pbuf.readBytes 0 (0 * s.channels)) s.inCount.toNat
    rw [hin, Nat.zero_mul]
    exact s.decoded.after_nil_zero.symm
  · show s.decodedCounts = ⟨0 + s.decodedCounts.pixels, s.pktCount.toNat + s.decodedCounts.packets,
      s.inCount.toNat + s.decodedCounts.taken⟩
    rw [hin, hpkt, Nat.zero_add, Nat.zero_add, Nat.zero_add]

/-- The hosts do not touch a running decode (R132). -/
theorem DecodesFrom.withSurroundings (h : DecodesFrom s u) (m : Option Hazard) (x : HostState) (ts : List Turn) :
    DecodesFrom s { u with faultMark := m, host := x, turns := ts } :=
  ⟨h.inv.withSurroundings m x ts, h.op,
    ⟨h.frame.params, h.frame.config, h.frame.header, h.frame.sink, h.frame.outside⟩, h.status, h.srcPos, h.result, h.counts⟩

/-- The end step ends a decode whose pixels are all committed: `dec` is a success (R95). -/
theorem DecodesFrom.ends (h : DecodesFrom s u) (hdone : u.pixels ≤ u.eng.pcur) (hleft : u.decLeft = .ok [] 0)
    (hcounts : u.countsLeft = ⟨0, 0, 0⟩) (hframe : DecodeFrame u (complete u)) : DecodeEnds s (complete u) := by
  obtain ⟨hcur, hpix, -, -⟩ := h.countersWithin
  have hall : u.eng.pcur = s.pixels := (Nat.le_antisymm hcur hdone).trans h.frame.config.pixels
  have hresult := h.result
  have hn := h.counts
  rw [hleft, DecResult.after, List.append_nil, hall, h.frame.config.channels] at hresult
  rw [hcounts, hall] at hn
  have hends : EndsOk s (complete u) := endsOk_complete h.status
  refine ⟨hends.not_busy, h.frame.trans hframe, fun q k hok => ?_, fun e d herr => ?_, ?_, ?_, ?_, ?_⟩
  · rw [hresult] at hok
    cases hok
    exact ⟨hends, rfl, by rw [hn], by rw [hn]; rfl⟩
  · rw [hresult] at herr
    cases herr
  · rw [hn]; exact hpix.trans hall
  · rw [hn]; rfl
  · rw [hn]; rfl
  · rw [hn]; exact h.srcPos

/-- A packet step that fails ends a decode with `dec`'s error, its bytes taken and no pixel more (R92, R94, R96). -/
theorem DecodesFrom.fails (h : DecodesFrom s u) {e : ErrorKind} {d : Byte} {k : Nat}
    (hk : k ≤ 1 + (u.pixels - u.eng.pcur) * u.channels) (hleft : u.decLeft = .err e d)
    (hcounts : u.countsLeft = ⟨0, 0, k⟩) (hframe : DecodeFrame u (failDecode e d (u.tookPayload k))) :
    DecodeEnds s (failDecode e d (u.tookPayload k)) := by
  obtain ⟨-, hpix, -, -⟩ := h.countersWithin
  have hin := h.countersWithin.inCount_add hk
  have hresult := h.result
  have hn := h.counts
  rw [hleft, DecResult.after] at hresult
  rw [hcounts] at hn
  have hends : EndsErr e.code d s (failDecode e d (u.tookPayload k)) := endsErr_raise (by exact h.status) e d
  refine ⟨hends.not_busy, h.frame.trans hframe, fun q k' hok => ?_, fun e' d' herr => ?_, ?_, ?_, ?_, ?_⟩
  · rw [hresult] at hok
    cases hok
  · rw [hresult] at herr
    cases herr
    exact hends
  · rw [hn]; exact hpix
  · rw [hn]; rfl
  · rw [hn]; exact hin
  · rw [hn]
    show u.srcPos + k = s.srcPos + (u.inCount.toNat + k)
    rw [h.srcPos, Nat.add_assoc]

/-- A packet that commits moves its bytes, its pixels and its length from what is left to what is done (R89, R97). -/
theorem DecodesFrom.commits (h : DecodesFrom s u) {n k : Nat} {bytes : List Byte}
    (ht : t = commitPacket n bytes (u.tookPayload k)) (hn : 1 ≤ n) (hroom : u.eng.pcur + n ≤ u.pixels)
    (hk : k ≤ 1 + (u.pixels - u.eng.pcur) * u.channels) (hbytes : bytes.length = n * u.channels)
    (hleft : u.decLeft = t.decLeft.after bytes k)
    (hcounts : u.countsLeft = ⟨n + t.countsLeft.pixels, 1 + t.countsLeft.packets, k + t.countsLeft.taken⟩)
    (hframe : DecodeFrame u t) (hinv : Invariant t) : DecodesFrom s t := by
  have hin : t.inCount.toNat = u.inCount.toNat + k := by
    rw [← h.countersWithin.inCount_add hk, ht]
    rfl
  have hpkt : t.pktCount.toNat = u.pktCount.toNat + 1 := by
    rw [← h.countersWithin.pktCount_add (by omega), ht]
    rfl
  have hcur : t.eng.pcur = u.eng.pcur + n := by rw [ht]; rfl
  have himage : t.pbuf.readBytes 0 (t.eng.pcur * t.channels) = u.pbuf.readBytes 0 (u.eng.pcur * u.channels) ++ bytes := by
    rw [hcur, hframe.config.channels, Nat.add_mul, ← hbytes, ← Memory.readBytes_writeBytes_append h.inv.pbufForm, ht]
    rfl
  refine ⟨hinv, ?_, h.frame.trans hframe, ?_, ?_, ?_, ?_⟩
  · rw [ht]; exact h.op
  · rw [ht]; exact h.status
  · rw [hin, ← Nat.add_assoc, ← h.srcPos, ht]
    rfl
  · rw [h.result, hleft, DecResult.after_after, himage, hin]
  · rw [h.counts, hcounts, hin, hpkt, hcur]
    simp only [Nat.add_assoc]

/-- An engine step of a running decode commits pixels and goes on, or ends it. -/
theorem DecodesFrom.after_engineStep (h : DecodesFrom s u) (ht : engineStep u = .next t) :
    (DecodesFrom s t ∧ u.eng.pcur < t.eng.pcur) ∨ DecodeEnds s t := by
  have hexec : exec .rleDecode u = .next t := (engineStep_decoding h.op).symm.trans ht
  have hstep := decodeStep_of_exec h.op hexec
  have hframe := hstep.frame hexec
  have hinv : Invariant t := h.inv.after_exec (.inr (.inl ⟨rfl, h.op⟩)) hexec
  cases hstep with
  | ends hdone hleft hcounts => exact .inr (h.ends hdone hleft hcounts hframe)
  | fails hk hleft hcounts => exact .inr (h.fails hk hleft hcounts hframe)
  | commits e hn hroom hk hbytes hleft hcounts =>
    refine .inl ⟨h.commits e hn hroom hk hbytes hleft hcounts hframe hinv, ?_⟩
    rw [e]
    exact Nat.lt_add_of_pos_right hn

/-! ### A run of the command -/

/-- How far a run of the RLE_DECODE issued in `s` has come after `k` engine steps (R136): its setup step to come, in its
packet phase, or ended. -/
inductive DecodePhase (s : State) : (k : Nat) → State → Prop where
  | issued (m : Option Hazard) (x : HostState) (ts : List Turn) :
      DecodePhase s 0 { s with faultMark := m, host := x, turns := ts }
  | decoding {k : Nat} {u : State} : k ≤ u.eng.pcur + 1 → DecodesFrom s u → DecodePhase s k u
  | ended {k : Nat} {t : State} : k ≤ s.pixels + 2 → DecodeEnds s t → DecodePhase s k t

theorem DecodesFrom.pcur_le (h : DecodesFrom s u) : u.eng.pcur ≤ s.pixels := by
  obtain ⟨hcur, -⟩ := h.countersWithin
  exact h.frame.config.pixels ▸ hcur

theorem DecodesFrom.busy (h : DecodesFrom s u) : u.busy = true := h.inv.busy_of_op (by simp [h.op])

theorem DecodeEnds.not_busy (h : DecodeEnds s t) : ¬ t.busy = true := by simp [h.idle]

/-- The first engine step of an issued RLE_DECODE with a legal configuration is its setup step (R88). -/
theorem engineStep_rleDecode_ready (hop : s.eng.op = .ready .rleDecode) (hcfg : s.cfgDetail = 0) :
    engineStep s = .next { s with eng := { s.eng with op := .decoding, pcur := 0 } } := by
  rw [engineStep, hop]
  exact (exec_rleDecode_ready hop).trans (rleSetup_legal hcfg)

/-- Every state of a run of RLE_DECODE is in one of its phases. -/
theorem CommandRun.decodePhase {k : Nat} (hr : CommandRun k s t) (h : Invariant s) (hop : s.eng.op = .ready .rleDecode)
    (hcfg : s.cfgDetail = 0) : DecodePhase s k t := by
  refine hr.induct (.issued s.faultMark s.host s.turns) ?_ ?_
  · intro k v m x ts hv hb
    cases hv with
    | issued => exact .issued m x ts
    | decoding hk hv => exact .decoding hk (hv.withSurroundings m x ts)
    | ended _ hv => exact absurd hb hv.not_busy
  · intro k v w hv hb hw
    cases hv with
    | issued m x ts =>
      rw [engineStep_rleDecode_ready (s := { s with faultMark := m, host := x, turns := ts }) hop hcfg] at hw
      cases hw
      exact .decoding (Nat.le_refl _) ((decodesFrom_setup h hop hcfg).withSurroundings m x ts)
    | decoding hk hv =>
      rcases hv.after_engineStep hw with ⟨hw, hlt⟩ | hends
      · exact .decoding (by omega) hw
      · have hcur := hv.pcur_le
        exact .ended (by omega) hends
    | ended _ hv => exact absurd hb hv.not_busy

theorem DecodePhase.steps_le {k : Nat} (h : DecodePhase s k t) : k ≤ s.pixels + 2 := by
  cases h with
  | issued => exact Nat.zero_le _
  | decoding hk hu =>
    have hcur := hu.pcur_le
    omega
  | ended hk => exact hk

/-- A run that is idle has ended the command. -/
theorem DecodePhase.ends_of_idle {k : Nat} (h : DecodePhase s k t) (hb : s.busy = true) (hidle : t.busy = false) :
    DecodeEnds s t := by
  cases h with
  | issued => exact absurd (hb.symm.trans hidle) (by decide)
  | decoding _ hu => exact absurd (hu.busy.symm.trans hidle) (by decide)
  | ended _ hends => exact hends

/-- Settles O27: along every run the pixels committed and the bytes taken, followed by `dec` of what is left, make up
`dec` of the whole; the engine's steps are bounded, so that a run to the end exists. -/
theorem decodeCommandComputesDec : Obligations.DecodeCommandComputesDec := by
  intro s h hop hcfg n
  have hphase : ∀ k t, CommandRun k s t → DecodePhase s k t := fun _ _ hr => hr.decodePhase h hop hcfg
  refine ⟨fun k t hr hidle => ?_, commandRun_to_end fun k t hr => (hphase k t hr).steps_le⟩
  have hends := (hphase k t hr).ends_of_idle (h.busy_of_op (by simp [hop])) hidle
  exact ⟨(hphase k t hr).steps_le, hends.ok, hends.err, hends.pixCount, hends.pktCount, hends.inCount, hends.srcPos,
    hends.frame.outside, hends.frame.config, hends.frame.header, hends.frame.sink, hends.frame.params⟩

end Sys2Proof.Machine
end

section
/-! SUPPORT. Run detection (spec/42_rle_encode.md R102 to R105): the run length and the raw length as the one length that
closes where R103 and R104 say, and what a packet choice depends on. -/

namespace Sys2Proof.Machine

variable {px : Nat → Pixel} {N p : Nat}

/-! ### The lengths at which a packet closes -/

/-- `L` is the length of a run at `p` that closes as R103 says. -/
structure RunCloses (px : Nat → Pixel) (N p L : Nat) : Prop where
  two_le : 2 ≤ L
  le_max : L ≤ 128
  inside : p + L ≤ N
  same : ∀ j, j < L → px (p + j) = px p
  closed : L = 128 ∨ p + L = N ∨ px (p + L) ≠ px p

/-- `k` is the length of a raw packet at `p` that closes as R104 says. -/
structure RawCloses (px : Nat → Pixel) (N p k : Nat) : Prop where
  one_le : 1 ≤ k
  le_max : k ≤ 128
  inside : p + k ≤ N
  differ : ∀ j, j < k → p + j + 1 < N → px (p + j) ≠ px (p + j + 1)
  closed : k = 128 ∨ p + k = N ∨ (p + k + 1 < N ∧ px (p + k) = px (p + k + 1))

/-- The loop of R103 goes through equal pixels, and stops at its last turn, at the end, or at a pixel that differs. -/
theorem runFrom_same_and_closed (px : Nat → Pixel) (N p k : Nat) : ∀ L, p + L ≤ N → (∀ j, j < L → px (p + j) = px p) →
    (∀ j, j < runFrom px N p k L → px (p + j) = px p) ∧
      (runFrom px N p k L = L + k ∨ p + runFrom px N p k L = N ∨ px (p + runFrom px N p k L) ≠ px p) := by
  induction k with
  | zero => exact fun L _ hsame => ⟨hsame, .inl rfl⟩
  | succ k ih =>
    intro L hL hsame
    unfold runFrom
    split
    case isTrue hnext =>
      obtain ⟨hlt, heq⟩ := hnext
      have hsame' : ∀ j, j < L + 1 → px (p + j) = px p := fun j hj =>
        (Nat.lt_succ_iff_lt_or_eq.1 hj).elim (hsame j) fun e => e ▸ heq
      rw [show L + (k + 1) = L + 1 + k by omega]
      exact ih (L + 1) hlt hsame'
    case isFalse hstop => exact ⟨hsame, .inr (or_iff_not_imp_left.2 fun hne heq => hstop ⟨by omega, heq⟩)⟩

/-- The loop of R104 goes through pixels that differ from their successors, and stops at its last turn, at the end, or at a
pixel that equals its successor. -/
theorem rawFrom_differ_and_closed (px : Nat → Pixel) (N p j : Nat) : ∀ k, p + k ≤ N →
    (∀ i, i < k → p + i + 1 < N → px (p + i) ≠ px (p + i + 1)) →
    (∀ i, i < rawFrom px N p j k → p + i + 1 < N → px (p + i) ≠ px (p + i + 1)) ∧
      (rawFrom px N p j k = k + j ∨ p + rawFrom px N p j k = N ∨
        (p + rawFrom px N p j k + 1 < N ∧ px (p + rawFrom px N p j k) = px (p + rawFrom px N p j k + 1))) := by
  induction j with
  | zero => exact fun k _ hdiff => ⟨hdiff, .inl rfl⟩
  | succ j ih =>
    intro k hk hdiff
    unfold rawFrom
    split
    case isFalse hend => exact ⟨hdiff, .inr (.inl (by omega))⟩
    case isTrue hlt =>
      split
      case isTrue hpair => exact ⟨hdiff, .inr (.inr hpair)⟩
      case isFalse hpair =>
        have hdiff' : ∀ i, i < k + 1 → p + i + 1 < N → px (p + i) ≠ px (p + i + 1) := fun i hi hin =>
          (Nat.lt_succ_iff_lt_or_eq.1 hi).elim (hdiff i · hin) fun e heq => hpair (e ▸ ⟨hin, heq⟩)
        rw [show k + (j + 1) = k + 1 + j by omega]
        exact ih (k + 1) hlt hdiff'

theorem runLength_closes (hp : p + 1 < N) (heq : px p = px (p + 1)) : RunCloses px N p (runLength px N p) := by
  have hpair : ∀ j, j < 2 → px (p + j) = px p := fun j hj => by
    obtain rfl | rfl := Nat.le_one_iff_eq_zero_or_eq_one.1 (Nat.le_of_lt_succ hj)
    · rfl
    · exact heq.symm
  obtain ⟨hlow, hhigh, hin⟩ := runFrom_bounds px N p 126 2 hp
  obtain ⟨hsame, hclosed⟩ := runFrom_same_and_closed px N p 126 2 hp hpair
  exact ⟨hlow, hhigh, hin, hsame, hclosed⟩

theorem rawLength_closes (hp : p < N) (hne : p + 1 < N → px p ≠ px (p + 1)) : RawCloses px N p (rawLength px N p) := by
  have hfirst : ∀ i, i < 1 → p + i + 1 < N → px (p + i) ≠ px (p + i + 1) := fun i hi => Nat.lt_one_iff.1 hi ▸ hne
  obtain ⟨hlow, hhigh, hin⟩ := rawFrom_bounds px N p 127 1 hp
  obtain ⟨hdiff, hclosed⟩ := rawFrom_differ_and_closed px N p 127 1 hp hfirst
  exact ⟨hlow, hhigh, hin, hdiff, hclosed⟩

/-- Settles O29: the loop goes on through equal pixels only, and its bounds are those of a run packet. -/
theorem runLengthIsMaximal : Obligations.RunLengthIsMaximal := by
  intro px N p hp heq L
  obtain ⟨hlow, hhigh, hin, hsame, hclosed⟩ := runLength_closes hp heq
  exact ⟨hlow, hhigh, hin, hsame, hclosed⟩

/-- Settles O30: the loop stops before the first pixel that equals its successor. -/
theorem rawLengthStopsAtPair : Obligations.RawLengthStopsAtPair := by
  intro px N p hp hne k
  obtain ⟨hlow, hhigh, hin, hdiff, hclosed⟩ := rawLength_closes hp hne
  exact ⟨hlow, hhigh, hin, hdiff, hclosed⟩

/-! ### No other length closes -/

theorem RunCloses.le {L L' : Nat} (h : RunCloses px N p L) (h' : RunCloses px N p L') : L' ≤ L := by
  by_contra hlt
  have hmax := h'.le_max
  have hin := h'.inside
  rcases h.closed with hfull | hend | hdiffer
  · omega
  · omega
  · exact hdiffer (h'.same L (by omega))

theorem RunCloses.unique {L L' : Nat} (h : RunCloses px N p L) (h' : RunCloses px N p L') : L = L' :=
  Nat.le_antisymm (h'.le h) (h.le h')

theorem RawCloses.le {k k' : Nat} (h : RawCloses px N p k) (h' : RawCloses px N p k') : k' ≤ k := by
  by_contra hlt
  have hmax := h'.le_max
  have hin := h'.inside
  rcases h.closed with hfull | hend | ⟨hpair, heq⟩
  · omega
  · omega
  · exact h'.differ k (by omega) hpair heq

theorem RawCloses.unique {k k' : Nat} (h : RawCloses px N p k) (h' : RawCloses px N p k') : k = k' :=
  Nat.le_antisymm (h'.le h) (h.le h')

theorem RunCloses.starts_pair {L : Nat} (h : RunCloses px N p L) : p + 1 < N ∧ px p = px (p + 1) := by
  have hlow := h.two_le
  have hin := h.inside
  exact ⟨by omega, (h.same 1 hlow).symm⟩

/-! ### The packet chosen -/

theorem startsRun_iff : startsRun px N p = true ↔ p + 1 < N ∧ px p = px (p + 1) := by
  simp [startsRun]

theorem choosePacket_run (h : p + 1 < N ∧ px p = px (p + 1)) :
    choosePacket px N p = (runLength px N p, BitVec.ofNat 8 (runLength px N p + 127) :: px p) :=
  if_pos (startsRun_iff.2 h)

theorem choosePacket_raw (h : ¬ (p + 1 < N ∧ px p = px (p + 1))) :
    choosePacket px N p =
      (rawLength px N p, BitVec.ofNat 8 (rawLength px N p - 1) :: pixelRange px p (rawLength px N p)) :=
  if_neg (mt startsRun_iff.1 h)

theorem choosePacket_of_runCloses {L : Nat} (h : RunCloses px N p L) :
    choosePacket px N p = (L, BitVec.ofNat 8 (L + 127) :: px p) := by
  obtain ⟨hp, heq⟩ := h.starts_pair
  rw [choosePacket_run ⟨hp, heq⟩, (runLength_closes hp heq).unique h]

theorem choosePacket_of_rawCloses {k : Nat} (h : RawCloses px N p k) :
    choosePacket px N p = (k, BitVec.ofNat 8 (k - 1) :: pixelRange px p k) := by
  have hlow := h.one_le
  have hin := h.inside
  have hne : p + 1 < N → px p ≠ px (p + 1) := h.differ 0 hlow
  rw [choosePacket_raw fun hpair => hne hpair.1 hpair.2, (rawLength_closes (by omega) hne).unique h]

/-- At every pixel the packet chosen closes as R103 or as R104 says. -/
theorem closes_at (px : Nat → Pixel) (hp : p < N) : (∃ L, RunCloses px N p L) ∨ ∃ k, RawCloses px N p k := by
  by_cases h : p + 1 < N ∧ px p = px (p + 1)
  · exact .inl ⟨_, runLength_closes h.1 h.2⟩
  · exact .inr ⟨_, rawLength_closes hp fun hlt heq => h ⟨hlt, heq⟩⟩

theorem choosePacket_takes_pixel (px : Nat → Pixel) (hp : p < N) : 1 ≤ (choosePacket px N p).1 := by
  rcases closes_at px hp with ⟨L, h⟩ | ⟨k, h⟩
  · rw [choosePacket_of_runCloses h]
    exact Nat.le_of_succ_le h.two_le
  · rw [choosePacket_of_rawCloses h]
    exact h.one_le

theorem pixelRange_congr {px px' : Nat → Pixel} {p p' k : Nat} (h : ∀ j, j < k → px (p + j) = px' (p' + j)) :
    pixelRange px p k = pixelRange px' p' k :=
  congrArg List.flatten (List.map_congr_left fun j hj => h j (List.mem_range.1 hj))

/-- Which run closes at `p` depends on the pixels from `p` on alone. -/
theorem RunCloses.shift {px' : Nat → Pixel} {M L : Nat} (hL : RunCloses px' M 0 L) (h : ∀ j, j < M → px' j = px (p + j)) :
    RunCloses px (p + M) p L := by
  have hlow := hL.two_le
  have hin := hL.inside
  have h0 : px' 0 = px p := h 0 (by omega)
  refine ⟨hlow, hL.le_max, by omega, fun j hj => ?_, ?_⟩
  · rw [← h j (by omega), ← h0]
    simpa using hL.same j hj
  · rcases hL.closed with hfull | hend | hdiffer
    · exact .inl hfull
    · exact .inr (.inl (by omega))
    · rcases Nat.lt_or_ge L M with hlt | hge
      · refine .inr (.inr ?_)
        rw [← h L hlt, ← h0]
        simpa using hdiffer
      · exact .inr (.inl (by omega))

/-- Which raw packet closes at `p` depends on the pixels from `p` on alone. -/
theorem RawCloses.shift {px' : Nat → Pixel} {M k : Nat} (hk : RawCloses px' M 0 k) (h : ∀ j, j < M → px' j = px (p + j)) :
    RawCloses px (p + M) p k := by
  have hin := hk.inside
  refine ⟨hk.one_le, hk.le_max, by omega, fun j hj hlt => ?_, ?_⟩
  · rw [← h j (by omega), Nat.add_assoc, ← h (j + 1) (by omega)]
    simpa using hk.differ j hj (by omega)
  · rcases hk.closed with hfull | hend | ⟨hlt, heq⟩
    · exact .inl hfull
    · exact .inr (.inl (by omega))
    · refine .inr (.inr ⟨by omega, ?_⟩)
      rw [← h k (by omega), Nat.add_assoc, ← h (k + 1) (by omega)]
      simpa using heq

/-- The packet chosen at `p` depends on the pixels from `p` on alone. -/
theorem choosePacket_shift {px' : Nat → Pixel} {M : Nat} (hM : 0 < M) (h : ∀ j, j < M → px' j = px (p + j)) :
    choosePacket px (p + M) p = choosePacket px' M 0 := by
  rcases closes_at px' hM with ⟨L, hL⟩ | ⟨k, hk⟩
  · have hfirst : px' 0 = px p := h 0 hM
    rw [choosePacket_of_runCloses hL, choosePacket_of_runCloses (hL.shift h), hfirst]
  · have hin := hk.inside
    have hrange : pixelRange px p k = pixelRange px' 0 k :=
      pixelRange_congr fun j hj => by rw [Nat.zero_add, h j (by omega)]
    rw [choosePacket_of_rawCloses hk, choosePacket_of_rawCloses (hk.shift h), hrange]

end Sys2Proof.Machine
end

section
/-! SUPPORT. The function `enc` (spec/42_rle_encode.md R106): its recursion without the fuel, and the pixels of a list by
their index. -/

namespace Sys2Proof.Machine

/-! ### Pixels of a list -/

@[simp] theorem pixelOf_cons_zero (v : Pixel) (P : List Pixel) : pixelOf (v :: P) 0 = v := rfl

@[simp] theorem pixelOf_cons_succ (v : Pixel) (P : List Pixel) (i : Nat) : pixelOf (v :: P) (i + 1) = pixelOf P i := rfl

theorem pixelOf_eq_getElem {P : List Pixel} {i : Nat} (h : i < P.length) : pixelOf P i = P[i] := by
  rw [pixelOf, List.getD_eq_getElem P [] h]

theorem pixelOf_drop (P : List Pixel) (n i : Nat) : pixelOf (P.drop n) i = pixelOf P (n + i) := by
  simp [pixelOf, List.getD_eq_getElem?_getD]

/-- The first pixels of a list by their index are its first pixels. -/
theorem map_pixelOf_range {P : List Pixel} {k : Nat} (h : k ≤ P.length) : (List.range k).map (pixelOf P) = P.take k := by
  refine List.ext_getElem (by simpa using h) fun i hi hi' => ?_
  rw [List.length_take] at hi'
  simp [pixelOf_eq_getElem (show i < P.length by omega)]

theorem pixelRange_pixelOf {P : List Pixel} {k : Nat} (h : k ≤ P.length) :
    pixelRange (pixelOf P) 0 k = (P.take k).flatten := by
  rw [← map_pixelOf_range h, pixelRange]
  simp only [Nat.zero_add]

/-- A run packet starts a list whose second pixel is its first (R102). -/
theorem starts_pair_iff (v : Pixel) (P : List Pixel) :
    0 + 1 < P.length + 1 ∧ pixelOf (v :: P) 0 = pixelOf (v :: P) (0 + 1) ↔ P.head? = some v := by
  cases P with
  | nil => simp
  | cons w P => simp [eq_comm]

/-! ### The recursion of R106 -/

/-- The pixels after the first packet are fewer. -/
theorem length_after_choosePacket {P : List Pixel} (h : 0 < P.length) :
    (P.drop (choosePacket (pixelOf P) P.length 0).1).length < P.length := by
  have hpos := choosePacket_takes_pixel (pixelOf P) h
  rw [List.length_drop]
  omega

/-- Any fuel that is enough for a packet per pixel gives the same packets. -/
theorem encPacketsFuel_eq_encPacketsFuel (fuel : Nat) : ∀ {fuel' : Nat} (P : List Pixel), P.length ≤ fuel →
    P.length ≤ fuel' → encPacketsFuel fuel P = encPacketsFuel fuel' P := by
  induction fuel with
  | zero =>
    intro fuel' P h _
    rw [List.length_eq_zero_iff.1 (Nat.le_zero.1 h)]
    cases fuel' <;> rfl
  | succ fuel ih =>
    intro fuel' P h h'
    cases P with
    | nil => cases fuel' <;> rfl
    | cons v P =>
      have hpos : 0 < (v :: P).length := Nat.succ_pos _
      have hrest := length_after_choosePacket hpos
      obtain ⟨fuel', rfl⟩ := Nat.exists_eq_succ_of_ne_zero (Nat.ne_of_gt (Nat.lt_of_lt_of_le hpos h'))
      exact congrArg _ (ih _ (Nat.le_of_lt_succ (Nat.lt_of_lt_of_le hrest h))
        (Nat.le_of_lt_succ (Nat.lt_of_lt_of_le hrest h')))

theorem encPackets_nil : encPackets [] = [] := rfl

/-- `encPackets` of a nonempty list is the packet chosen at its first pixel, followed by those of the rest (R106). -/
theorem encPackets_of_pos {P : List Pixel} (h : 0 < P.length) :
    encPackets P = choosePacket (pixelOf P) P.length 0 ::
      encPackets (P.drop (choosePacket (pixelOf P) P.length 0).1) := by
  obtain ⟨v, P, rfl⟩ := List.exists_cons_of_length_pos h
  have hrest := length_after_choosePacket h
  exact congrArg _ (encPacketsFuel_eq_encPacketsFuel P.length _ (Nat.le_of_lt_succ hrest) (Nat.le_refl _))

@[simp] theorem bytesOf_nil : bytesOf [] = [] := rfl

@[simp] theorem bytesOf_cons (pkt : Nat × List Byte) (ps : List (Nat × List Byte)) :
    bytesOf (pkt :: ps) = pkt.2 ++ bytesOf ps := rfl

@[simp] theorem bytesOf_append (ps qs : List (Nat × List Byte)) : bytesOf (ps ++ qs) = bytesOf ps ++ bytesOf qs := by
  simp [bytesOf]

@[simp] theorem pixelsOf_append (ps qs : List (Nat × List Byte)) : pixelsOf (ps ++ qs) = pixelsOf ps + pixelsOf qs := by
  simp [pixelsOf]

/-- A packet chosen at the first pixel, in `enc` and in `encPackets`. -/
theorem enc_of_choosePacket {P : List Pixel} (h : 0 < P.length) {n : Nat} {bytes : List Byte}
    (hpkt : choosePacket (pixelOf P) P.length 0 = (n, bytes)) :
    enc P = bytes ++ enc (P.drop n) ∧ encPackets P = (n, bytes) :: encPackets (P.drop n) := by
  have hpackets := encPackets_of_pos h
  rw [hpkt] at hpackets
  exact ⟨by rw [enc, hpackets, bytesOf_cons, enc], hpackets⟩

/-- Settles O32: the fuel left over does not matter, and the packet chosen at the first pixel is R106's. -/
theorem encFollowsItsRecursion : Obligations.EncFollowsItsRecursion := by
  refine ⟨⟨rfl, encPackets_nil⟩, fun v P => ?_⟩
  intro px L k run raw
  have hpos : 0 < (v :: P).length := Nat.succ_pos _
  refine ⟨fun hpair => enc_of_choosePacket hpos (choosePacket_run ((starts_pair_iff v P).2 hpair)), fun hpair => ?_⟩
  have hsingle : ¬ (0 + 1 < P.length + 1 ∧ px 0 = px (0 + 1)) := mt (starts_pair_iff v P).1 hpair
  have hin : k ≤ (v :: P).length := by
    simpa using (rawLength_closes (px := px) (p := 0) hpos fun hlt heq => hsingle ⟨hlt, heq⟩).inside
  have hbytes : pixelRange px 0 k = ((v :: P).take k).flatten := pixelRange_pixelOf hin
  exact enc_of_choosePacket hpos ((choosePacket_raw hsingle).trans (by rw [hbytes]))

end Sys2Proof.Machine
end

section
/-! SUPPORT. The encoder's packets as a packet list (spec/42_rle_encode.md R107, R108): when a packet closes before the
pixels that follow it, that the encoder's packets are the lists whose packets all do, and that these are the canonical
lists. -/

namespace Sys2Proof.Machine

variable {C : Nat}

/-! ### A packet and the pixels after it -/

/-- The packet closes before the pixels `rest` as R103 and R104 say. -/
def Packet.Closes : Packet → List Pixel → Prop
  | .raw ps, rest => (ps ++ rest.take 1).IsChain (· ≠ ·) ∧ (ps.length = 128 ∨ rest = [] ∨ ∃ v P, rest = v :: v :: P)
  | .run L v, rest => 2 ≤ L ∧ (L = 128 ∨ rest.head? ≠ some v)

/-- Every packet of the list closes before the pixels of those after it. -/
def AllClose : List Packet → Prop
  | [] => True
  | p :: ps => p.Closes (packetPixels ps) ∧ AllClose ps

/-- Every packet has 1 to 128 pixels (R65). -/
def Packet.sized (p : Packet) : Prop := 1 ≤ p.pixels.length ∧ p.pixels.length ≤ 128

theorem Packet.wf_iff {p : Packet} : p.wf C ↔ p.sized ∧ ∀ v ∈ p.pixels, v.length = C := and_assoc.symm

@[simp] theorem packetPixels_nil : packetPixels [] = [] := rfl

@[simp] theorem packetPixels_cons (p : Packet) (ps : List Packet) : packetPixels (p :: ps) = p.pixels ++ packetPixels ps :=
  rfl

@[simp] theorem packetBytes_nil : packetBytes [] = [] := rfl

@[simp] theorem packetBytes_cons (p : Packet) (ps : List Packet) : packetBytes (p :: ps) = p.bytes ++ packetBytes ps := rfl

/-! ### The packet chosen -/

theorem pixelOf_append_right (P Q : List Pixel) (i : Nat) : pixelOf (P ++ Q) (P.length + i) = pixelOf Q i := by
  rw [pixelOf, List.getD_append_right _ _ _ _ (Nat.le_add_right ..), Nat.add_sub_cancel_left, pixelOf]

/-- A run that closes before `rest`, by index (R103). -/
theorem runCloses_iff {L : Nat} {v : Pixel} {rest : List Pixel} :
    RunCloses (pixelOf (List.replicate L v ++ rest)) (L + rest.length) 0 L ↔ (Packet.run L v).Closes rest ∧ L ≤ 128 := by
  have hsame : ∀ j, j < L → pixelOf (List.replicate L v ++ rest) j = v := fun j hj => by
    simp [pixelOf, List.getD_eq_getElem?_getD, List.getElem?_append, hj]
  have hnext : pixelOf (List.replicate L v ++ rest) L = pixelOf rest 0 := by
    simpa using pixelOf_append_right (List.replicate L v) rest 0
  constructor
  · intro h
    have hlow := h.two_le
    refine ⟨⟨hlow, h.closed.imp_right fun hclosed heq => ?_⟩, h.le_max⟩
    obtain ⟨rest, rfl⟩ := List.head?_eq_some_iff.1 heq
    rcases hclosed with hend | hdiffer
    · simp at hend
    · rw [Nat.zero_add, hnext, hsame 0 (by omega)] at hdiffer
      exact hdiffer rfl
  · rintro ⟨⟨hlow, hclosed⟩, hmax⟩
    refine ⟨hlow, hmax, by omega, fun j hj => ?_, hclosed.imp_right fun hdiffer => ?_⟩
    · rw [Nat.zero_add, hsame j hj, hsame 0 (by omega)]
    · cases rest with
      | nil => exact .inl (Nat.zero_add L)
      | cons w rest =>
        refine .inr ?_
        rw [Nat.zero_add, hnext, hsame 0 (by omega)]
        simpa using hdiffer

/-- A list differs from pixel to pixel exactly when its pixels by their index do. -/
theorem isChain_iff_pixelOf {P : List Pixel} :
    P.IsChain (· ≠ ·) ↔ ∀ i, i + 1 < P.length → pixelOf P i ≠ pixelOf P (i + 1) := by
  rw [List.isChain_iff_getElem]
  refine forall₂_congr fun i hi => ?_
  rw [pixelOf_eq_getElem hi, pixelOf_eq_getElem (Nat.lt_of_succ_lt hi)]

theorem pixelOf_take {P : List Pixel} {n i : Nat} (h : i < n) : pixelOf (P.take n) i = pixelOf P i := by
  simp [pixelOf, List.getD_eq_getElem?_getD, h]

/-- A list begins with two equal pixels exactly when its first two pixels by their index are inside and equal. -/
theorem exists_pair_iff {P : List Pixel} :
    (∃ v Q, P = v :: v :: Q) ↔ 1 < P.length ∧ pixelOf P 0 = pixelOf P 1 := by
  constructor
  · rintro ⟨v, Q, rfl⟩
    simp [pixelOf]
  · rintro ⟨hlen, heq⟩
    match P, hlen with
    | v :: w :: Q, _ => exact ⟨v, Q, by simpa [pixelOf, eq_comm] using heq⟩

/-- A raw packet that closes before `rest`, by index (R104). -/
theorem rawCloses_iff {ps rest : List Pixel} :
    RawCloses (pixelOf (ps ++ rest)) (ps.length + rest.length) 0 ps.length ↔
      (Packet.raw ps).Closes rest ∧ (Packet.raw ps).sized := by
  have htake : ps ++ rest.take 1 = (ps ++ rest).take (ps.length + 1) := (List.take_length_add_append ..).symm
  have hdiffer : (ps ++ rest.take 1).IsChain (· ≠ ·) ↔ ∀ j, j < ps.length → 0 + j + 1 < ps.length + rest.length →
      pixelOf (ps ++ rest) (0 + j) ≠ pixelOf (ps ++ rest) (0 + j + 1) := by
    rw [htake, isChain_iff_pixelOf, List.length_take, List.length_append]
    refine forall_congr' fun j => ?_
    rw [Nat.zero_add]
    constructor
    · intro h hj hin
      have := h (by omega)
      rwa [pixelOf_take (by omega), pixelOf_take (by omega)] at this
    · intro h hj
      rw [pixelOf_take (by omega), pixelOf_take (by omega)]
      exact h (by omega) (by omega)
  have hpair : (∃ v P, rest = v :: v :: P) ↔ 0 + ps.length + 1 < ps.length + rest.length ∧
      pixelOf (ps ++ rest) (0 + ps.length) = pixelOf (ps ++ rest) (0 + ps.length + 1) := by
    rw [exists_pair_iff, Nat.zero_add, pixelOf_append_right, ← pixelOf_append_right ps rest 0, Nat.add_zero,
      Nat.add_lt_add_iff_left]
  have hend : rest = [] ↔ 0 + ps.length = ps.length + rest.length := by
    rw [← List.length_eq_zero_iff]
    omega
  rw [Packet.Closes, hdiffer, hpair, hend]
  exact ⟨fun h => ⟨⟨h.differ, h.closed⟩, h.one_le, h.le_max⟩,
    fun ⟨⟨hdiffer, hclosed⟩, hlow, hmax⟩ => ⟨hlow, hmax, by omega, hdiffer, hclosed⟩⟩

/-- The encoder chooses a packet that closes before the pixels after it (R101). -/
theorem choosePacket_of_closes {p : Packet} {rest : List Pixel} (hsize : p.sized) (h : p.Closes rest) :
    choosePacket (pixelOf (p.pixels ++ rest)) (p.pixels ++ rest).length 0 = (p.pixels.length, p.bytes) := by
  rw [List.length_append]
  cases p with
  | raw ps =>
    have hbytes : pixelRange (pixelOf (ps ++ rest)) 0 ps.length = ps.flatten := by
      rw [pixelRange_pixelOf (by simp), List.take_left]
    rw [Packet.pixels, choosePacket_of_rawCloses (rawCloses_iff.2 ⟨h, hsize⟩), hbytes, Packet.bytes]
  | run L v =>
    have hL : (Packet.run L v).pixels.length = L := List.length_replicate
    have hlow : 2 ≤ L := h.1
    obtain ⟨n, rfl⟩ := Nat.exists_eq_add_of_le' (Nat.lt_of_lt_of_le Nat.zero_lt_two hlow)
    rw [hL, Packet.pixels, choosePacket_of_runCloses (runCloses_iff.2 ⟨h, hL ▸ hsize.2⟩)]
    rfl

/-- Every nonempty pixel list begins with a packet that closes before the pixels after it (R101). -/
theorem exists_packet_closes {P : List Pixel} (h : P ≠ []) :
    ∃ (p : Packet) (rest : List Pixel), P = p.pixels ++ rest ∧ p.sized ∧ p.Closes rest := by
  rcases closes_at (pixelOf P) (List.length_pos_iff.2 h) with ⟨L, hL⟩ | ⟨k, hk⟩
  · have hin : L ≤ P.length := by simpa using hL.inside
    have hsame : P.take L = List.replicate L (pixelOf P 0) := by
      rw [← map_pixelOf_range hin, List.map_eq_replicate_iff.2, List.length_range]
      intro j hj
      simpa using hL.same j (List.mem_range.1 hj)
    have hsplit : P = List.replicate L (pixelOf P 0) ++ P.drop L := by rw [← hsame, List.take_append_drop]
    have hlen : P.length = L + (P.drop L).length := by rw [List.length_drop]; omega
    generalize pixelOf P 0 = v at hsplit
    generalize P.drop L = rest at hsplit hlen
    rw [hlen, hsplit] at hL
    obtain ⟨hcloses, hmax⟩ := runCloses_iff.1 hL
    have hlow := hL.two_le
    have hpixels : (Packet.run L v).pixels.length = L := List.length_replicate
    exact ⟨.run L v, rest, hsplit, ⟨by omega, by omega⟩, hcloses⟩
  · have hin : k ≤ P.length := by simpa using hk.inside
    have hlen : P.length = (P.take k).length + (P.drop k).length := by rw [← List.length_append, List.take_append_drop]
    have hk' : (P.take k).length = k := List.length_take_of_le hin
    have hsplit : P = P.take k ++ P.drop k := (List.take_append_drop k P).symm
    generalize P.take k = ps at hsplit hlen hk'
    generalize P.drop k = rest at hsplit hlen
    rw [hlen, hsplit, ← hk'] at hk
    obtain ⟨hcloses, hsize⟩ := rawCloses_iff.1 hk
    exact ⟨.raw ps, rest, hsplit, hsize, hcloses⟩

/-! ### The encoder's packets -/

/-- The encoder writes the packets of a list whose packets all close, for the pixels of the list (R106). -/
theorem enc_packetPixels {ps : List Packet} (hsize : ∀ p ∈ ps, p.sized) (h : AllClose ps) :
    enc (packetPixels ps) = packetBytes ps ∧ encPackets (packetPixels ps) = ps.map fun p => (p.pixels.length, p.bytes) := by
  induction ps with
  | nil => exact ⟨rfl, rfl⟩
  | cons p ps ih =>
    obtain ⟨hp, hps⟩ := List.forall_mem_cons.1 hsize
    obtain ⟨hcloses, hall⟩ := h
    have hpos : 0 < (p.pixels ++ packetPixels ps).length := by
      rw [List.length_append]
      exact Nat.lt_of_lt_of_le hp.1 (Nat.le_add_right ..)
    obtain ⟨henc, hpackets⟩ := enc_of_choosePacket hpos (choosePacket_of_closes hp hcloses)
    obtain ⟨ihenc, ihpackets⟩ := ih hps hall
    rw [List.drop_left] at henc hpackets
    rw [packetPixels_cons, henc, hpackets, ihenc, ihpackets]
    exact ⟨rfl, rfl⟩

/-- Every pixel list is the pixels of a list of packets that all close. -/
theorem exists_packets_close (P : List Pixel) :
    ∃ ps : List Packet, packetPixels ps = P ∧ (∀ p ∈ ps, p.sized) ∧ AllClose ps := by
  induction hn : P.length using Nat.strongRecOn generalizing P with
  | ind n ih =>
    by_cases hP : P = []
    · exact ⟨[], hP.symm, List.forall_mem_nil _, trivial⟩
    · obtain ⟨p, rest, rfl, hsize, hcloses⟩ := exists_packet_closes hP
      have hlt : rest.length < n := by
        rw [← hn, List.length_append]
        exact Nat.lt_add_of_pos_left hsize.1
      obtain ⟨ps, rfl, hsizes, hall⟩ := ih _ hlt rest rfl
      exact ⟨p :: ps, rfl, List.forall_mem_cons.2 ⟨hsize, hsizes⟩, hcloses, hall⟩

/-- The packets of a list for pixels of `C` bytes have pixels of `C` bytes. -/
theorem wf_of_packetPixels {ps : List Packet} (hsize : ∀ p ∈ ps, p.sized) (hC : ∀ v ∈ packetPixels ps, v.length = C) :
    ∀ p ∈ ps, p.wf C := fun p hp =>
  Packet.wf_iff.2 ⟨hsize p hp, fun v hv => hC v (List.mem_flatten.2 ⟨_, List.mem_map_of_mem hp, hv⟩)⟩

/-- The encoder's packets as a packet list (R106). -/
theorem exists_packets_enc {P : List Pixel} (hC : ∀ v ∈ P, v.length = C) :
    ∃ ps : List Packet, packetPixels ps = P ∧ packetBytes ps = enc P ∧ (∀ p ∈ ps, p.wf C) ∧ AllClose ps := by
  obtain ⟨ps, rfl, hsize, hall⟩ := exists_packets_close P
  exact ⟨ps, rfl, (enc_packetPixels hsize hall).1.symm, wf_of_packetPixels hsize hC, hall⟩

end Sys2Proof.Machine
end

section
/-! SUPPORT. The encoder and the decoder together (spec/42_rle_encode.md R107, R108): a packet list is decoded to its
pixels, its bytes say which packets it has, and the encoder's lists are the canonical ones. -/

namespace Sys2Proof.Machine

variable {C : Nat} {p q : Packet}

/-! ### A packet's control byte and payload -/

/-- The kind of a packet (R65). -/
def Packet.kind : Packet → PacketKind
  | .raw _ => .raw
  | .run _ _ => .run

/-- The control byte of a packet (R69, R76). -/
def Packet.control : Packet → Byte
  | .raw ps => BitVec.ofNat 8 (ps.length - 1)
  | .run L _ => BitVec.ofNat 8 (L + 127)

/-- The payload of a packet (R67). -/
def Packet.payload : Packet → List Byte
  | .raw ps => ps.flatten
  | .run _ v => v

theorem Packet.bytes_eq (p : Packet) : p.bytes = p.control :: p.payload := by cases p <;> rfl

theorem Packet.pixels_raw (ps : List Pixel) : (Packet.raw ps).pixels = ps := rfl

theorem Packet.length_pixels_run (L : Nat) (v : Pixel) : (Packet.run L v).pixels.length = L := List.length_replicate

/-- The control byte of a packet holds its kind and its pixel count (R65, R66, R69). -/
theorem Packet.decode_control (h : p.sized) :
    controlKind p.control = p.kind ∧ controlPixels p.control = p.pixels.length := by
  obtain ⟨hlow, hmax⟩ := h
  rw [controlPixels_eq]
  cases p with
  | raw ps =>
    rw [Packet.pixels_raw] at hlow hmax ⊢
    have hcontrol : (Packet.raw ps).control.toNat = ps.length - 1 := Nat.mod_eq_of_lt (by omega)
    exact ⟨controlKind_of_lt (by omega), by omega⟩
  | run L v =>
    rw [Packet.length_pixels_run] at hlow hmax ⊢
    have hcontrol : (Packet.run L v).control.toNat = L + 127 := Nat.mod_eq_of_lt (by omega)
    exact ⟨controlKind_of_ge (by omega), by omega⟩

theorem length_flatten_of_forall {P : List Pixel} (h : ∀ v ∈ P, v.length = C) : P.flatten.length = P.length * C := by
  rw [List.length_flatten, List.map_congr_left h, List.map_const', List.sum_replicate_nat]

/-- The payload of a packet has the length its control byte says, and is expanded to the packet's pixels (R67, R90,
R91). -/
theorem Packet.decode_payload (h : p.wf C) :
    controlPayload p.control C = p.payload.length ∧ expandPayload p.control p.payload = p.pixels.flatten := by
  obtain ⟨hsize, hC⟩ := Packet.wf_iff.1 h
  obtain ⟨hkind, hpixels⟩ := Packet.decode_control hsize
  rw [controlPayload, expandPayload, hkind]
  cases p with
  | raw ps => exact ⟨(congrArg (· * C) hpixels).trans (length_flatten_of_forall hC).symm, rfl⟩
  | run L v =>
    rw [Packet.length_pixels_run] at hpixels
    have hlow : 1 ≤ L := hpixels ▸ (controlPixels_bounds _).1
    have hv : v.length = C := hC v (List.mem_replicate.2 ⟨Nat.ne_of_gt hlow, rfl⟩)
    exact ⟨hv.symm, congrArg (repeatBytes v) hpixels⟩

/-! ### Decoding a packet list (R97, R107 (b)) -/

/-- `dec` takes a packet off the front of a stream (R97). -/
theorem dec_packet {t : Terminal} (h : p.wf C) (s : List Byte) (r : Nat) :
    dec t (p.bytes ++ s) (p.pixels.length + r) C = (dec t s r C).after p.pixels.flatten p.bytes.length := by
  obtain ⟨-, hpixels⟩ := Packet.decode_control (Packet.wf_iff.1 h).1
  obtain ⟨hpayload, hexpand⟩ := Packet.decode_payload h
  have hroom : controlPixels p.control ≤ p.pixels.length + r := by omega
  have hwhole : controlPayload p.control C ≤ (p.payload ++ s).length := by rw [List.length_append]; omega
  rw [p.bytes_eq, List.cons_append, (dec_whole hroom hwhole).1, hpixels, hpayload, List.take_left, List.drop_left,
    hexpand, Nat.add_sub_cancel_left, List.length_cons, Nat.add_comm 1]

/-- `dec` of a packet list's bytes gives its pixels' bytes and uses exactly the list's bytes. -/
theorem dec_packetBytes {t : Terminal} {ps : List Packet} (h : ∀ p ∈ ps, p.wf C) (s : List Byte) :
    dec t (packetBytes ps ++ s) (packetPixels ps).length C = .ok (packetPixels ps).flatten (packetBytes ps).length := by
  induction ps with
  | nil => exact (dec_zero s).1
  | cons p ps ih =>
    obtain ⟨hp, hps⟩ := List.forall_mem_cons.1 h
    rw [packetBytes_cons, packetPixels_cons, List.append_assoc, List.length_append, dec_packet hp, ih hps,
      DecResult.after, List.flatten_append, List.length_append]

/-- Settles O34: the encoder's bytes are those of a packet list, which `dec` takes packet by packet. -/
theorem decodeOfEncodedPixels : Obligations.DecodeOfEncodedPixels := by
  intro t C P rest _ _ hC
  obtain ⟨ps, rfl, hbytes, hwf, -⟩ := exists_packets_enc hC
  rw [← hbytes]
  exact dec_packetBytes hwf rest

/-! ### The size of the encoder's output (R107) -/

/-- A packet has its control byte and one pixel's bytes at least, and all its pixels' bytes at most (R67). -/
theorem Packet.length_bytes_bounds (h : p.wf C) :
    1 + C ≤ p.bytes.length ∧ p.bytes.length ≤ 1 + p.pixels.length * C := by
  obtain ⟨-, hpixels⟩ := Packet.decode_control (Packet.wf_iff.1 h).1
  obtain ⟨hpayload, -⟩ := Packet.decode_payload h
  obtain ⟨hlow, hhigh⟩ := controlPayload_bounds p.control C
  rw [hpayload] at hlow hhigh
  rw [hpixels] at hhigh
  rw [p.bytes_eq, List.length_cons]
  omega

/-- A packet list has a packet per pixel at most, a packet per 128 pixels at least, and bytes accordingly. -/
theorem length_packetBytes_bounds {ps : List Packet} (h : ∀ p ∈ ps, p.wf C) :
    ps.length ≤ (packetPixels ps).length ∧ ((packetPixels ps).length + 127) / 128 * (1 + C) ≤ (packetBytes ps).length ∧
      (packetBytes ps).length ≤ (packetPixels ps).length * C + ps.length := by
  induction ps with
  | nil => simp
  | cons p ps ih =>
    obtain ⟨hp, hps⟩ := List.forall_mem_cons.1 h
    obtain ⟨hcount, hlow, hhigh⟩ := ih hps
    obtain ⟨hplow, hphigh⟩ := Packet.length_bytes_bounds hp
    obtain ⟨⟨hone, hmax⟩, -⟩ := Packet.wf_iff.1 hp
    rw [packetPixels_cons, packetBytes_cons, List.length_append, List.length_append, List.length_cons]
    generalize p.pixels.length = n at *
    generalize (packetPixels ps).length = N at *
    have hpackets : (n + N + 127) / 128 ≤ (N + 127) / 128 + 1 := by omega
    refine ⟨by omega, ?_, ?_⟩
    · calc (n + N + 127) / 128 * (1 + C) ≤ ((N + 127) / 128 + 1) * (1 + C) := Nat.mul_le_mul_right _ hpackets
        _ = (N + 127) / 128 * (1 + C) + (1 + C) := Nat.succ_mul ..
        _ ≤ p.bytes.length + (packetBytes ps).length := by omega
    · rw [Nat.add_mul]
      omega

/-- A single pixel is a raw packet of one literal (R107 (d)). -/
theorem enc_single (v : Pixel) : enc [v] = 0x00 :: v := by
  have hcloses : AllClose [.raw [v]] := ⟨⟨List.isChain_singleton v, .inr (.inl rfl)⟩, trivial⟩
  have hsize : ∀ p ∈ [Packet.raw [v]], p.sized := by simp [Packet.sized, Packet.pixels]
  simpa [Packet.bytes, packetPixels, packetBytes, Packet.pixels] using (enc_packetPixels hsize hcloses).1

/-- Settles O35: the bounds of a packet list of the encoder's bytes. -/
theorem encoderOutputBounds : Obligations.EncoderOutputBounds := by
  intro C P _ hC
  obtain ⟨ps, rfl, hbytes, hwf, -⟩ := exists_packets_enc hC
  obtain ⟨hcount, hlow, hhigh⟩ := length_packetBytes_bounds hwf
  refine ⟨⟨ps, hbytes, rfl, hcount, fun p hp => (Packet.wf_iff.1 (hwf p hp)).1⟩, ?_, ?_, ?_⟩
  · rintro v hv
    rw [hv, enc_single]
  · rwa [← hbytes]
  · rw [← hbytes]
    omega

/-! ### The bytes of a packet list say which packets it has (R76) -/

/-- A packet is its kind and its pixels. -/
theorem Packet.eq_of_kind_of_pixels (hp : p.sized) (hkind : p.kind = q.kind) (hpixels : p.pixels = q.pixels) : p = q := by
  cases p with
  | raw ps =>
    cases q with
    | raw qs => exact congrArg Packet.raw hpixels
    | run M w => cases hkind
  | run L v =>
    cases q with
    | raw qs => cases hkind
    | run M w =>
      have hlow := hp.1
      rw [Packet.length_pixels_run] at hlow
      obtain ⟨rfl, hv⟩ := List.replicate_inj.1 hpixels
      rw [hv.resolve_left (by omega)]

/-- The first packet of a stream, and what follows it (R67, R76). -/
theorem Packet.bytes_append_inj (hp : p.wf C) (hq : q.wf C) {s s' : List Byte} (h : p.bytes ++ s = q.bytes ++ s') :
    p = q ∧ s = s' := by
  obtain ⟨hpsize, hpC⟩ := Packet.wf_iff.1 hp
  obtain ⟨hqsize, hqC⟩ := Packet.wf_iff.1 hq
  obtain ⟨hpkind, -⟩ := Packet.decode_control hpsize
  obtain ⟨hqkind, -⟩ := Packet.decode_control hqsize
  obtain ⟨hplen, hpexpand⟩ := Packet.decode_payload hp
  obtain ⟨hqlen, hqexpand⟩ := Packet.decode_payload hq
  rw [p.bytes_eq, q.bytes_eq, List.cons_append, List.cons_append, List.cons.injEq] at h
  obtain ⟨hcontrol, htail⟩ := h
  obtain ⟨hpayload, hs⟩ := List.append_inj htail (by rw [← hplen, ← hqlen, hcontrol])
  have hflatten : p.pixels.flatten = q.pixels.flatten := by rw [← hpexpand, ← hqexpand, hcontrol, hpayload]
  have hcount : p.pixels.length = q.pixels.length := by
    rw [← (Packet.decode_control hpsize).2, ← (Packet.decode_control hqsize).2, hcontrol]
  have hlengths : p.pixels.map List.length = q.pixels.map List.length := by
    rw [List.map_congr_left hpC, List.map_congr_left hqC, List.map_const', List.map_const', hcount]
  have hpixels : p.pixels = q.pixels := List.eq_iff_flatten_eq.2 ⟨hflatten, hlengths⟩
  exact ⟨Packet.eq_of_kind_of_pixels hpsize (by rw [← hpkind, ← hqkind, hcontrol]) hpixels, hs⟩

theorem packetBytes_inj {ps : List Packet} : ∀ {qs : List Packet}, (∀ p ∈ ps, p.wf C) → (∀ q ∈ qs, q.wf C) →
    packetBytes ps = packetBytes qs → ps = qs := by
  induction ps with
  | nil =>
    intro qs _ _ h
    cases qs with
    | nil => rfl
    | cons q qs => rw [packetBytes_cons, q.bytes_eq] at h; cases h
  | cons p ps ih =>
    intro qs hps hqs h
    cases qs with
    | nil => rw [packetBytes_cons, p.bytes_eq] at h; cases h
    | cons q qs =>
      obtain ⟨hp, hps'⟩ := List.forall_mem_cons.1 hps
      obtain ⟨hq, hqs'⟩ := List.forall_mem_cons.1 hqs
      obtain ⟨hpq, hrest⟩ := Packet.bytes_append_inj hp hq h
      rw [hpq, ih hps' hqs' hrest]

/-! ### The canonical lists (R108) -/

/-- A raw packet that closes does not begin with a pair of equal pixels (R104). -/
theorem not_pair_of_raw_closes {qs P : List Pixel} (hqs : 1 ≤ qs.length) (h : (Packet.raw qs).Closes P) (v : Pixel)
    (Q : List Pixel) : qs ++ P ≠ v :: v :: Q := by
  intro hpair
  obtain ⟨hchain, -⟩ := h
  match qs, P, hqs with
  | [_], [], _ => cases hpair
  | [_], _ :: _, _ =>
    cases hpair
    exact (List.isChain_cons_cons.1 hchain).1 rfl
  | _ :: _ :: _, _, _ =>
    cases hpair
    exact (List.isChain_cons_cons.1 hchain).1 rfl

theorem isChain_ne_append_singleton {ps : List Pixel} {w : Pixel} :
    (ps ++ [w]).IsChain (· ≠ ·) ↔ ps.IsChain (· ≠ ·) ∧ ps.getLast? ≠ some w := by
  simp only [List.isChain_append, List.isChain_singleton, List.head?_cons, Option.mem_def, Option.some.injEq, forall_eq',
    true_and]
  exact and_congr_right fun _ => ⟨fun h heq => h w heq rfl, fun h x hx hxw => h (hxw ▸ hx)⟩

/-- The last packet of a list closes exactly when R108 (i) and (ii) hold of it. -/
theorem canonical_iff_closes_nil : p.canonical ↔ p.Closes [] := by
  cases p <;> simp [Packet.canonical, Packet.Closes]

/-- A packet closes before one that closes exactly when R108 (i) to (v) hold of the two. -/
theorem canonical_iff_closes_cons {P : List Pixel} (hp : p.sized) (hq : q.sized) (hcloses : q.Closes P) :
    (p.canonical ∧ p.mayPrecede q ∧ p.lastDiffers q) ↔ p.Closes (q.pixels ++ P) := by
  obtain ⟨w, Q, hfirst⟩ := List.exists_cons_of_length_pos hq.1
  have hhead : q.first = some w := by rw [Packet.first, hfirst, List.head?_cons]
  have hnil : q.pixels ++ P ≠ [] := by simp [hfirst]
  cases p with
  | run L v =>
    have hmax : L ≤ 128 := Packet.length_pixels_run L v ▸ hp.2
    simp only [Packet.canonical, Packet.mayPrecede, Packet.lastDiffers, Packet.Closes, and_true, hhead, hfirst,
      List.cons_append, List.head?_cons]
    exact and_congr_right fun _ => ⟨fun h => (Nat.eq_or_lt_of_le hmax).imp_right h,
      fun h hlt => h.resolve_left (Nat.ne_of_lt hlt)⟩
  | raw ps =>
    have hone : (q.pixels ++ P).take 1 = [w] := by rw [hfirst]; rfl
    have hnext : (Packet.raw ps).mayPrecede q ↔ ps.length = 128 ∨ ∃ v R, q.pixels ++ P = v :: v :: R := by
      cases q with
      | raw qs =>
        have hnone : ¬ ∃ v R, qs ++ P = v :: v :: R := fun ⟨v, R, h⟩ => not_pair_of_raw_closes hq.1 hcloses v R h
        exact (or_iff_left hnone).symm
      | run M u =>
        obtain ⟨m, rfl⟩ := Nat.exists_eq_add_of_le' hcloses.1
        exact ⟨fun _ => .inr ⟨u, List.replicate m u ++ P, rfl⟩, fun _ => trivial⟩
    simp only [Packet.Closes, hone, isChain_ne_append_singleton, hnil, false_or, ← hnext, Packet.canonical,
      Packet.lastDiffers, hhead]
    exact ⟨fun ⟨hchain, hmay, hlast⟩ => ⟨⟨hchain, hlast⟩, hmay⟩, fun ⟨⟨hchain, hlast⟩, hmay⟩ => ⟨hchain, hmay, hlast⟩⟩

theorem canonicalPackets_cons_cons {ps : List Packet} :
    canonicalPackets (p :: q :: ps) ↔
      (p.canonical ∧ p.mayPrecede q ∧ p.lastDiffers q) ∧ canonicalPackets (q :: ps) := by
  simp only [canonicalPackets, List.forall_mem_cons (l := q :: ps), List.isChain_cons_cons]
  tauto

/-- The canonical lists are those whose packets all close. -/
theorem canonicalPackets_iff_allClose {ps : List Packet} (h : ∀ p ∈ ps, p.sized) : canonicalPackets ps ↔ AllClose ps := by
  induction ps with
  | nil => simp [canonicalPackets, AllClose]
  | cons p ps ih =>
    obtain ⟨hp, hps⟩ := List.forall_mem_cons.1 h
    cases ps with
    | nil => simp [canonicalPackets, AllClose, canonical_iff_closes_nil]
    | cons q ps =>
      have hq := hps q List.mem_cons_self
      rw [canonicalPackets_cons_cons, ih hps, AllClose]
      refine and_congr_left fun hall => ?_
      exact canonical_iff_closes_cons hp hq hall.1

/-- Settles O36: the canonical lists are those whose packets all close, which the encoder writes; a list with the
encoder's bytes is the encoder's list. -/
theorem canonicalStreams : Obligations.CanonicalStreams := by
  have hsized : ∀ {C : Nat} {ps : List Packet}, (∀ p ∈ ps, p.wf C) → ∀ p ∈ ps, p.sized := fun h p hp =>
    (Packet.wf_iff.1 (h p hp)).1
  refine ⟨fun C P hC => ?_, fun C ps hwf => ⟨fun hcanonical => ?_, fun henc => ?_⟩⟩
  · obtain ⟨ps, hpixels, hbytes, hwf, hall⟩ := exists_packets_enc hC
    exact ⟨ps, hwf, (canonicalPackets_iff_allClose (hsized hwf)).2 hall, hbytes, hpixels⟩
  · exact (enc_packetPixels (hsized hwf) ((canonicalPackets_iff_allClose (hsized hwf)).1 hcanonical)).1
  · have hC : ∀ v ∈ packetPixels ps, v.length = C := fun v hv => by
      obtain ⟨_, hmem, hv⟩ := List.mem_flatten.1 hv
      obtain ⟨p, hp, rfl⟩ := List.mem_map.1 hmem
      exact (Packet.wf_iff.1 (hwf p hp)).2 v hv
    obtain ⟨qs, -, hbytes, hqwf, hall⟩ := exists_packets_enc hC
    rw [packetBytes_inj hwf hqwf (henc.symm.trans hbytes.symm)]
    exact (canonicalPackets_iff_allClose (hsized hqwf)).2 hall

end Sys2Proof.Machine
end

section
/-! SUPPORT. The packet step of RLE_ENCODE (spec/42_rle_encode.md R101, R102): the packet chosen from PBUF, written whole
or cut short by the sink. -/

namespace Sys2Proof.Machine

variable {s : State}

/-! ### Pixels of PBUF -/

theorem Memory.readBytes_add (m : Memory) (a x y : Nat) :
    m.readBytes a (x + y) = m.readBytes a x ++ m.readBytes (a + x) y := by
  simp only [Memory.readBytes, List.range_add, List.map_append, List.map_map, Function.comp_def, Nat.add_assoc]

/-- Adjacent pixels are adjacent bytes (R37, R38). -/
theorem pixelRange_px (s : State) (p n : Nat) :
    pixelRange s.px p n = s.pbuf.readBytes (p * s.channels) (n * s.channels) := by
  induction n with
  | zero => rw [Nat.zero_mul]; rfl
  | succ n ih =>
    have hlast : s.px (p + n) = s.pbuf.readBytes (p * s.channels + n * s.channels) s.channels := by
      rw [← Nat.add_mul]
      rfl
    rw [Nat.succ_mul, Memory.readBytes_add, ← ih, ← hlast, pixelRange, List.range_succ]
    simp [pixelRange]

/-! ### The packet step -/

/-- The packet that the encoder chooses at its cursor: its pixel count and its bytes (R101). -/
def State.nextPacket (s : State) : Nat × List Byte := choosePacket s.px s.pixels s.eng.pcur

/-- The state after a packet was written whole (R101). -/
def State.wrotePacket (s : State) (pkt : Nat × List Byte) : State :=
  { s.accepted pkt.2 with
    eng := { s.eng with pcur := s.eng.pcur + pkt.1 }
    pixCount := BitVec.ofNat 32 (s.eng.pcur + pkt.1)
    pktCount := s.pktCount + 1 }

/-- The state after the sink failed with `k` bytes of `bytes` written (R101, R117). -/
def State.cutShort (s : State) (bytes : List Byte) (k : Nat) : State :=
  raise .sinkUnavailable 0x00 (s.accepted (bytes.take k))

theorem exec_rleEncode_packet (hop : s.eng.op = .encoding) (hleft : s.eng.pcur < s.pixels) :
    exec .rleEncode s = encodePacket s := by
  show execRleEncode s = _
  rw [execRleEncode, hop]
  exact if_pos hleft

theorem encodePacket_room (h : s.sinkRoom s.nextPacket.2.length = s.nextPacket.2.length) :
    encodePacket s = .next (s.wrotePacket s.nextPacket) :=
  (encodePacket_eq s).trans (if_pos h)

theorem encodePacket_full (h : s.sinkRoom s.nextPacket.2.length ≠ s.nextPacket.2.length) :
    encodePacket s = .next (s.cutShort s.nextPacket.2 (s.sinkRoom s.nextPacket.2.length)) :=
  (encodePacket_eq s).trans (if_neg h)

theorem nextPacket_pos (hleft : s.eng.pcur < s.pixels) : 0 < s.nextPacket.2.length := by
  obtain ⟨-, -, -, hbytes, -⟩ := choosePacket_bounds s.px s.pixels s.eng.pcur s.channels
    (fun _ => Memory.length_readBytes ..) hleft
  exact Nat.lt_of_lt_of_le (by omega) hbytes

/-- What a packet step of RLE_ENCODE can do: write the packet whole, or fail with as many of its bytes as the sink has
room for (R43, R101). -/
theorem encodePacket_room_or_full (hleft : s.eng.pcur < s.pixels) :
    (encodePacket s = .next (s.wrotePacket s.nextPacket) ∧
        ∀ limit, s.params.sinkLimit = some limit → s.sinkOut.length + s.nextPacket.2.length ≤ limit) ∨
      ∃ limit, encodePacket s = .next (s.cutShort s.nextPacket.2 (limit - s.sinkOut.length)) ∧
        s.params.sinkLimit = some limit ∧ limit < s.sinkOut.length + s.nextPacket.2.length := by
  have hiff := s.sinkRoom_eq_self_iff (nextPacket_pos hleft)
  by_cases hroom : s.sinkRoom s.nextPacket.2.length = s.nextPacket.2.length
  · exact .inl ⟨encodePacket_room hroom, hiff.1 hroom⟩
  · have hstep := encodePacket_full hroom
    rw [hiff] at hroom
    push Not at hroom
    obtain ⟨limit, hlimit, hfull⟩ := hroom
    have hk : s.sinkRoom s.nextPacket.2.length = limit - s.sinkOut.length := by
      rw [State.sinkRoom, hlimit]
      exact Nat.min_eq_right (by omega)
    exact .inr ⟨limit, hk ▸ hstep, hlimit, hfull⟩

/-- The packet as R101 spells it out, with its bytes read from PBUF. -/
theorem nextPacket_eq {n : Nat} {pkt : List Byte}
    (h : let p := s.eng.pcur
      let C := s.channels
      let run := p + 1 < s.pixels ∧ s.pbuf.readBytes (p * C) C = s.pbuf.readBytes ((p + 1) * C) C
      (run ∧ n = runLength s.px s.pixels p ∧ pkt = BitVec.ofNat 8 (n + 127) :: s.pbuf.readBytes (p * C) C) ∨
        (¬ run ∧ n = rawLength s.px s.pixels p ∧
          pkt = BitVec.ofNat 8 (n - 1) :: s.pbuf.readBytes (p * C) (n * C))) :
    s.nextPacket = (n, pkt) := by
  rcases h with ⟨hrun, rfl, rfl⟩ | ⟨hraw, rfl, rfl⟩
  · exact choosePacket_run hrun
  · rw [← pixelRange_px]
    exact choosePacket_raw hraw

/-- Settles O31: the packet chosen is R101's, and the sink has room for it or fails inside it. -/
theorem encodePacketStep : Obligations.EncodePacketStep := by
  intro s hop hleft p C run n pkt hpkt
  have hnext : s.nextPacket = (n, pkt) := nextPacket_eq hpkt
  have hexec := exec_rleEncode_packet hop hleft
  rcases encodePacket_room_or_full hleft with ⟨hstep, hroom⟩ | ⟨limit, hstep, hlimit, hfull⟩
  · rw [hnext] at hstep hroom
    exact ⟨_, hexec.trans hstep, fun _ => ⟨rfl, hop, rfl, rfl, rfl, rfl, rfl⟩,
      fun limit hlimit hfull => absurd (hroom limit hlimit) (Nat.not_le.2 hfull), rfl, ⟨rfl, rfl⟩, ⟨rfl, rfl, rfl⟩,
      ⟨rfl, rfl⟩, ⟨rfl, rfl, rfl, rfl⟩⟩
  · rw [hnext] at hstep hfull
    refine ⟨_, hexec.trans hstep, fun hroom => absurd (hroom limit hlimit) (Nat.not_le.2 hfull), fun limit' hlimit' _ => ?_,
      rfl, ⟨rfl, rfl⟩, ⟨rfl, rfl, rfl⟩, ⟨rfl, rfl⟩, ⟨rfl, rfl, rfl, rfl⟩⟩
    obtain rfl : limit = limit' := Option.some.inj (hlimit.symm.trans hlimit')
    have hfull : limit < s.sinkOut.length + pkt.length := hfull
    have hk : (pkt.take (limit - s.sinkOut.length)).length = limit - s.sinkOut.length :=
      List.length_take_of_le (by omega)
    refine ⟨endsErr_raise (by rfl) .sinkUnavailable 0x00, rfl, ?_, ⟨rfl, rfl⟩⟩
    rw [State.cutShort, raise_outCount, State.accepted, hk]

end Sys2Proof.Machine
end

section
/-! SUPPORT. RLE_ENCODE computes `enc` (spec/42_rle_encode.md R100 to R106): what holds of a running encode with respect
to the state it was issued in, each of its packet steps beside one round of the recursion, and how it ends. -/

namespace Sys2Proof.Machine

variable {s t u : State} {done : List (Nat × List Byte)}

/-! ### A packet step beside a round of the recursion -/

/-- The packets that are still to be written (R106). -/
def State.packetsLeft (s : State) : List (Nat × List Byte) := encPackets (s.image.drop s.eng.pcur)

theorem State.length_image (s : State) : s.image.length = s.pixels := by
  rw [State.image, List.length_map, List.length_range]

theorem State.pixelOf_image (s : State) {i : Nat} (h : i < s.pixels) : pixelOf s.image i = s.px i := by
  rw [pixelOf_eq_getElem (s.length_image.symm ▸ h)]
  simp [State.image]

theorem State.length_image_drop (s : State) : (s.image.drop s.eng.pcur).length = s.pixels - s.eng.pcur := by
  rw [List.length_drop, s.length_image]

/-- The machine chooses the packet that `enc` chooses for the pixels from its cursor on. -/
theorem State.nextPacket_eq_choosePacket (hleft : s.eng.pcur < s.pixels) :
    s.nextPacket = choosePacket (pixelOf (s.image.drop s.eng.pcur)) (s.image.drop s.eng.pcur).length 0 := by
  obtain ⟨M, hM⟩ := Nat.exists_eq_add_of_le (Nat.le_of_lt hleft)
  have hpixels : ∀ j, j < M → pixelOf (s.image.drop s.eng.pcur) j = s.px (s.eng.pcur + j) := fun j hj => by
    rw [pixelOf_drop, s.pixelOf_image (by omega)]
  rw [s.length_image_drop, hM, Nat.add_sub_cancel_left, ← choosePacket_shift (by omega) hpixels, State.nextPacket, hM]

/-- While pixels are left, the packets left are the next one and those after it (R106). -/
theorem State.packetsLeft_eq_cons (hleft : s.eng.pcur < s.pixels) :
    s.packetsLeft = s.nextPacket :: encPackets (s.image.drop (s.eng.pcur + s.nextPacket.1)) := by
  have hpos : 0 < (s.image.drop s.eng.pcur).length := by rw [s.length_image_drop]; omega
  rw [State.packetsLeft, encPackets_of_pos hpos, ← State.nextPacket_eq_choosePacket hleft, List.drop_drop]

theorem State.packetsLeft_eq_nil (hdone : s.pixels ≤ s.eng.pcur) : s.packetsLeft = [] := by
  rw [State.packetsLeft, List.drop_eq_nil_of_le (s.length_image.symm ▸ hdone), encPackets_nil]

/-- The next packet has a pixel at least and ends inside the image, and has its own pixels' bytes at most. -/
theorem State.nextPacket_bounds (hleft : s.eng.pcur < s.pixels) :
    1 ≤ s.nextPacket.1 ∧ s.nextPacket.2.length ≤ 1 + (s.pixels - s.eng.pcur) * s.channels := by
  obtain ⟨hone, -, hin, -, hbytes⟩ := choosePacket_bounds s.px s.pixels s.eng.pcur s.channels
    (fun _ => Memory.length_readBytes ..) hleft
  change 1 ≤ s.nextPacket.1 at hone
  change s.eng.pcur + s.nextPacket.1 ≤ s.pixels at hin
  change s.nextPacket.2.length ≤ 1 + s.nextPacket.1 * s.channels at hbytes
  have hpixels : s.nextPacket.1 * s.channels ≤ (s.pixels - s.eng.pcur) * s.channels :=
    Nat.mul_le_mul_right _ (by omega)
  exact ⟨hone, by omega⟩

/-! ### What a run of RLE_ENCODE leaves alone -/

/-- From `s` to `t` an encode has left alone what it never writes: the launch data, PBUF, the configuration, HDR and the
source (R101). -/
structure EncodeFrame (s t : State) : Prop where
  params : t.params = s.params
  pbuf : t.pbuf = s.pbuf
  config : SameConfig s t
  header : SameHeader s t
  source : SameSource s t

theorem EncodeFrame.trans (h : EncodeFrame s t) (h' : EncodeFrame t u) : EncodeFrame s u where
  params := h'.params.trans h.params
  pbuf := h'.pbuf.trans h.pbuf
  config := by
    obtain ⟨hW, hH, hC⟩ := h.config
    obtain ⟨hW', hH', hC'⟩ := h'.config
    exact ⟨hW'.trans hW, hH'.trans hH, hC'.trans hC⟩
  header := by
    obtain ⟨hhdr, hinfo⟩ := h.header
    obtain ⟨hhdr', hinfo'⟩ := h'.header
    exact ⟨hhdr'.trans hhdr, hinfo'.trans hinfo⟩
  source := by
    obtain ⟨hpos, hin⟩ := h.source
    obtain ⟨hpos', hin'⟩ := h'.source
    exact ⟨hpos'.trans hpos, hin'.trans hin⟩

theorem EncodeFrame.image (h : EncodeFrame s t) : t.image = s.image := by
  have hpx : t.px = s.px := by
    funext i
    rw [State.px, State.px, h.pbuf, h.config.channels]
  rw [State.image, State.image, h.config.pixels, hpx]

/-! ### A running encode, and its end -/

/-- `u` is a state in the packet phase of the RLE_ENCODE issued in `s`, with the packets `done` written: they and the
packets left are those of the image. -/
structure EncodesFrom (s : State) (done : List (Nat × List Byte)) (u : State) : Prop where
  inv : Invariant u
  op : u.eng.op = .encoding
  frame : EncodeFrame s u
  status : u.status = s.status
  packets : encPackets s.image = done ++ u.packetsLeft
  pcur : u.eng.pcur = pixelsOf done
  pktCount : u.pktCount.toNat = done.length
  sinkOut : u.sinkOut = s.sinkOut ++ bytesOf done
  outCount : u.outCount.toNat = (bytesOf done).length

/-- The sink has room for all bytes of `enc` (R43). -/
def RoomForEnc (s : State) : Prop :=
  ∀ limit, s.params.sinkLimit = some limit → s.sinkOut.length + (enc s.image).length ≤ limit

/-- The RLE_ENCODE issued in `s` has ended in `t` with all of `enc` written (R106). -/
structure WroteAll (s t : State) : Prop where
  ends : EndsOk s t
  sinkOut : t.sinkOut = s.sinkOut ++ enc s.image
  outCount : t.outCount.toNat = (enc s.image).length
  pixCount : t.pixCount.toNat = s.pixels
  pktCount : t.pktCount.toNat = (encPackets s.image).length

/-- The RLE_ENCODE issued in `s` has ended in `t` at a sink that takes `limit` bytes, with the packets `done` written whole
and the next one, `pkt`, cut short (R101, R117). -/
structure WrotePart (s : State) (limit : Nat) (done : List (Nat × List Byte)) (pkt : Nat × List Byte) (t : State) :
    Prop where
  ends : EndsErr 2 0x00 s t
  packets : done ++ [pkt] <+: encPackets s.image
  sinkOut : t.sinkOut = s.sinkOut ++ (enc s.image).take t.outCount.toNat
  outCount : t.outCount.toNat = limit - s.sinkOut.length
  pixCount : t.pixCount.toNat = pixelsOf done
  pktCount : t.pktCount.toNat = done.length
  whole : (bytesOf done).length ≤ t.outCount.toNat
  short : t.outCount.toNat < (bytesOf (done ++ [pkt])).length

/-- The RLE_ENCODE issued in `s` has ended in `t`, by whether the sink has room for `enc`. -/
structure EncodeEnds (s t : State) : Prop where
  frame : EncodeFrame s t
  result : (RoomForEnc s ∧ WroteAll s t) ∨
    ∃ limit done pkt, s.params.sinkLimit = some limit ∧ limit < s.sinkOut.length + (enc s.image).length ∧
      WrotePart s limit done pkt t

theorem EncodeEnds.not_busy (h : EncodeEnds s t) : t.busy = false := by
  rcases h.result with ⟨-, hall⟩ | ⟨_, _, _, -, -, hpart⟩
  · exact hall.ends.not_busy
  · exact hpart.ends.not_busy

theorem SinkWithin.length_le (h : SinkWithin s) {limit : Nat} (hlimit : s.params.sinkLimit = some limit) :
    s.sinkOut.length ≤ limit := by
  simpa only [SinkWithin, hlimit] using h

theorem EncodesFrom.countersWithin (h : EncodesFrom s done u) : CountersWithin u u.outCount := by
  obtain ⟨-, -, hcount, -⟩ := (opInv_encoding_iff h.op).1 h.inv.op
  exact hcount

/-- OUT_COUNT does not wrap while an encode writes its next packet or a part of it (R33): the bounds are those of a
decode's IN_COUNT. -/
theorem EncodesFrom.outCount_add (h : EncodesFrom s done u) (hleft : u.eng.pcur < u.pixels) {k : Nat}
    (hk : k ≤ u.nextPacket.2.length) : (u.outCount + BitVec.ofNat 64 k).toNat = (bytesOf done).length + k := by
  have hbytes := hk.trans (State.nextPacket_bounds hleft).2
  rw [← h.outCount]
  exact CountersWithin.inCount_add (s := { u with inCount := u.outCount }) h.countersWithin hbytes

/-- The setup step begins the packet phase with nothing written and nothing counted (R100). -/
theorem encodesFrom_setup (h : Invariant s) (hop : s.eng.op = .ready .rleEncode) (hcfg : s.cfgDetail = 0) :
    EncodesFrom s [] { s with eng := { s.eng with op := .encoding, pcur := 0 } } := by
  have hready := h.op
  simp only [OpInv, hop] at hready
  obtain ⟨-, -, -, -, hpkt, -, hout⟩ := hready
  have hstep := (exec_rleEncode_ready hop).trans (rleSetup_legal hcfg)
  exact ⟨h.after_exec (.inl hop) hstep, rfl, ⟨rfl, rfl, ⟨rfl, rfl, rfl⟩, ⟨rfl, rfl⟩, ⟨rfl, rfl⟩⟩, rfl, rfl, rfl,
    congrArg BitVec.toNat hpkt, (List.append_nil _).symm, congrArg BitVec.toNat hout⟩

/-- The hosts do not touch a running encode (R132). -/
theorem EncodesFrom.withSurroundings (h : EncodesFrom s done u) (m : Option Hazard) (x : HostState) (ts : List Turn) :
    EncodesFrom s done { u with faultMark := m, host := x, turns := ts } :=
  ⟨h.inv.withSurroundings m x ts, h.op,
    ⟨h.frame.params, h.frame.pbuf, h.frame.config, h.frame.header, h.frame.source⟩, h.status, h.packets, h.pcur, h.pktCount,
    h.sinkOut, h.outCount⟩

/-- The end step ends an encode whose packets are all written (R100). -/
theorem EncodesFrom.ends (h : EncodesFrom s done u) (hdone : u.pixels ≤ u.eng.pcur) : EncodeEnds s (complete u) := by
  obtain ⟨hcur, hpix, -, -⟩ := h.countersWithin
  have hall : u.eng.pcur = s.pixels := (Nat.le_antisymm hcur hdone).trans h.frame.config.pixels
  have hpackets : encPackets s.image = done := by rw [h.packets, State.packetsLeft_eq_nil hdone, List.append_nil]
  have henc : enc s.image = bytesOf done := by rw [enc, hpackets]
  refine ⟨h.frame.trans ⟨rfl, rfl, ⟨rfl, rfl, rfl⟩, ⟨rfl, rfl⟩, ⟨rfl, rfl⟩⟩, .inl ⟨fun limit hlimit => ?_, ?_⟩⟩
  · have hle := h.inv.sink.length_le (h.frame.params.symm ▸ hlimit)
    rwa [h.sinkOut, List.length_append, ← henc] at hle
  · exact ⟨endsOk_complete h.status, henc ▸ h.sinkOut, henc ▸ h.outCount, hpix.trans hall, hpackets ▸ h.pktCount⟩

/-- A packet written whole goes from the packets left to those written (R101, R106). -/
theorem EncodesFrom.writes (h : EncodesFrom s done u) (hleft : u.eng.pcur < u.pixels)
    (hinv : Invariant (u.wrotePacket u.nextPacket)) : EncodesFrom s (done ++ [u.nextPacket]) (u.wrotePacket u.nextPacket) := by
  have hframe : EncodeFrame u (u.wrotePacket u.nextPacket) := ⟨rfl, rfl, ⟨rfl, rfl, rfl⟩, ⟨rfl, rfl⟩, ⟨rfl, rfl⟩⟩
  have hpkt : (u.pktCount + 1).toNat = u.pktCount.toNat + 1 := h.countersWithin.pktCount_add hleft
  refine ⟨hinv, h.op, h.frame.trans hframe, h.status, ?_, ?_, ?_, ?_, ?_⟩
  · rw [h.packets, State.packetsLeft_eq_cons hleft, List.append_assoc]
    rfl
  · rw [pixelsOf_append, ← h.pcur]
    rfl
  · rw [List.length_append, ← h.pktCount]
    exact hpkt
  · rw [bytesOf_append, ← List.append_assoc, ← h.sinkOut, bytesOf_cons, bytesOf_nil, List.append_nil]
    rfl
  · rw [bytesOf_append, bytesOf_cons, bytesOf_nil, List.append_nil, List.length_append]
    exact h.outCount_add hleft (Nat.le_refl _)

/-- A packet cut short ends an encode inside that packet (R101, R117). -/
theorem EncodesFrom.fails (h : EncodesFrom s done u) (hleft : u.eng.pcur < u.pixels) {limit : Nat}
    (hlimit : u.params.sinkLimit = some limit) (hfull : limit < u.sinkOut.length + u.nextPacket.2.length) :
    EncodeEnds s (u.cutShort u.nextPacket.2 (limit - u.sinkOut.length)) := by
  obtain ⟨-, hpix, -, -⟩ := h.countersWithin
  have hwithin := h.inv.sink.length_le hlimit
  have hlen : u.sinkOut.length = s.sinkOut.length + (bytesOf done).length := by rw [h.sinkOut, List.length_append]
  have hpackets : encPackets s.image =
      done ++ [u.nextPacket] ++ encPackets (u.image.drop (u.eng.pcur + u.nextPacket.1)) := by
    rw [h.packets, State.packetsLeft_eq_cons hleft, List.append_assoc, List.singleton_append]
  have henc : enc s.image =
      bytesOf done ++ (u.nextPacket.2 ++ bytesOf (encPackets (u.image.drop (u.eng.pcur + u.nextPacket.1)))) := by
    rw [enc, hpackets, bytesOf_append, bytesOf_append, List.append_assoc, bytesOf_cons, bytesOf_nil, List.append_nil]
  generalize encPackets (u.image.drop (u.eng.pcur + u.nextPacket.1)) = rest at hpackets henc
  obtain ⟨k, hk⟩ : ∃ k, k = limit - u.sinkOut.length := ⟨_, rfl⟩
  have hkle : k ≤ u.nextPacket.2.length := by omega
  have hout : (u.cutShort u.nextPacket.2 k).outCount.toNat = (bytesOf done).length + k := by
    rw [State.cutShort, raise_outCount, State.accepted, List.length_take_of_le hkle]
    exact h.outCount_add hleft hkle
  rw [← hk]
  refine ⟨h.frame.trans ⟨rfl, rfl, ⟨rfl, rfl, rfl⟩, ⟨rfl, rfl⟩, ⟨rfl, rfl⟩⟩,
    .inr ⟨limit, done, u.nextPacket, h.frame.params ▸ hlimit, ?_, ?_⟩⟩
  · rw [henc, List.length_append, List.length_append]
    omega
  · refine ⟨endsErr_raise (by exact h.status) .sinkUnavailable 0x00, ⟨rest, hpackets.symm⟩, ?_, ?_, ?_, h.pktCount, ?_, ?_⟩
    · show u.sinkOut ++ u.nextPacket.2.take k = _
      rw [hout, henc, List.take_length_add_append, List.take_append_of_le_length hkle, h.sinkOut, List.append_assoc]
    · rw [hout]
      omega
    · exact hpix.trans h.pcur
    · rw [hout]
      exact Nat.le_add_right ..
    · rw [hout, bytesOf_append, bytesOf_cons, bytesOf_nil, List.append_nil, List.length_append]
      omega

/-- An engine step of a running encode writes a packet and goes on, or ends it. -/
theorem EncodesFrom.after_engineStep (h : EncodesFrom s done u) (ht : engineStep u = .next t) :
    (∃ done', EncodesFrom s done' t ∧ u.eng.pcur < t.eng.pcur) ∨ EncodeEnds s t := by
  have hexec : exec .rleEncode u = .next t := by rw [← ht, engineStep, h.op]
  have hinv : Invariant t := h.inv.after_exec (.inr (.inr ⟨rfl, h.op⟩)) hexec
  rcases Nat.lt_or_ge u.eng.pcur u.pixels with hleft | hdone
  · rw [exec_rleEncode_packet h.op hleft] at hexec
    rcases encodePacket_room_or_full hleft with ⟨hstep, -⟩ | ⟨limit, hstep, hlimit, hfull⟩ <;>
      rw [hexec] at hstep <;> cases hstep
    · exact .inl ⟨_, h.writes hleft hinv, Nat.lt_add_of_pos_right (State.nextPacket_bounds hleft).1⟩
    · exact .inr (h.fails hleft hlimit hfull)
  · rw [exec_rleEncode_end h.op hdone] at hexec
    cases hexec
    exact .inr (h.ends hdone)

/-! ### A run of the command -/

/-- How far a run of the RLE_ENCODE issued in `s` has come after `k` engine steps (R136): its setup step to come, in its
packet phase, or ended. -/
inductive EncodePhase (s : State) : (k : Nat) → State → Prop where
  | issued (m : Option Hazard) (x : HostState) (ts : List Turn) :
      EncodePhase s 0 { s with faultMark := m, host := x, turns := ts }
  | encoding {k : Nat} {done : List (Nat × List Byte)} {u : State} : k ≤ u.eng.pcur + 1 → EncodesFrom s done u →
      EncodePhase s k u
  | ended {k : Nat} {t : State} : k ≤ s.pixels + 2 → EncodeEnds s t → EncodePhase s k t

theorem EncodesFrom.pcur_le (h : EncodesFrom s done u) : u.eng.pcur ≤ s.pixels := by
  obtain ⟨hcur, -⟩ := h.countersWithin
  exact h.frame.config.pixels ▸ hcur

theorem EncodesFrom.busy (h : EncodesFrom s done u) : u.busy = true := h.inv.busy_of_op (by simp [h.op])

/-- The first engine step of an issued RLE_ENCODE with a legal configuration is its setup step (R100). -/
theorem engineStep_rleEncode_ready (hop : s.eng.op = .ready .rleEncode) (hcfg : s.cfgDetail = 0) :
    engineStep s = .next { s with eng := { s.eng with op := .encoding, pcur := 0 } } := by
  rw [engineStep, hop]
  exact (exec_rleEncode_ready hop).trans (rleSetup_legal hcfg)

/-- Every state of a run of RLE_ENCODE is in one of its phases. -/
theorem CommandRun.encodePhase {k : Nat} (hr : CommandRun k s t) (h : Invariant s) (hop : s.eng.op = .ready .rleEncode)
    (hcfg : s.cfgDetail = 0) : EncodePhase s k t := by
  have idle : ∀ {v : State}, v.busy = true → ¬ EncodeEnds s v := fun hb hv => by simp [hv.not_busy] at hb
  refine hr.induct (.issued s.faultMark s.host s.turns) ?_ ?_
  · intro k v m x ts hv hb
    cases hv with
    | issued => exact .issued m x ts
    | encoding hk hv => exact .encoding hk (hv.withSurroundings m x ts)
    | ended _ hv => exact absurd hv (idle hb)
  · intro k v w hv hb hw
    cases hv with
    | issued m x ts =>
      rw [engineStep_rleEncode_ready (s := { s with faultMark := m, host := x, turns := ts }) hop hcfg] at hw
      cases hw
      exact .encoding (Nat.le_refl _) ((encodesFrom_setup h hop hcfg).withSurroundings m x ts)
    | encoding hk hv =>
      rcases hv.after_engineStep hw with ⟨done, hw, hlt⟩ | hends
      · exact .encoding (by omega) hw
      · have hcur := hv.pcur_le
        exact .ended (by omega) hends
    | ended _ hv => exact absurd hv (idle hb)

theorem EncodePhase.steps_le {k : Nat} (h : EncodePhase s k t) : k ≤ s.pixels + 2 := by
  cases h with
  | issued => exact Nat.zero_le _
  | encoding hk hu =>
    have hcur := hu.pcur_le
    omega
  | ended hk => exact hk

/-- A run that is idle has ended the command. -/
theorem EncodePhase.ends_of_idle {k : Nat} (h : EncodePhase s k t) (hb : s.busy = true) (hidle : t.busy = false) :
    EncodeEnds s t := by
  cases h with
  | issued => exact absurd (hb.symm.trans hidle) (by decide)
  | encoding _ hu => exact absurd (hu.busy.symm.trans hidle) (by decide)
  | ended _ hends => exact hends

/-- The packets counted are the packets written whole, and the failure lies inside the one after them (R101). -/
theorem WrotePart.counted {limit : Nat} {pkt : Nat × List Byte} (h : WrotePart s limit done pkt t) :
    (encPackets s.image).take t.pktCount.toNat = done ∧
      (encPackets s.image).take (t.pktCount.toNat + 1) = done ++ [pkt] ∧ t.pktCount.toNat < (encPackets s.image).length := by
  obtain ⟨rest, hrest⟩ := h.packets
  rw [h.pktCount, ← hrest]
  refine ⟨by simp, ?_, ?_⟩
  · rw [← List.length_singleton (a := pkt), ← List.length_append, List.take_left]
  · simp

/-- Settles O33: along every run the packets written, followed by those of the pixels left, are the packets of the image;
the engine's steps are bounded, so that a run to the end exists. -/
theorem encodeCommandComputesEnc : Obligations.EncodeCommandComputesEnc := by
  intro s h hop hcfg packets
  have hphase : ∀ k t, CommandRun k s t → EncodePhase s k t := fun _ _ hr => hr.encodePhase h hop hcfg
  refine ⟨fun k t hr hidle => ?_, commandRun_to_end fun k t hr => (hphase k t hr).steps_le⟩
  obtain ⟨hframe, hresult⟩ := (hphase k t hr).ends_of_idle (h.busy_of_op (by simp [hop])) hidle
  refine ⟨(hphase k t hr).steps_le, ?_, ?_, hframe.pbuf, hframe.config, hframe.header, hframe.source, hframe.params⟩
  · intro hroom
    rcases hresult with ⟨-, hall⟩ | ⟨limit, _, _, hlimit, hfull, -⟩
    · exact ⟨hall.ends, hall.sinkOut, hall.outCount, hall.pixCount, hall.pktCount⟩
    · exact absurd (hroom limit hlimit) (Nat.not_le.2 hfull)
  · intro limit hlimit hfull whole
    rcases hresult with ⟨hroom, -⟩ | ⟨limit', done, pkt, hlimit', -, hpart⟩
    · exact absurd (hroom limit hlimit) (Nat.not_le.2 hfull)
    · obtain rfl : limit = limit' := Option.some.inj (hlimit.symm.trans hlimit')
      obtain ⟨hwhole, hnext, hcount⟩ := hpart.counted
      have hwhole : whole = done := hwhole
      rw [hwhole, hnext]
      exact ⟨hpart.ends, hpart.sinkOut, hpart.outCount, hcount, hpart.pixCount, hpart.whole, hpart.short⟩

end Sys2Proof.Machine
end

section
/-! SUPPORT. The reserved command words (spec/43_illegal_command.md R109): the DETAIL of a word as a sum, the issue of the
word, and the one step of ILLEGAL. -/

namespace Sys2Proof.Machine

variable {s : State}

/-- The DETAIL of a reserved word, as a sum over its fields (R109, R114). -/
theorem illegalDetail_eq_ofNat (w : Word) :
    illegalDetail w =
      BitVec.ofNat 8 ((if 1 ≤ w.toNat % 256 ∧ w.toNat % 256 ≤ 6 then 0 else 1) + (if w.toNat / 1024 = 0 then 0 else 2) +
        (if w.toNat % 256 ≠ 4 ∧ w.toNat / 256 % 4 ≠ 0 then 4 else 0)) := by
  simp only [illegalDetail, definedOpcode, Bool.and_eq_true, decide_eq_true_eq, toNat_opField,
    reservedField_eq_zero_iff, flagField_eq_zero_iff, opField_eq_four_iff, ne_eq]
  split <;> split <;> split <;> decide

/-- A word written to CMD while BUSY = 0 is issued, whatever it stands for (R19, R110). -/
theorem hostAccess_writeCmd (hb : s.busy = false) (w : Word) :
    hostAccess (.regWrite 32 0x00 w) s = (.nothing, issue w s) :=
  hostAccess_writeReg hb .cmd w

/-- An issued command is in progress (R110). -/
theorem busy_issue (w : Word) (s : State) : (issue w s).busy = true := by
  rw [State.busy, issue_status, Status.issued, Status.busy_pack]

/-- LASTOP of an issued command is the OP byte of its word (R110). -/
theorem lastOp_issue (w : Word) (s : State) : Status.lastOp (issue w s).status = opField w := by
  rw [issue_status, Status.issued, Status.lastOp_pack]

/-- Settles O17: ILLEGAL is one raise, which writes STATUS and `ENG.op` alone. -/
theorem illegalEffect : Obligations.IllegalEffect := by
  intro s w
  obtain ⟨hend, hconfig, hheader, hpbuf, hsource, hsink, hprogress, hsurroundings⟩ :=
    raise_ends_untouched .illegalCommand (illegalDetail w) s
  exact ⟨_, rfl, hend, hconfig, hheader, hpbuf, hsource, hsink, hprogress, hsurroundings, rfl⟩

/-- Settles O16: the write issues ILLEGAL of the word, clearing the counters; its step changes STATUS and `ENG.op` alone. -/
theorem illegalWordRaises : Obligations.IllegalWordRaises := by
  intro s w hb hillegal op flags d
  have hop : (issue w s).eng.op = .ready (.illegal w) := by rw [issue_eng, decodeCommand_of_illegal hillegal]
  have hlast : BitVec.ofNat 8 op = opField w := by
    simp only [op, ← toNat_opField, BitVec.ofNat_toNat, BitVec.setWidth_eq]
  obtain ⟨u, hstep, hend, hconfig, hheader, hpbuf, ⟨hpos, hin⟩, ⟨hsink, hout⟩, ⟨hpix, hpkt⟩, hsurroundings, -⟩ :=
    illegalEffect (issue w s) w
  have hstatus : u.status = Status.pack (BitVec.ofNat 8 op) d 7 true true false := by
    rw [hend.status, lastOp_issue, hlast, illegalDetail_eq_ofNat]
  exact ⟨_, u, hostAccess_writeCmd hb w, busy_issue w s, hop, hstep, hstatus, hend.op, hpix, hpkt, hin, hout, hpos, hsink,
    hheader, hconfig, hpbuf, hsurroundings⟩

end Sys2Proof.Machine
end

section
/-! SUPPORT. A step as the turn it takes (spec/60_exceptions.md R110, R121, R124, R126, R132): the engine's turn by the
phase of the command in progress, a second host's turn, and STATUS of an issued command as R110 writes it. -/

namespace Sys2Proof.Machine

variable {s : State}

/-! ### The turn chosen -/

/-- A turn that is chosen is the turn taken, and it is taken off the list (log entry 3). -/
theorem step_of_chosen_turn {tn : Turn} {ts : List Turn} (h : s.turns = tn :: ts) :
    step s = takeTurn tn { s with turns := ts } := by
  rw [step, nextTurn, h, List.tail_cons]

/-- An engine step right after the issue is the command's own (R110, R136). -/
theorem engineStep_ready {i : Instr} (hop : s.eng.op = .ready i) : engineStep s = exec i s := by
  rw [engineStep, hop]

/-- An idle engine has no step to take (R126). -/
theorem engineStep_idle (hop : s.eng.op = .idle) : engineStep s = .next s := by
  rw [engineStep, hop]

/-- Settles O6: the engine's turn, chosen or by default, is a step of the command that was issued. -/
theorem stepRunsIssuedCommand : Obligations.StepRunsIssuedCommand := by
  intro s i ts hop
  constructor
  · intro hturns
    rw [step_of_engine_turn hturns]
    exact engineStep_ready hop
  · intro hturns hb
    rw [step_of_default_turn hturns hb]
    exact engineStep_ready hop

/-- Settles O47: the engine's turn is chosen, and an idle engine has no step to take. -/
theorem idleEngineKeepsState : Obligations.IdleEngineKeepsState := by
  intro s ts hop hturns
  rw [step_of_engine_turn hturns]
  exact engineStep_idle hop

/-! ### The issue of a command -/

/-- STATUS of an issued command, as R110 writes it: the OP byte does not reach the BUSY bit. -/
theorem Status.issued_eq_or (op : Byte) : Status.issued op = 0x00000001 ||| (op.setWidth 32 <<< 16) := by
  have hop : op.toNat < 256 := op.isLt
  have hlow : 1 ||| op.toNat <<< 16 = op.toNat * 65536 + 1 := by
    rw [Nat.or_comm, ← Nat.shiftLeft_add_eq_or_of_lt (by decide : 1 < 2 ^ 16), Nat.shiftLeft_eq]
  have hshift : ((op.setWidth 32 : Word) <<< 16).toNat = op.toNat <<< 16 := by
    simp only [BitVec.toNat_shiftLeft, BitVec.toNat_setWidth, Nat.shiftLeft_eq]
    omega
  apply BitVec.eq_of_toNat_eq
  calc (Status.issued op).toNat = op.toNat * 65536 + 1 := by simp [Status.issued, Status.toNat_pack]
    _ = 1 ||| op.toNat <<< 16 := hlow.symm
    _ = _ := by rw [BitVec.toNat_or, hshift]; rfl

/-- Settles O9: the write is the issue of the word, which writes STATUS, the counters and `ENG.op` alone. -/
theorem commandIssue : Obligations.CommandIssue := by
  intro s w hb
  exact ⟨issue w s, hostAccess_writeCmd hb w, Status.issued_eq_or (opField w), rfl, rfl, rfl, rfl, rfl, rfl,
    ⟨rfl, rfl, rfl⟩, ⟨rfl, rfl⟩, rfl, rfl, rfl, ⟨rfl, rfl, rfl, rfl⟩⟩

/-! ### A second host's turn -/

/-- While BUSY = 0 a second host's access is one like the first host's (R124; log entry 12). -/
theorem otherHostAccess_of_idle (hb : s.busy = false) (a : HostAction) : otherHostAccess a s = (hostAccess a s).2 := by
  simp [otherHostAccess, hb]

/-- While BUSY = 1 a second host's access is a hazard, whatever it is (R132; log entry 7). -/
theorem otherHostAccess_of_busy (hb : s.busy = true) (a : HostAction) :
    otherHostAccess a s = setFault .busySecondHost s :=
  if_pos hb

/-- Settles O60: the turn is the access, which is the first host's while BUSY = 0 and a hazard while BUSY = 1. -/
theorem secondHostAccess : Obligations.SecondHostAccess := by
  intro s a ts hturns u
  have hstep : step s = .next (otherHostAccess a u) := step_of_chosen_turn hturns
  constructor
  · intro hb
    rw [hstep, otherHostAccess_of_idle (s := u) hb]
    exact ⟨rfl, hostAccess_host a u⟩
  · intro hb
    rw [hstep, otherHostAccess_of_busy (s := u) hb]
    exact ⟨_, rfl, setFault_faultMark u .busySecondHost, rfl⟩

end Sys2Proof.Machine
end

section
/-! SUPPORT. A command ends after at most `N + 2` engine steps (spec/70_reset_and_hazards.md R136): every engine step of a
command in progress lowers the bound on the steps it has left. -/

namespace Sys2Proof.Machine

variable {s t : State}

/-- A bound on the engine steps that the command in progress has still to take (R136): one before the packet phase of an
RLE command, one for each packet, and so one for each missing pixel at most, and the end step. -/
def State.stepsLeft (s : State) : Nat :=
  match s.eng.op with
  | .idle => 0
  | .ready _ => s.pixels + 2
  | .decoding => s.pixels - s.eng.pcur + 1
  | .encoding => s.pixels - s.eng.pcur + 1

theorem stepsLeft_lt_of_idle (hop : s.eng.op = .idle) {n : Nat} : s.stepsLeft < n + 1 := by
  rw [State.stepsLeft, hop]
  exact Nat.succ_pos n

theorem stepsLeft_ready {i : Instr} (hop : s.eng.op = .ready i) : s.stepsLeft = s.pixels + 2 := by
  rw [State.stepsLeft, hop]

theorem stepsLeft_packetPhase (hop : s.eng.op = .decoding ∨ s.eng.op = .encoding) :
    s.stepsLeft = s.pixels - s.eng.pcur + 1 := by
  rcases hop with hop | hop <;> rw [State.stepsLeft, hop]

theorem stepsLeft_le (s : State) : s.stepsLeft ≤ s.pixels + 2 := by
  cases hop : s.eng.op with
  | idle => exact Nat.le_of_lt (stepsLeft_lt_of_idle hop)
  | ready i => rw [stepsLeft_ready hop]
  | decoding => rw [stepsLeft_packetPhase (.inl hop)]; omega
  | encoding => rw [stepsLeft_packetPhase (.inr hop)]; omega

/-- The setup step leaves one step for each pixel and the end step, or ends the command (R88, R100). -/
theorem stepsLeft_lt_of_rleSetup {op : EngOp} (hop : op = .decoding ∨ op = .encoding) (ht : rleSetup op s = .next t) :
    t.stepsLeft < s.pixels + 2 := by
  rcases rleSetup_cases ht with ⟨-, rfl⟩ | ⟨-, rfl⟩
  · exact stepsLeft_lt_of_idle rfl
  · rw [stepsLeft_packetPhase hop]
    exact Nat.lt_succ_self (s.pixels + 1)

/-- The first step of a command is its only one, or the setup step of an RLE command (R136). -/
theorem stepsLeft_lt_of_exec_ready {i : Instr} (hcmd : i.isCommand = true) (hop : s.eng.op = .ready i)
    (ht : exec i s = .next t) : t.stepsLeft < s.pixels + 2 := by
  cases i with
  | hdrParse =>
    have ht : execHdrParse s = .next t := ht
    rw [execHdrParse_eq] at ht
    split at ht <;> cases ht <;> exact stepsLeft_lt_of_idle rfl
  | hdrSerialize =>
    have ht : execHdrSerialize s = .next t := ht
    rw [execHdrSerialize_eq] at ht
    split at ht <;> cases ht <;> exact stepsLeft_lt_of_idle rfl
  | hdrCheck => rcases exec_hdrCheck_cases ht with ⟨e, rfl⟩ | ⟨-, rfl⟩ <;> exact stepsLeft_lt_of_idle rfl
  | hdrBuild rle vflip => rcases exec_hdrBuild_cases ht with ⟨-, rfl⟩ | ⟨g, v, -, -, rfl⟩ <;> exact stepsLeft_lt_of_idle rfl
  | rleDecode => exact stepsLeft_lt_of_rleSetup (.inl rfl) ((exec_rleDecode_ready hop).symm.trans ht)
  | rleEncode => exact stepsLeft_lt_of_rleSetup (.inr rfl) ((exec_rleEncode_ready hop).symm.trans ht)
  | illegal w => cases ht; exact stepsLeft_lt_of_idle rfl
  | rawPacket n => cases hcmd
  | runPacket n => cases hcmd

/-- A step of a decode in its packet phase commits a pixel at least, or ends it (R66, R88). -/
theorem stepsLeft_lt_of_exec_decoding (hop : s.eng.op = .decoding) (ht : exec .rleDecode s = .next t) :
    t.stepsLeft < s.stepsLeft := by
  rw [stepsLeft_packetPhase (.inl hop)]
  cases decodeStep_of_exec hop ht with
  | ends => exact stepsLeft_lt_of_idle rfl
  | fails => exact stepsLeft_lt_of_idle rfl
  | @commits n _ _ _ e hn hroom =>
    have hphase : t.eng.op = .decoding := by rw [e]; exact hop
    have hpixels : t.pixels = s.pixels := by rw [e]; rfl
    have hcur : t.eng.pcur = s.eng.pcur + n := by rw [e]; rfl
    rw [stepsLeft_packetPhase (.inl hphase), hpixels, hcur]
    omega

/-- A step of an encode in its packet phase writes a pixel at least, or ends it (R100, R101). -/
theorem stepsLeft_lt_of_exec_encoding (hop : s.eng.op = .encoding) (ht : exec .rleEncode s = .next t) :
    t.stepsLeft < s.stepsLeft := by
  rw [stepsLeft_packetPhase (.inr hop)]
  rcases Nat.lt_or_ge s.eng.pcur s.pixels with hleft | hdone
  · rw [exec_rleEncode_packet hop hleft] at ht
    rcases encodePacket_room_or_full hleft with ⟨hstep, -⟩ | ⟨limit, hstep, -⟩ <;> rw [ht] at hstep <;> cases hstep
    · obtain ⟨hn, -⟩ := State.nextPacket_bounds hleft
      rw [stepsLeft_packetPhase (s := s.wrotePacket s.nextPacket) (.inr hop)]
      show s.pixels - (s.eng.pcur + s.nextPacket.1) + 1 < s.pixels - s.eng.pcur + 1
      omega
    · exact stepsLeft_lt_of_idle rfl
  · rw [exec_rleEncode_end hop hdone] at ht
    cases ht
    exact stepsLeft_lt_of_idle rfl

/-- Every engine step of a command in progress lowers the bound (R136). -/
theorem Invariant.stepsLeft_lt (h : Invariant s) (hb : s.busy = true) (ht : engineStep s = .next t) :
    t.stepsLeft < s.stepsLeft := by
  cases hop : s.eng.op with
  | idle => exact absurd hop (h.busyOp.1 hb)
  | ready i =>
    rw [stepsLeft_ready hop]
    exact stepsLeft_lt_of_exec_ready (h.isCommand_of_ready hop) hop ((engineStep_ready hop).symm.trans ht)
  | decoding => exact stepsLeft_lt_of_exec_decoding hop ((engineStep_decoding hop).symm.trans ht)
  | encoding =>
    refine stepsLeft_lt_of_exec_encoding hop ?_
    rwa [engineStep, hop] at ht

/-- Along a run of a command, the engine steps taken and the bound on those left stay within the bound at its start,
whatever the hosts do meanwhile (R132, R136). -/
theorem CommandRun.add_stepsLeft_le {k : Nat} (hr : CommandRun k s t) (h : Invariant s) :
    k + t.stepsLeft ≤ s.stepsLeft := by
  refine (hr.induct (P := fun k v => Invariant v ∧ k + v.stepsLeft ≤ s.stepsLeft) ⟨h, by omega⟩ ?_ ?_).2
  · rintro k v m x ts ⟨hv, hle⟩ -
    exact ⟨hv.withSurroundings m x ts, hle⟩
  · rintro k v w ⟨hv, hle⟩ hb hw
    have hlt := hv.stepsLeft_lt hb hw
    exact ⟨hv.after_takeTurn (tn := .engine) hw, by omega⟩

/-- Settles O57: every engine step of a run lowers a bound that is `N + 2` at most, so that a run to the end exists. -/
theorem everyCommandEnds : Obligations.EveryCommandEnds := by
  intro s h _
  have hbound : ∀ k t, CommandRun k s t → k ≤ s.pixels + 2 := fun k t hr =>
    calc k ≤ k + t.stepsLeft := Nat.le_add_right ..
      _ ≤ s.stepsLeft := hr.add_stepsLeft_le h
      _ ≤ s.pixels + 2 := stepsLeft_le s
  refine ⟨hbound, fun hlet => ?_⟩
  obtain ⟨k, t, hr, hidle, -⟩ := commandRun_to_end hbound hlet
  exact ⟨k, t, hr, hidle⟩

end Sys2Proof.Machine
end

section
/-! SUPPORT. The hazards of the hosts' accesses (spec/70_reset_and_hazards.md R132, R133): which accesses are hazards, and
the reserved offsets of the window, which are none. -/

namespace Sys2Proof.Machine

variable {s : State} {a : HostAction}

/-! ### The busy hazard (R132) -/

/-- While BUSY = 1 every access but a 32-bit read of STATUS is a hazard: one of another width is an access hazard. -/
theorem hazardOf_of_not_poll (hb : s.busy = true) (ha : a ≠ .regRead 32 0x04) : ∃ z, hazardOf a s = some z := by
  cases a with
  | regRead width offset =>
    by_cases hoffset : offset = Reg.offset .status
    · have hwidth : width ≠ 32 := by
        rintro rfl
        exact ha (congrArg _ hoffset)
      exact ⟨_, hazardOf_of_accessHazard (if_pos hwidth)⟩
    · exact hazardOf_of_busy hb (if_neg hoffset)
  | regWrite | bufRead | bufWrite | take | put => exact hazardOf_of_busy hb rfl

/-- Settles O37: each access but the poll of STATUS is a hazard of the first host, and each is one of a second host. -/
theorem HostHazards.busyHazard : Obligations.BusyHazard := by
  intro s a hb
  refine ⟨fun ha => ?_, hostAccess_readStatus s, ?_⟩
  · obtain ⟨z, hz⟩ := hazardOf_of_not_poll hb ha
    exact hostAccess_of_hazard hz
  · rw [otherHostAccess_of_busy hb]
    exact ⟨by simp, rfl⟩

/-! ### The access hazard (R133) -/

/-- A register access that breaks a condition of R133 is an access hazard, whatever else it breaks (log entry 7). -/
theorem portHazard_eq_some {width offset : Nat} (h : width ≠ 32 ∨ offset % 4 ≠ 0 ∨ 0x100 ≤ offset) :
    ∃ z, portHazard width offset = some z := by
  unfold portHazard
  split
  · exact ⟨_, rfl⟩
  · split
    · exact ⟨_, rfl⟩
    · exact ⟨_, if_pos (by omega)⟩

theorem accessHazard_register {width offset : Nat} {v : Word}
    (ha : a = .regRead width offset ∨ a = .regWrite width offset v) (s : State) :
    accessHazard a s = portHazard width offset := by
  rcases ha with rfl | rfl <;> rfl

/-- The reserved offsets of the window have no register (R18). -/
theorem Reg.at_reserved {o : Nat} (h : o = 0x38 ∨ o = 0x3C ∨ (0x6C ≤ o ∧ o ≤ 0xFC)) : Reg.at o = none := by
  rcases h with rfl | rfl | ⟨hbeyond, -⟩
  · rfl
  · rfl
  · exact Reg.at_eq_none_of_beyond hbeyond

theorem writeOffset_of_reserved {o : Nat} (h : Reg.at o = none) (v : Word) (s : State) : writeOffset o v s = s := by
  rw [writeOffset, h]

/-- Settles O38: a register access by the condition it breaks, a buffer access by its address, and a reserved offset as
one that has no register. -/
theorem HostHazards.accessHazard : Obligations.AccessHazard := by
  intro s width offset v x b
  refine ⟨fun hport a ha => ?_, fun hx a ha => ?_, fun hb halign hreserved => ?_⟩
  · obtain ⟨z, hz⟩ := portHazard_eq_some hport
    exact hostAccess_of_hazard (hazardOf_of_accessHazard ((accessHazard_register ha s).trans hz))
  · obtain ⟨z, hz⟩ := hazardOf_buffer ha (.inr hx)
    exact hostAccess_of_hazard hz
  · have hnone := Reg.at_reserved hreserved
    have hwindow : offset < 0x100 := by omega
    rw [hostAccess_regRead hb halign hwindow, hostAccess_regWrite hb halign hwindow, readOffset_of_reserved hnone,
      writeOffset_of_reserved hnone]
    exact ⟨rfl, rfl⟩

end Sys2Proof.Machine
end

section
/-! SUPPORT. Reset and the launch state (spec/70_reset_and_hazards.md R127, R128): a reset block is a launch state but for
what the reset leaves, and every launch state satisfies the invariant. -/

namespace Sys2Proof.Machine

/-- A reset writes no more of PBUF than the image area of a decode that it abandons (R127, R128; log entry 9). -/
theorem abandonDecode_frame (s : State) : ∃ p d, abandonDecode s = { s with pbuf := p, draws := d } ∧
    (s.eng.op ≠ .decoding → p = s.pbuf) ∧ ∀ x, s.imageBytes ≤ x → p.read x = s.pbuf.read x := by
  rcases abandonDecode_cases s with ⟨hop, e⟩ | ⟨-, e⟩ <;> rw [e]
  · exact ⟨_, _, rfl, fun hne => absurd hop hne, fun _ hx => drawImage_pbuf_outside hx⟩
  · exact ⟨_, _, rfl, fun _ => rfl, fun _ _ => rfl⟩

/-- A reset block is the launch state of its parameters and of what is left of PBUF, but for the streams, FAULT and the
host script, which the reset leaves (R127, R128; log entries 9 and 20). -/
theorem resetBlock_eq_launch (s : State) : ∃ p d,
    resetBlock s = { State.launch s.params p with
      srcPos := s.srcPos, sinkOut := s.sinkOut, faultMark := s.faultMark, host := s.host, turns := s.turns, draws := d } ∧
    (s.eng.op ≠ .decoding → p = s.pbuf) ∧ ∀ x, s.imageBytes ≤ x → p.read x = s.pbuf.read x := by
  obtain ⟨p, d, e, hpbuf⟩ := abandonDecode_frame s
  exact ⟨p, d, by rw [resetBlock, e]; rfl, hpbuf⟩

/-- Settles O58: the step is the reset, after which the block is a launch state but for what R127 leaves. -/
theorem resetEffect : Obligations.ResetEffect := by
  intro s hturn
  obtain ⟨ts, hturns⟩ := List.head?_eq_some_iff.1 hturn
  obtain ⟨p, d, hreset, hkept, houtside⟩ := resetBlock_eq_launch { s with turns := ts }
  have hstep : step s = .next (resetBlock { s with turns := ts }) := step_of_chosen_turn hturns
  rw [hreset] at hstep
  exact ⟨_, hstep, rfl, rfl, rfl, rfl, rfl, rfl, rfl, rfl, rfl, rfl, rfl, rfl, rfl, rfl, rfl, rfl, hkept, houtside⟩

/-- A launch state satisfies the invariant if its PBUF contents fit it (R7, R36, R127). -/
theorem invariant_launch {p : Params} {m : Memory} (hcap : 1 ≤ p.pbufBytes) (hform : m.wf)
    (hinside : ∀ c ∈ m, c.1 < p.pbufBytes) : Invariant (State.launch p m) := by
  have hsink : SinkWithin (State.launch p m) := by
    unfold SinkWithin
    split
    · trivial
    · exact Nat.zero_le _
  exact DataInv.idle ⟨hcap, hform, hinside, Nat.zero_le _, hsink, ⟨rfl, rfl⟩, .inl rfl⟩ .zero
    (by decide : Status.busy 0 = false) rfl

/-- Settles O49: nothing is in progress at launch, and the state after reset is a launch state with an empty PBUF. -/
theorem invariantAtLaunch : Obligations.InvariantAtLaunch :=
  ⟨fun _ _ => invariant_launch, invariant_launch (by decide) reset_pbuf_wf (fun _ h => nomatch h)⟩

/-- Settles O59: each register is a launch value, but the two words of PBUF_CAP. -/
theorem launchState : Obligations.LaunchState := by
  intro p m
  refine ⟨fun r hlo hhi => ?_, rfl, rfl, rfl, rfl, rfl, rfl⟩
  cases r with
  | pbufCapLo => exact absurd rfl hlo
  | pbufCapHi => exact absurd rfl hhi
  | inCountHi | outCountHi => exact (by decide : (0 : BitVec 64).extractLsb' 32 32 = 0)
  | hdrCmapSpecLo => exact (by decide : (0 : Byte) ++ (0 : Byte) ++ (0 : Byte) ++ (0 : Byte) = (0 : Word))
  | _ => rfl

end Sys2Proof.Machine
end
